-- ==== Sys2Proof/Word.lean ====
section
/-! DEFINITION. The bit vectors of the block, one width each (00_scope.md R8). -/
namespace Sys2Proof

/-- A byte of memory, a symbol or a pad byte. -/
abbrev Byte := BitVec 8

/-- A host register, a byte address or a length: `XLEN = ADDR_W = LEN_W = 32`. -/
abbrev Word := BitVec 32

/-- What one symbol carries: `SYM_BITS = 5`. -/
abbrev Index := BitVec 5

/-- The bit accumulator of both pipelines: `ACC_W = 12`. -/
abbrev Acc := BitVec 12

/-- The valid-bit count of both pipelines: `CNT_W = 4`. -/
abbrev Count := BitVec 4

/-- A table with one entry per 5-bit value (`ENC_ALPHA`, and an alphabet read from memory). -/
abbrev Alphabet := Vector Byte 32

/-- A table with one entry per byte value (`DEC_INV`); `none` is the source's sentinel (10_state.md R41). -/
abbrev Inverse := Vector (Option Index) 256

end Sys2Proof
end

