-- ==== Sys2Proof/Syntax.lean ====
section
/-! DEFINITION. The seven commands of the block, one constructor per row of spec/opcode_table.json (30_encoding.md R102). -/
namespace Sys2Proof

/-- A command. Its buffer operands are not in the word: they are the operand registers latched at issue (R100, R104).
The pad policy of the two CFG commands is: `padEn` is `w[8]`, `pad` is `w[23:16]` (0x00 when `padEn` is false, R106). -/
inductive Instr where
  /-- ENC_CFG: build the encoder's forward table and pad policy (40_configuration.md R133). -/
  | encCfg (padEn : Bool) (pad : Byte)
  /-- DEC_CFG: build the decoder's inverse table and pad policy (R134). -/
  | decCfg (padEn : Bool) (pad : Byte)
  /-- ENC_SIZE: output length calculator (41_encoder.md R165). -/
  | encSize
  /-- ENCODE: bit-pack pipeline, symbol mapper and pad fill (R166). -/
  | encode
  /-- DEC_SIZE_UB: length validator, upper bound (42_decoder.md R196). -/
  | decSizeUb
  /-- DEC_SIZE_SLICE: length validator, exact size (R197). -/
  | decSizeSlice
  /-- DECODE: bit-unpack pipeline with its remainder and padding checker (R198). -/
  | decode
  deriving DecidableEq, Repr

end Sys2Proof
end

