-- ==== Sys2Proof/WellFormed.lean ====
section
/-! DEFINITION. Which instructions are in the form the decoder answers (30_encoding.md R104, R106). -/
namespace Sys2Proof

/-- A CFG command with `PAD_EN = 0` has no pad byte: the word's PAD field is ignored and the pad is 0x00 (R104, R106).
No other command carries an operand. -/
def Instr.wellFormed : Instr → Bool
  | .encCfg padEn pad => padEn || pad == 0
  | .decCfg padEn pad => padEn || pad == 0
  | .encSize => true
  | .encode => true
  | .decSizeUb => true
  | .decSizeSlice => true
  | .decode => true

end Sys2Proof
end

