-- ==== Sys2Proof/Decode.lean ====
section
/-! DEFINITION. The command word: its fields (30_encoding.md R101), the decoder of R107, total on every 32-bit word and
rejecting by name (R105), and the encoder written from the same table (R102, R103, R109). -/
namespace Sys2Proof

/-- Why a word is illegal (R105): case 1 names a reserved `OP`, case 2 a nonzero bit that must be 0. -/
inductive Illegal where
  /-- `OP` is 0x0 or 0x8 to 0xF. -/
  | reservedOp
  /-- A reserved bit is set, or a PAD_EN or PAD field on a command other than ENC_CFG and DEC_CFG. -/
  | reservedBits
  deriving DecidableEq, Repr

/-- `w[3:0]`. -/
def opField (w : Word) : BitVec 4 := w.extractLsb' 0 4

/-- `w[8]`. -/
def padEnField (w : Word) : Bool := w.getLsbD 8

/-- `w[23:16]`. -/
def padField (w : Word) : Byte := w.extractLsb' 16 8

/-- The bits of a CFG word that R107 tests: all but `OP`, PAD_EN and PAD. -/
def cfgReserved : Word := 0xFF00FEF0

/-- The pad a CFG word carries: the PAD field when PAD_EN = 1, else 0x00 (R104, R106). -/
def cfgPad (w : Word) : Byte := if padEnField w then padField w else 0

/-- A CFG word, once `OP` has chosen the command: `op` is ENC_CFG or DEC_CFG (R107). -/
def decodeCfg (op : Bool → Byte → Instr) (w : Word) : Except Illegal Instr :=
  if w &&& cfgReserved ≠ 0 then .error .reservedBits else .ok (op (padEnField w) (cfgPad w))

/-- A word of a command with no fields, once `OP` has chosen it: `w[31:4]` must be 0 (R107). -/
def decodePlain (i : Instr) (w : Word) : Except Illegal Instr :=
  if w.extractLsb' 4 28 ≠ 0 then .error .reservedBits else .ok i

/-- The decoder (R107): every word is one of the seven commands or illegal. -/
def decodeWord (w : Word) : Except Illegal Instr :=
  match (opField w).toNat with
  | 1 => decodeCfg .encCfg w
  | 2 => decodeCfg .decCfg w
  | 3 => decodePlain .encSize w
  | 4 => decodePlain .encode w
  | 5 => decodePlain .decSizeUb w
  | 6 => decodePlain .decSizeSlice w
  | 7 => decodePlain .decode w
  | _ => .error .reservedOp

/-- The fields of a CFG word put in their places (R101): `(pad << 16) | (padEn << 8) | op`. -/
def encodeCfg (op : Word) (padEn : Bool) (pad : Byte) : Word :=
  (pad.setWidth 32 <<< 16) ||| (if padEn then 0x100 else 0) ||| op

/-- The encoder (R102, R109). -/
def encodeInstr : Instr → Word
  | .encCfg padEn pad => encodeCfg 1 padEn pad
  | .decCfg padEn pad => encodeCfg 2 padEn pad
  | .encSize => 3
  | .encode => 4
  | .decSizeUb => 5
  | .decSizeSlice => 6
  | .decode => 7

/-- The first `nbits` bits of `w` as a command word; the bits above are 0. -/
def tableWord (nbits w : Nat) : Word := BitVec.ofNat 32 (w % 2 ^ nbits)

/-- What the decoder reads from a word numbered as spec/opcode_table.json numbers it (bit 0 the least significant bit). -/
def decodeTableWord (nbits w : Nat) : Option Instr := (decodeWord (tableWord nbits w)).toOption

end Sys2Proof
end

