-- ==== Sys2Proof/Config.lean ====
section
/-! DEFINITION. The block's fixed numbers (00_scope.md R8, 10_state.md R38) and the free values (93_implementation_defined.md,
treatment "any value"). The open parameters `REG_BASE` and `MEM_ORDINARY` are plain data in `State.platform` (log 4);
`LATENCY` is carried by the schedule in `State.inputs` (log 7). -/
namespace Sys2Proof.Config

/-- The number of byte addresses of the memory space, `2 ^ ADDR_W`. -/
abbrev addrSpace : Nat := 4294967296

/-- The largest value a length or size register holds, `2 ^ LEN_W - 1` (R11). -/
abbrev maxLen : Nat := 4294967295

/-- The symbols of an alphabet (`ALPHA_N`), which is also what `SRC_LEN` must be for ENC_CFG and DEC_CFG. -/
abbrev alphaN : Nat := 32

/-- The bytes of the register window (10_state.md R38). -/
abbrev windowBytes : Nat := 36

/-- FREE VALUE (DESIGN CHOICE, log 3): a byte the spec leaves unspecified, one per draw. Nothing constrains it. -/
opaque freeByte : Nat → Byte

/-- FREE VALUE (DESIGN CHOICE, log 3): an inverse-table entry the spec leaves unspecified, one per draw. -/
opaque freeEntry : Nat → Option Index

end Sys2Proof.Config
end

