-- ==== Sys2Proof/Machine/State.lean ====
section
/-! DEFINITION. The machine's state as plain data (10_state.md R30 to R47), the reasons a step stops, and the state after
reset. INVENTORY.md lists every field with its rule and its reset value. -/
namespace Sys2Proof.Machine

/-- The host's memory: (address, byte) pairs, addresses strictly rising, no byte equal to what an unlisted address reads as
(0x00, DESIGN CHOICE, log 1). `Memory.wf` in Machine/Ops.lean states the form. -/
abbrev Memory := List Host.Cell

/-- `region(base, len)`: the byte addresses `base + k`, `0 <= k < len`, computed without wrap (00_scope.md R15). -/
structure Region where
  base : Nat
  len : Nat
  deriving DecidableEq, Repr

/-- The platform's parameters (00_scope.md R9, 20_memory.md R79), fixed for the machine: no step writes them.
`MEM_ORDINARY` holds of an address exactly when no region of `notOrdinary` has it. -/
structure Platform where
  regBase : Word
  notOrdinary : List Region
  deriving DecidableEq, Repr

/-- The completion codes (60_exceptions.md R241); a reserved code is never produced. `Err.code` gives the numbers. -/
inductive Err where
  | none
  | invalidCharacter
  | invalidPadding
  | illegalCommand
  | notConfigured
  | configInvalid
  | contract
  | sizeOverflow
  deriving DecidableEq, Repr

/-- The phases of a DECODE (10_state.md R45). -/
inductive Phase where
  | reading5BitSymbols
  | validatingPaddingTail
  | done
  deriving DecidableEq, Repr

/-- What the engine holds while a command is in progress (10_state.md R44, R45): the latched word and operands, and the
position of the pipelines. -/
structure Engine where
  cmd : Word
  srcAddr : Word
  srcLen : Word
  dstAddr : Word
  dstLen : Word
  acc : Acc
  cnt : Count
  i : Word
  o : Word
  padAt : Option Word
  phase : Phase
  deriving DecidableEq, Repr

/-- The words of the register window (10_state.md R38). -/
inductive Reg where
  | cmd
  | status
  | result
  | srcAddr
  | srcLen
  | dstAddr
  | dstLen
  | cfgstat
  | reserved
  deriving DecidableEq, Repr

/-- A host access to the register window or near it: a bus address, a width in bytes, and the data of a write. -/
structure BusAccess where
  addr : Word
  bytes : Nat
  write : Option Word
  deriving DecidableEq, Repr

/-- Who accesses the memory beside the block (70_reset_and_hazards.md R277 cases 1 and 4). -/
inductive Master where
  | host
  | other
  deriving DecidableEq, Repr

/-- What the world outside the block does next, and when the engine takes its turn (00_scope.md R19; log 6). -/
inductive Input where
  /-- A host access to the register window (30_encoding.md R108). -/
  | access (a : BusAccess)
  /-- The host's `poll` loop (R109): `busyReads` more reads see `BUSY = 1` before the command completes (LATENCY, log 7). -/
  | poll (busyReads : Nat)
  /-- A byte load (`write` is `none`) or a byte store of memory by the host or by another bus master. -/
  | memory (m : Master) (addr : Word) (write : Option Byte)
  /-- The engine runs one iteration of the command's loop (10_state.md R44, R45). -/
  | advance
  /-- The engine runs the command to its completion (20_memory.md R81). -/
  | complete
  /-- The platform asserts reset (70_reset_and_hazards.md R270, R272). -/
  | assertReset
  /-- The platform releases reset (R270). -/
  | releaseReset
  deriving DecidableEq, Repr

/-- A value a read of the host returned (30_encoding.md R108: "the value read is recorded"). -/
inductive Seen where
  | reg (r : Reg) (v : Word)
  | byte (addr : Word) (v : Byte)
  deriving DecidableEq, Repr

/-- The machine. The first group is the block's own state (10_state.md R30), `engine` its in-progress state (`BUSY = 1`
exactly while it exists, R30 case 4, R35), the rest what its steps take from outside, and the model's own counter of free values. -/
structure State where
  result : Word
  srcAddr : Word
  srcLen : Word
  dstAddr : Word
  dstLen : Word
  done : Bool
  fault : Bool
  ovr : Bool
  err : Err
  encAlpha : Alphabet
  encPadEn : Bool
  encPad : Byte
  encValid : Bool
  decInv : Inverse
  decPadEn : Bool
  decPad : Byte
  decValid : Bool
  engine : Option Engine
  mem : Memory
  inReset : Bool
  platform : Platform
  inputs : List Input
  seen : List Seen
  drawn : Nat
  deriving DecidableEq, Repr

/-- Why the machine stops: a host action outside the contract, to which the spec gives no effect and which a model marks as a
fault of the host program (70_reset_and_hazards.md R277). Each is safe: the model stops where a real block might go on. -/
inductive Fault where
  /-- R277 case 2, 10_state.md R39: a register access that is narrower or wider than 32 bits, misaligned, or straddling the
  window's end. Raised by a host access. Safe. -/
  | registerAccess
  /-- R277 case 1: the host reads or writes a byte of a running command's regions. Raised by a host memory access. Safe. -/
  | hostInRegion
  /-- R277 case 4: another bus master accesses those regions. Raised by its memory access. Safe. -/
  | masterInRegion
  /-- R277 case 3, 20_memory.md R75: a command whose source or destination region is not ordinary memory. Raised by the CMD write
  that issues it, and by the five commands that have a region where no such write came before. Safe. -/
  | notOrdinary
  deriving DecidableEq, Repr

/-- Why the model gives no meaning. -/
inductive Refusal where
  /-- An instruction with no meaning yet; raised by `exec`'s arms only. Safe. No arm raises it now. -/
  | notModelled (mnemonic : String)
  /-- The host or another master accesses an address that is not ordinary memory: a device of the platform, whose behaviour
  the spec does not give (20_memory.md R75, R79). Raised by a memory access from outside the block, never by a command. Safe. -/
  | platformDevice
  deriving DecidableEq, Repr

/-- The machine right after reset (10_state.md R47, 70_reset_and_hazards.md R270, R271): every register 0, both units
unconfigured, no command in progress. DESIGN CHOICE where the spec gives no value: the tables (log 2), the platform (log 4),
the memory's contents (log 1), no input (log 6), nothing seen (log 15), no free value drawn (log 3). -/
def State.reset : State where
  result := 0
  srcAddr := 0
  srcLen := 0
  dstAddr := 0
  dstLen := 0
  done := false
  fault := false
  ovr := false
  err := .none
  encAlpha := Vector.replicate 32 0
  encPadEn := false
  encPad := 0
  encValid := false
  decInv := Vector.replicate 256 none
  decPadEn := false
  decPad := 0
  decValid := false
  engine := none
  mem := []
  inReset := false
  platform := { regBase := 0, notOrdinary := [] }
  inputs := []
  seen := []
  drawn := 0

end Sys2Proof.Machine
end

