-- ==== Sys2Proof/Machine/Flags.lean ====
section
/-! DEFINITION. The fields the host reads: the completion codes' numbers and class (60_exceptions.md R241), the STATUS word
(10_state.md R35, R36) and the CFGSTAT word (R37), computed from their one home in the state. -/
namespace Sys2Proof.Machine

/-- The number of a completion code (R241). -/
def Err.code : Err → BitVec 4
  | .none => 0x0
  | .invalidCharacter => 0x1
  | .invalidPadding => 0x2
  | .illegalCommand => 0x8
  | .notConfigured => 0x9
  | .configInvalid => 0xA
  | .contract => 0xB
  | .sizeOverflow => 0xC

/-- A code is fault class exactly when `ERR[3] = 1` (R241). -/
def Err.isFault (k : Err) : Bool := k.code.getLsbD 3

/-- `STATUS.BUSY`: a command is in progress exactly while the engine's record exists (10_state.md R30, R35, R44). -/
def State.busy (s : State) : Bool := s.engine.isSome

/-- One bit at position `k` of a word. -/
def bitAt (b : Bool) (k : Nat) : Word := if b then (1 : Word) <<< k else 0

/-- STATUS (R35): BUSY 0, DONE 1, FAULT 2, OVR 3, ERR 11:8, the rest 0. -/
def State.statusWord (s : State) : Word :=
  bitAt s.busy 0 ||| bitAt s.done 1 ||| bitAt s.fault 2 ||| bitAt s.ovr 3 ||| (s.err.code.setWidth 32 <<< 8)

/-- CFGSTAT (R37): the encoder in bits 15:0, the decoder in bits 31:16; VALID, PAD_EN, six zero bits, PAD. -/
def State.cfgstatWord (s : State) : Word :=
  bitAt s.encValid 0 ||| bitAt s.encPadEn 1 ||| (s.encPad.setWidth 32 <<< 8)
    ||| bitAt s.decValid 16 ||| bitAt s.decPadEn 17 ||| (s.decPad.setWidth 32 <<< 24)

end Sys2Proof.Machine
end

