-- ==== Sys2Proof/Machine/Ops.lean ====
section
/-! DEFINITION. The named operations: memory (20_memory.md R70 to R72), free values (93_implementation_defined.md), issuing a
command (30_encoding.md R107) and the three ways a command ends (60_exceptions.md R240 to R244). The block has no trap entry and
no return from one (R248, R249): `raise` is the whole of taking an error or a fault. -/
namespace Sys2Proof.Machine

/-! ### Memory -/

/-- What an unlisted address reads as (DESIGN CHOICE, log 1; 95_test_vectors.md: "Every memory byte not stated is 0x00"). -/
def Memory.unlisted : Byte := 0

/-- `MemRead(a, 1)` (R13). -/
def Memory.read : Memory → Nat → Byte
  | [], _ => Memory.unlisted
  | (k, v) :: rest, a => if k = a then v else Memory.read rest a

/-- `MemWrite(a, 1, v)` (R13), keeping the canonical form. -/
def Memory.write : Memory → Nat → Byte → Memory
  | [], a, v => if v = Memory.unlisted then [] else [(a, v)]
  | (k, w) :: rest, a, v =>
    if k < a then (k, w) :: Memory.write rest a v
    else
      let tail := if k = a then rest else (k, w) :: rest
      if v = Memory.unlisted then tail else (a, v) :: tail

/-- The canonical form from address `lo` on: addresses strictly rising and inside the address space, no listed byte equal to
what an unlisted address reads as. -/
def Memory.wfFrom : Nat → Memory → Bool
  | _, [] => true
  | lo, (k, v) :: rest =>
    decide (lo ≤ k) && decide (k < Config.addrSpace) && (v != Memory.unlisted) && Memory.wfFrom (k + 1) rest

/-- The canonical form of a memory. -/
def Memory.wf (m : Memory) : Bool := Memory.wfFrom 0 m

/-- The bytes at `a, a + 1, …, a + n - 1`, in increasing address order. -/
def Memory.bytes (m : Memory) (a : Nat) : Nat → List Byte
  | 0 => []
  | n + 1 => m.read a :: Memory.bytes m (a + 1) n

/-! ### Free values (log 3) -/

/-- `n` bytes from `a` on take free values, the first of them draw number `k`. -/
def Memory.scramble (m : Memory) (a k : Nat) : Nat → Memory
  | 0 => m
  | n + 1 => (Memory.scramble m a k n).write (a + n) (Config.freeByte (k + n))

/-- The addresses of a region that exist (a region is computed without wrap, R15, and may run past the address space). -/
def Region.clippedLen (r : Region) : Nat := min r.len (Config.addrSpace - r.base)

/-- Every byte of a region becomes unspecified (42_decoder.md R199, 70_reset_and_hazards.md R272). -/
def State.scramble (r : Region) (s : State) : State :=
  { s with mem := s.mem.scramble r.base s.drawn r.clippedLen, drawn := s.drawn + r.clippedLen }

/-- An `ENC_ALPHA` with unspecified contents (40_configuration.md R133, 10_state.md R47). -/
@[irreducible] def freeAlphabet (k : Nat) : Alphabet := Vector.ofFn fun i => Config.freeByte (k + i.val)

/-- A `DEC_INV` with unspecified contents (R134, R47). -/
@[irreducible] def freeInverse (k : Nat) : Inverse := Vector.ofFn fun b => Config.freeEntry (k + b.val)

/-! ### Issue -/

/-- What the engine holds when the command `w` starts (10_state.md R44): the operand registers as they stand, the pipelines
at 0. -/
def State.latch (s : State) (w : Word) : Engine where
  cmd := w
  srcAddr := s.srcAddr
  srcLen := s.srcLen
  dstAddr := s.dstAddr
  dstLen := s.dstLen
  acc := 0
  cnt := 0
  i := 0
  o := 0
  padAt := none
  phase := .reading5BitSymbols

/-- Issue of the command word `w` (30_encoding.md R107): BUSY <- 1, DONE <- 0, ERR <- NONE, the operands latched. -/
def State.issue (w : Word) (s : State) : State :=
  { s with engine := some (s.latch w), done := false, err := .none }

/-- The command in progress. Where none is (no step runs a meaning then, log 8), the operands are those an issue would latch. -/
def State.running (s : State) : Engine := s.engine.getD (s.latch 0)

/-! ### Completion -/

/-- `complete(v)` (60_exceptions.md R242). -/
def State.complete (v : Word) (s : State) : State :=
  { s with result := v, err := .none, done := true, engine := none }

/-- `raise Error(kind)` (R243). -/
def State.raiseError (k : Err) (s : State) : State :=
  { s with result := 0, err := k, done := true, engine := none }

/-- `raise Fault(kind)` (R244): as an error, and the sticky FAULT. -/
def State.raiseFault (k : Err) (s : State) : State :=
  { s with result := 0, err := k, fault := true, done := true, engine := none }

/-- The end of a command in the condition `k`, by the class of its code (R240, R241). -/
def State.raise (k : Err) (s : State) : State := if k.isFault then s.raiseFault k else s.raiseError k

/-! ### The pipelines' working pair -/

/-- The engine's fields and the memory, which the loops of ENCODE and DECODE move along together. -/
structure Pipe where
  eng : Engine
  mem : Memory
  deriving DecidableEq, Repr

/-- The pipeline of a state whose running command's engine is `e`. -/
def State.withPipe (p : Pipe) (s : State) : State := { s with engine := some p.eng, mem := p.mem }

/-- `MemWrite(DST_ADDR + o, 1, v) ; o <- o + 1` (41_encoder.md R166, 42_decoder.md section 1). The address is a 32-bit word: it
never wraps on a well-formed region (20_memory.md R77, log 20). -/
def Pipe.put (v : Byte) (p : Pipe) : Pipe where
  eng := { p.eng with o := p.eng.o + 1 }
  mem := p.mem.write (p.eng.dstAddr + p.eng.o).toNat v

/-- `MemRead(SRC_ADDR + i, 1)`. -/
def Pipe.sourceByte (p : Pipe) : Byte := p.mem.read (p.eng.srcAddr + p.eng.i).toNat

end Sys2Proof.Machine
end

