-- ==== Sys2Proof/Machine/Operands.lean ====
section
/-! DEFINITION. The operand forms (30_encoding.md R104, 00_scope.md R15, 20_memory.md R77): the pad policy of a CFG word, and a
command's source and destination regions with the checks made on them. -/
namespace Sys2Proof.Machine

/-- The pad a CFG command loads: `p' <- (pe = 1) ? p : 0x00` (R104, R133). -/
def padOperand (padEn : Bool) (pad : Byte) : Byte := if padEn then pad else 0

/-- The source region of ENC_CFG and DEC_CFG, `region(SRC_ADDR, 32)` (R77). -/
def Engine.alphabetRegion (e : Engine) : Region := ⟨e.srcAddr.toNat, Config.alphaN⟩

/-- `region(SRC_ADDR, SRC_LEN)`. -/
def Engine.source (e : Engine) : Region := ⟨e.srcAddr.toNat, e.srcLen.toNat⟩

/-- `region(DST_ADDR, DST_LEN)`. -/
def Engine.destination (e : Engine) : Region := ⟨e.dstAddr.toNat, e.dstLen.toNat⟩

/-- A region that holds no address. -/
def Region.empty : Region := ⟨0, 0⟩

/-- The region a command reads (R71, R77). -/
def Engine.sourceOf (e : Engine) : Instr → Region
  | .encCfg _ _ => e.alphabetRegion
  | .decCfg _ _ => e.alphabetRegion
  | .encSize => .empty
  | .encode => e.source
  | .decSizeUb => .empty
  | .decSizeSlice => e.source
  | .decode => e.source

/-- The region a command writes (R71, R78); `Engine.destination` is `region(DST_ADDR, DST_LEN)`, whichever command it is. -/
def Engine.destinationOf (e : Engine) : Instr → Region
  | .encCfg _ _ => .empty
  | .decCfg _ _ => .empty
  | .encSize => .empty
  | .encode => e.destination
  | .decSizeUb => .empty
  | .decSizeSlice => .empty
  | .decode => e.destination

/-- The address is one of the region's (R15). -/
def Region.has (r : Region) (a : Nat) : Bool := decide (r.base ≤ a) && decide (a < r.base + r.len)

/-- A region is well-formed exactly when it does not run past the address space (R15). -/
def Region.wellformed (r : Region) : Bool := decide (r.base + r.len ≤ Config.addrSpace)

/-- Two regions overlap when they share an address, so an empty one overlaps nothing (R15). -/
def Region.overlaps (r q : Region) : Bool :=
  decide (0 < r.len) && decide (0 < q.len) && decide (r.base < q.base + q.len) && decide (q.base < r.base + r.len)

/-- `MEM_ORDINARY` (20_memory.md R79). -/
def Platform.ordinaryAt (p : Platform) (a : Nat) : Bool := p.notOrdinary.all fun r => !r.has a

/-- Every address of the region is ordinary memory (R75). -/
def Platform.ordinary (p : Platform) (r : Region) : Bool := p.notOrdinary.all fun q => !r.overlaps q

/-- The regions of the command `i` are ordinary memory: the host's duty (R75, 70_reset_and_hazards.md R277 case 3, log 9). -/
def State.regionsOrdinary (s : State) (i : Instr) : Bool :=
  s.platform.ordinary (s.running.sourceOf i) && s.platform.ordinary (s.running.destinationOf i)

/-- The regions of ENCODE and DECODE are well-formed and share no address (R77). -/
def Engine.regionsOk (e : Engine) : Bool :=
  e.source.wellformed && e.destination.wellformed && !e.source.overlaps e.destination

/-- The instruction whose word the engine has latched, if it is legal. -/
def Engine.instr? (e : Engine) : Option Instr := (decodeWord e.cmd).toOption

/-- The source region of the command in progress; an illegal word has none (log 10). -/
def Engine.sourceRegion (e : Engine) : Region := (e.instr?.map e.sourceOf).getD .empty

/-- The address is closed to everyone outside while the command is in progress: a byte of its source region, or of its
`region(DST_ADDR, DST_LEN)`, whichever command it is (70_reset_and_hazards.md R277 cases 1 and 4, log 10). -/
def State.inCommandRegion (s : State) (a : Nat) : Bool :=
  match s.engine with
  | none => false
  | some e => e.sourceRegion.has a || e.destination.has a

end Sys2Proof.Machine
end

