-- ==== Sys2Proof/Machine/Decoder.lean ====
section
/-! DEFINITION. The decoder commands DEC_SIZE_UB, DEC_SIZE_SLICE and DECODE (42_decoder.md R190 to R199). -/
namespace Sys2Proof.Machine

/-- `dec_ub(n, pe)` (R190). -/
def decUb (n : Nat) (padEn : Bool) : Except Err Nat :=
  let q := n / 8
  if padEn then
    if n % 8 = 0 then .ok (5 * q) else .error .invalidPadding
  else
    match n % 8 with
    | 0 => .ok (5 * q)
    | 2 => .ok (5 * q + 1)
    | 4 => .ok (5 * q + 2)
    | 5 => .ok (5 * q + 3)
    | 7 => .ok (5 * q + 4)
    | _ => .error .invalidPadding

/-- How many of the `n` source bytes at `a` are trailing pads: reads `S[n-1], S[n-2], …` downward and stops at the first byte
that is not `pad`, or after `S[0]` (R192). -/
def Memory.trailingPads (m : Memory) (a : Word) (pad : Byte) : Nat → Nat
  | 0 => 0
  | j + 1 => if m.read (a + BitVec.ofNat 32 j).toNat = pad then Memory.trailingPads m a pad j + 1 else 0

/-- The byte-count reduction of `k` trailing pads (R192). -/
def padReduction : Nat → Option Nat
  | 0 => some 0
  | 1 => some 1
  | 3 => some 2
  | 4 => some 3
  | 6 => some 4
  | _ => none

/-- `dec_slice(S, n, pe, p)` (R192) for the source at `a`. -/
def Memory.decSlice (m : Memory) (a : Word) (n : Nat) (padEn : Bool) (pad : Byte) : Except Err Nat :=
  match decUb n padEn with
  | .error k => .error k
  | .ok u =>
    if padEn then
      match padReduction (m.trailingPads a pad n) with
      | some d => .ok (u - d)
      | none => .error .invalidPadding
    else .ok u

/-- DEC_SIZE_UB (R196). -/
def execDecSizeUb (s : State) : Host.Outcome State Fault Refusal :=
  if !s.decValid then .next (s.raise .notConfigured)
  else
    match decUb s.running.srcLen.toNat s.decPadEn with
    | .error k => .next (s.raise k)
    | .ok u => .next (s.complete (BitVec.ofNat 32 u))

/-- DEC_SIZE_SLICE (R197). -/
def execDecSizeSlice (s : State) : Host.Outcome State Fault Refusal :=
  let e := s.running
  if !s.regionsOrdinary .decSizeSlice then .fault .notOrdinary
  else if !s.decValid then .next (s.raise .notConfigured)
  else if !e.source.wellformed then .next (s.raise .contract)
  else
    match s.mem.decSlice e.srcAddr e.srcLen.toNat s.decPadEn s.decPad with
    | .error k => .next (s.raise k)
    | .ok m => .next (s.complete (BitVec.ofNat 32 m))

/-! ### The bit-unpack pipeline (R193 to R195) on the engine's registers -/

/-- `(acc >> cnt)[7:0]`: the top 8 of the `cnt + 8` valid bits (R193). -/
def topByte (acc : Acc) (cnt : Count) : Byte := (acc >>> cnt.toNat).extractLsb' 0 8

/-- One symbol folded into the accumulator, and the byte it completes written (R193). -/
def Pipe.foldSymbol (x : Index) (p : Pipe) : Pipe :=
  let acc := (p.eng.acc <<< 5) ||| x.setWidth 12
  let cnt := p.eng.cnt + 5
  let e := { p.eng with acc := acc, i := p.eng.i + 1 }
  if 8 ≤ cnt.toNat then Pipe.put (topByte acc (cnt - 8)) { p with eng := { e with cnt := cnt - 8 } }
  else { p with eng := { e with cnt := cnt } }

/-- The first pad byte met: `padAt <- some(i)`, on to ValidatingPaddingTail (R193, 10_state.md R45). -/
def Pipe.enterTail (p : Pipe) : Pipe :=
  { p with eng := { p.eng with padAt := some p.eng.i, phase := .validatingPaddingTail } }

/-- `unpack`'s loop (R193): `k` source bytes are left. -/
def Pipe.readSymbols (inv : Inverse) (padEn : Bool) (pad : Byte) : Nat → Pipe → Except Err Pipe
  | 0, p => .ok p
  | k + 1, p =>
    match inv.get p.sourceByte.toFin with
    | some x => Pipe.readSymbols inv padEn pad k (p.foldSymbol x)
    | none => if padEn && p.sourceByte == pad then .ok p.enterTail else .error .invalidCharacter

/-- The leftover check passes (R194, 90_conflicts.md C2): at most 4 bits remain and they are all zero. -/
def Engine.leftoverOk (e : Engine) : Bool :=
  decide (e.cnt.toNat ≤ 4) && (e.acc &&& (((1 : Acc) <<< e.cnt.toNat) - 1)) == 0

/-- The pad bytes a leftover bit count needs (R195). -/
def padNeed (cnt : Count) : Option Nat :=
  match cnt.toNat with
  | 2 => some 6
  | 4 => some 4
  | 1 => some 3
  | 3 => some 1
  | _ => none

/-- A byte of the padding tail that is not the pad (R195, 90_conflicts.md C1): a symbol is out of place, anything else is no
character of the alphabet. -/
def tailError (inv : Inverse) (c : Byte) : Err :=
  match inv.get c.toFin with
  | none => .invalidCharacter
  | some _ => .invalidPadding

/-- The tail's bytes from index `j` on, `k` of them, each the pad (R195): the first violation, if any. -/
def Memory.tailCheck (m : Memory) (a : Word) (inv : Inverse) (pad : Byte) : Nat → Word → Except Err Unit
  | 0, _ => .ok ()
  | k + 1, j =>
    let c := m.read (a + j).toNat
    if c = pad then Memory.tailCheck m a inv pad k (j + 1) else .error (tailError inv c)

/-- The leftover check and, where a pad byte was met, the padding-tail check (R194, R195). -/
def Pipe.checkTail (inv : Inverse) (pad : Byte) (p : Pipe) : Except Err Pipe :=
  let e := p.eng
  if !e.leftoverOk then .error .invalidPadding
  else
    match e.padAt with
    | none => .ok p
    | some at_ =>
      match padNeed e.cnt with
      | none => .error .invalidPadding
      | some need =>
        match p.mem.tailCheck e.srcAddr inv pad (e.srcLen.toNat - e.i.toNat) e.i with
        | .error k => .error k
        | .ok () => if e.srcLen.toNat - at_.toNat ≠ need then .error .invalidPadding else .ok p

/-- `unpack` from where the pipeline stands (R193 to R195), by its phase (10_state.md R45). -/
def Pipe.unpackRest (inv : Inverse) (padEn : Bool) (pad : Byte) (p : Pipe) : Except Err Pipe :=
  match p.eng.phase with
  | .reading5BitSymbols =>
    match p.readSymbols inv padEn pad (p.eng.srcLen.toNat - p.eng.i.toNat) with
    | .error k => .error k
    | .ok q => q.checkTail inv pad
  | .validatingPaddingTail => p.checkTail inv pad
  | .done => .ok p

/-- DECODE's checks in order (R198, 60_exceptions.md R245): the exact size, or the error or fault. -/
def State.decodeChecks (s : State) (e : Engine) : Except Err Nat :=
  if !s.decValid then .error .notConfigured
  else if !e.regionsOk then .error .contract
  else if s.decPadEn && e.srcLen.toNat % 8 != 0 then .error .invalidPadding
  else
    match s.mem.decSlice e.srcAddr e.srcLen.toNat s.decPadEn s.decPad with
    | .error k => .error k
    | .ok m => if e.dstLen.toNat ≠ m then .error .contract else .ok m

/-- DECODE (R198). After an error inside `unpack` every byte of the destination region is a free value (R199). -/
def execDecode (s : State) : Host.Outcome State Fault Refusal :=
  let e := s.running
  if !s.regionsOrdinary .decode then .fault .notOrdinary
  else
    match s.decodeChecks e with
    | .error k => .next (s.raise k)
    | .ok m =>
      match Pipe.unpackRest s.decInv s.decPadEn s.decPad ⟨e, s.mem⟩ with
      | .error k => .next ((s.scramble e.destination).raise k)
      | .ok p => .next (State.complete (BitVec.ofNat 32 m) { s with mem := p.mem })

end Sys2Proof.Machine
end

