-- ==== Sys2Proof/Machine/Encoder.lean ====
section
/-! DEFINITION. The encoder commands ENC_SIZE and ENCODE (41_encoder.md R160 to R166). -/
namespace Sys2Proof.Machine

/-- `enc_size(n, pe)` (R160), exact on natural numbers. -/
def encSize (n : Nat) (padEn : Bool) : Nat := if padEn then (n + 4) / 5 * 8 else (n * 8 + 4) / 5

/-- ENC_SIZE (R165). -/
def execEncSize (s : State) : Host.Outcome State Fault Refusal :=
  let size := encSize s.running.srcLen.toNat s.encPadEn
  if !s.encValid then .next (s.raise .notConfigured)
  else if size > Config.maxLen then .next (s.raise .sizeOverflow)
  else .next (s.complete (BitVec.ofNat 32 size))

/-! ### The bit-pack pipeline (R162 to R164) on the engine's registers -/

/-- `(acc >> cnt)[4:0]`: the top 5 of the `cnt + 5` valid bits (R162). -/
def topGroup (acc : Acc) (cnt : Count) : Index := (acc >>> cnt.toNat).extractLsb' 0 5

/-- `(acc << (5 - cnt))[4:0]`: the leftover bits moved to the top of a group, zeros below (R163, 90_conflicts.md C3). -/
def leftoverGroup (acc : Acc) (cnt : Count) : Index := (acc <<< (5 - cnt.toNat)).extractLsb' 0 5

/-- `while cnt >= 5`: take 5 bits and write their symbol. A 4-bit count holds at most three groups, so three rounds are all. -/
def Pipe.emitGroups (A : Alphabet) : Nat → Pipe → Pipe
  | 0, p => p
  | k + 1, p =>
    if 5 ≤ p.eng.cnt.toNat then
      let cnt := p.eng.cnt - 5
      Pipe.emitGroups A k (Pipe.put (A.get (topGroup p.eng.acc cnt).toFin) { p with eng := { p.eng with cnt := cnt } })
    else p

/-- One round of ENCODE's loop over the source: `acc <- (acc << 8) | byte`, `cnt <- cnt + 8`, then the symbols it completes. -/
def Pipe.encodeByte (A : Alphabet) (p : Pipe) : Pipe :=
  let acc := (p.eng.acc <<< 8) ||| p.sourceByte.setWidth 12
  Pipe.emitGroups A 3 { p with eng := { p.eng with acc := acc, cnt := p.eng.cnt + 8, i := p.eng.i + 1 } }

/-- `k` rounds of that loop. -/
def Pipe.encodeBytes (A : Alphabet) : Nat → Pipe → Pipe
  | 0, p => p
  | k + 1, p => Pipe.encodeBytes A k (Pipe.encodeByte A p)

/-- The leftover partial group (R163). -/
def Pipe.encodeLeftover (A : Alphabet) (p : Pipe) : Pipe :=
  if p.eng.cnt = 0 then p else p.put (A.get (leftoverGroup p.eng.acc p.eng.cnt).toFin)

/-- Pad fill (R164): `k` pad bytes. -/
def Pipe.padFill (pad : Byte) : Nat → Pipe → Pipe
  | 0, p => p
  | k + 1, p => Pipe.padFill pad k (p.put pad)

/-- ENCODE's pseudocode from its loop on (R166): the source bytes not yet read, the leftover, and the pad up to `len`. -/
def Pipe.encodeRest (A : Alphabet) (padEn : Bool) (pad : Byte) (len : Nat) (p : Pipe) : Pipe :=
  let p := p.encodeBytes A (p.eng.srcLen.toNat - p.eng.i.toNat)
  let p := p.encodeLeftover A
  if padEn then p.padFill pad (len - p.eng.o.toNat) else p

/-- ENCODE's checks in order (R166, 60_exceptions.md R245): the output length, or the fault. -/
def State.encodeChecks (s : State) (e : Engine) : Except Err Nat :=
  let len := encSize e.srcLen.toNat s.encPadEn
  if !s.encValid then .error .notConfigured
  else if len > Config.maxLen then .error .sizeOverflow
  else if !e.regionsOk then .error .contract
  else if e.dstLen.toNat < len then .error .contract
  else .ok len

/-- ENCODE (R166). -/
def execEncode (s : State) : Host.Outcome State Fault Refusal :=
  let e := s.running
  if !s.regionsOrdinary .encode then .fault .notOrdinary
  else
    match s.encodeChecks e with
    | .error k => .next (s.raise k)
    | .ok len =>
      let p := Pipe.encodeRest s.encAlpha s.encPadEn s.encPad len ⟨e, s.mem⟩
      .next (State.complete (BitVec.ofNat 32 len) { s with mem := p.mem })

end Sys2Proof.Machine
end

