-- ==== Sys2Proof/Machine/Advance.lean ====
section
/-! DEFINITION. One iteration of a running command's loop (10_state.md R44, R45; 20_memory.md R76): how far the pipelines have
come stands in the engine's record between two steps. `none` says that no iteration is left, or that the command ends without
one: it is then run to its completion. The host cannot observe any of it (R44, R45), and a command may be taken as one
transition at completion (R76, R81): log 5. -/
namespace Sys2Proof.Machine

/-- An iteration of ENCODE's loop over the source (41_encoder.md R166). -/
def State.advanceEncode (e : Engine) (s : State) : Option State :=
  match s.encodeChecks e with
  | .error _ => none
  | .ok _ =>
    if s.regionsOrdinary .encode && decide (e.i.toNat < e.srcLen.toNat) then
      some (s.withPipe (Pipe.encodeByte s.encAlpha ⟨e, s.mem⟩))
    else none

/-- An iteration of `unpack` by its phase (42_decoder.md R193 to R195): a symbol folded, the pad byte met, a byte of the tail
found to be the pad, or the end of the input reached with every check passed. -/
def State.advanceUnpack (e : Engine) (s : State) : Option State :=
  let p : Pipe := ⟨e, s.mem⟩
  let more := decide (e.i.toNat < e.srcLen.toNat)
  match e.phase with
  | .reading5BitSymbols =>
    if more then
      match s.decInv.get p.sourceByte.toFin with
      | some x => some (s.withPipe (p.foldSymbol x))
      | none => if s.decPadEn && p.sourceByte == s.decPad then some (s.withPipe p.enterTail) else none
    else if e.leftoverOk && e.padAt.isNone then some (s.withPipe { p with eng := { e with phase := .done } })
    else none
  | .validatingPaddingTail =>
    if more then
      if p.sourceByte = s.decPad then some (s.withPipe { p with eng := { e with i := e.i + 1 } }) else none
    else
      match p.checkTail s.decInv s.decPad with
      | .error _ => none
      | .ok _ => some (s.withPipe { p with eng := { e with phase := .done } })
  | .done => none

/-- An iteration of DECODE. -/
def State.advanceDecode (e : Engine) (s : State) : Option State :=
  match s.decodeChecks e with
  | .error _ => none
  | .ok _ => if s.regionsOrdinary .decode then s.advanceUnpack e else none

/-- An iteration of the command in progress. Only ENCODE and DECODE have a pipeline (R44). -/
def State.advance (i : Instr) (e : Engine) (s : State) : Option State :=
  match i with
  | .encCfg _ _ => none
  | .decCfg _ _ => none
  | .encSize => none
  | .encode => s.advanceEncode e
  | .decSizeUb => none
  | .decSizeSlice => none
  | .decode => s.advanceDecode e

/-- `k` iterations of the command `i`, or as many as there are. -/
def State.advances (i : Instr) : Nat → State → State
  | 0, s => s
  | k + 1, s =>
    match s.engine with
    | none => s
    | some e =>
      match s.advance i e with
      | none => s
      | some t => State.advances i k t

end Sys2Proof.Machine
end

