-- ==== Sys2Proof/Machine/Configure.lean ====
section
/-! DEFINITION. The configuration commands ENC_CFG and DEC_CFG (40_configuration.md R130 to R137). -/
namespace Sys2Proof.Machine

/-- `for i in 0 .. 31: A[i] <- MemRead(SRC_ADDR + i, 1)` (R131, R133). -/
@[irreducible] def Memory.alphabet (m : Memory) (a : Word) : Alphabet :=
  Vector.ofFn fun i => m.read (a + BitVec.ofNat 32 i.val).toNat

/-- `alphabet_ok(A, pe, p)` (R130): no byte repeats, and a configured pad is not in the alphabet. -/
def alphabetOk (A : Alphabet) (padEn : Bool) (pad : Byte) : Bool :=
  decide A.toList.Nodup && (!padEn || decide (pad ∉ A.toList))

/-- `inverse(A)` (R132): `some i` at the byte `A[i]`, `none` at a byte that is not in the alphabet. -/
@[irreducible] def inverse (A : Alphabet) : Inverse :=
  Vector.ofFn fun b => (A.toList.findIdx? (fun c => c == BitVec.ofNat 8 b.val)).map (BitVec.ofNat 5)

/-- The encoder's configuration after a successful ENC_CFG (R133). -/
def State.setEncoder (A : Alphabet) (padEn : Bool) (pad : Byte) (s : State) : State :=
  { s with encAlpha := A, encPadEn := padEn, encPad := pad, encValid := true }

/-- The encoder unconfigured by a failed construction (R133, R135): `ENC_ALPHA` becomes unspecified, so 32 free values. -/
def State.clearEncoder (s : State) : State :=
  { s with encAlpha := freeAlphabet s.drawn, encPadEn := false, encPad := 0, encValid := false, drawn := s.drawn + 32 }

/-- The decoder's configuration after a successful DEC_CFG (R134). -/
def State.setDecoder (A : Alphabet) (padEn : Bool) (pad : Byte) (s : State) : State :=
  { s with decInv := inverse A, decPadEn := padEn, decPad := pad, decValid := true }

/-- The decoder unconfigured by a failed construction (R134, R135): `DEC_INV` becomes unspecified, so 256 free values. -/
def State.clearDecoder (s : State) : State :=
  { s with decInv := freeInverse s.drawn, decPadEn := false, decPad := 0, decValid := false, drawn := s.drawn + 256 }

/-- The first check of both CFG commands: SRC_LEN is 32 and `region(SRC_ADDR, 32)` does not wrap (R133, R134). -/
def Engine.cfgContractOk (e : Engine) : Bool := decide (e.srcLen.toNat = Config.alphaN) && e.alphabetRegion.wellformed

/-- ENC_CFG (R133). -/
def execEncCfg (padEn : Bool) (pad : Byte) (s : State) : Host.Outcome State Fault Refusal :=
  let e := s.running
  let A := s.mem.alphabet e.srcAddr
  let p := padOperand padEn pad
  if !s.regionsOrdinary (.encCfg padEn pad) then .fault .notOrdinary
  else if !e.cfgContractOk then .next (s.raise .contract)
  else if !alphabetOk A padEn p then .next (s.clearEncoder.raise .configInvalid)
  else .next ((s.setEncoder A padEn p).complete 0)

/-- DEC_CFG (R134). -/
def execDecCfg (padEn : Bool) (pad : Byte) (s : State) : Host.Outcome State Fault Refusal :=
  let e := s.running
  let A := s.mem.alphabet e.srcAddr
  let p := padOperand padEn pad
  if !s.regionsOrdinary (.decCfg padEn pad) then .fault .notOrdinary
  else if !e.cfgContractOk then .next (s.raise .contract)
  else if !alphabetOk A padEn p then .next (s.clearDecoder.raise .configInvalid)
  else .next ((s.setDecoder A padEn p).complete 0)

end Sys2Proof.Machine
end

