-- ==== Sys2Proof/Machine/Dispatch.lean ====
section
/-! DEFINITION. The instructions' meanings, one arm per command (30_encoding.md R107). -/
namespace Sys2Proof.Machine

def exec (i : Instr) (s : State) : Host.Outcome State Fault Refusal :=
  match i with
  | .encCfg padEn pad => Sys2Proof.Machine.execEncCfg padEn pad s
  | .decCfg padEn pad => Sys2Proof.Machine.execDecCfg padEn pad s
  | .encSize => Sys2Proof.Machine.execEncSize s
  | .encode => Sys2Proof.Machine.execEncode s
  | .decSizeUb => Sys2Proof.Machine.execDecSizeUb s
  | .decSizeSlice => Sys2Proof.Machine.execDecSizeSlice s
  | .decode => Sys2Proof.Machine.execDecode s

end Sys2Proof.Machine
end

