-- ==== Sys2Proof/Machine/HostAccess.lean ====
section
/-! DEFINITION. The host's side: the register window (10_state.md R31 to R39), the memory accesses of the host and of other
masters, and the reset input (70_reset_and_hazards.md R270 to R272, R276, R277). -/
namespace Sys2Proof.Machine

/-! ### The register map (R38) -/

/-- The byte offset of a register in the window. -/
def Reg.offset : Reg → Nat
  | .cmd => 0x00
  | .status => 0x04
  | .result => 0x08
  | .srcAddr => 0x0C
  | .srcLen => 0x10
  | .dstAddr => 0x14
  | .dstLen => 0x18
  | .cfgstat => 0x1C
  | .reserved => 0x20

/-- The register at an offset; one the map does not list reads 0 and ignores writes, as the reserved word does (R39). -/
def Reg.ofOffset (off : Nat) : Reg :=
  match off with
  | 0x00 => .cmd
  | 0x04 => .status
  | 0x08 => .result
  | 0x0C => .srcAddr
  | 0x10 => .srcLen
  | 0x14 => .dstAddr
  | 0x18 => .dstLen
  | 0x1C => .cfgstat
  | _ => .reserved

/-- What a read of a register answers (R31 to R39); 0 while reset is asserted (R270). Reads are allowed at any time (R276). -/
def State.readReg (s : State) (r : Reg) : Word :=
  if s.inReset then 0
  else
    match r with
    | .cmd => 0
    | .status => s.statusWord
    | .result => s.result
    | .srcAddr => s.srcAddr
    | .srcLen => s.srcLen
    | .dstAddr => s.dstAddr
    | .dstLen => s.dstLen
    | .cfgstat => s.cfgstatWord
    | .reserved => 0

/-- A write that finds a command in progress is dropped and sets OVR (R276). -/
def State.unlessBusy (s : State) (t : State) : State := if s.busy then { s with ovr := true } else t

/-- A host write of `v` to a register (R31, R34, R39, R276); no effect while reset is asserted (R270). -/
def State.writeReg (r : Reg) (v : Word) (s : State) : State :=
  if s.inReset then s
  else
    match r with
    | .cmd => s.unlessBusy (s.issue v)
    | .srcAddr => s.unlessBusy { s with srcAddr := v }
    | .srcLen => s.unlessBusy { s with srcLen := v }
    | .dstAddr => s.unlessBusy { s with dstAddr := v }
    | .dstLen => s.unlessBusy { s with dstLen := v }
    | .status => s
    | .result => s
    | .cfgstat => s
    | .reserved => s

/-- The value a host read returned is recorded (30_encoding.md R108). -/
def State.see (x : Seen) (s : State) : State := { s with seen := x :: s.seen }

/-! ### Accesses to the window -/

/-- The window of `REG_BASE` (R38). -/
def Platform.window (p : Platform) : Region := ⟨p.regBase.toNat, Config.windowBytes⟩

/-- The bytes an access touches. -/
def BusAccess.region (a : BusAccess) : Region := ⟨a.addr.toNat, a.bytes⟩

/-- The access is an aligned 32-bit one that lies in the window (R39, log 13). -/
def Platform.allows (p : Platform) (a : BusAccess) : Bool :=
  decide (a.bytes = 4) && decide (p.regBase.toNat ≤ a.addr.toNat)
    && decide (a.addr.toNat + 4 ≤ p.regBase.toNat + Config.windowBytes)
    && decide ((a.addr.toNat - p.regBase.toNat) % 4 = 0)

/-- The register an allowed access reaches. -/
def Platform.regAt (p : Platform) (a : BusAccess) : Reg := Reg.ofOffset (a.addr.toNat - p.regBase.toNat)

/-- An allowed access: a write reaches the register, a read is recorded. -/
def State.regAccess (r : Reg) (write : Option Word) (s : State) : State :=
  match write with
  | some v => s.writeReg r v
  | none => s.see (.reg r (s.readReg r))

/-- The access issues a command over a region that is not ordinary memory (20_memory.md R75, R277 case 3): a write to CMD that
is neither muted by reset nor dropped, of a legal word. -/
def State.issuesNotOrdinary (r : Reg) (write : Option Word) (s : State) : Bool :=
  match r, write with
  | .cmd, some w =>
    match decodeWord w with
    | .ok i => !s.inReset && !s.busy && !(s.issue w).regionsOrdinary i
    | .error _ => false
  | _, _ => false

/-- A host access on the bus (R39, R277 cases 2 and 3): one that touches no byte of the window is not routed to the block (log 13). -/
def State.hostAccess (a : BusAccess) (s : State) : Host.Outcome State Fault Refusal :=
  if s.platform.allows a then
    if s.issuesNotOrdinary (s.platform.regAt a) a.write then .fault .notOrdinary
    else .next (s.regAccess (s.platform.regAt a) a.write)
  else if a.region.overlaps s.platform.window then .fault .registerAccess
  else .next s

/-! ### Accesses to memory from outside the block -/

/-- The fault of an access to a running command's regions (R277 cases 1 and 4). -/
def Master.regionFault : Master → Fault
  | .host => .hostInRegion
  | .other => .masterInRegion

/-- The host's loads are recorded; another master's are its own affair. -/
def State.load (who : Master) (addr : Word) (s : State) : State :=
  match who with
  | .host => s.see (.byte addr (s.mem.read addr.toNat))
  | .other => s

/-- A byte load or store of ordinary memory by the host or another master (R277, 20_memory.md R81, log 15, log 18). -/
def State.memoryAccess (who : Master) (addr : Word) (write : Option Byte) (s : State) : Host.Outcome State Fault Refusal :=
  if s.inCommandRegion addr.toNat then .fault who.regionFault
  else if !s.platform.ordinaryAt addr.toNat then .refused .platformDevice
  else
    match write with
    | some v => .next { s with mem := s.mem.write addr.toNat v }
    | none => .next (s.load who addr)

/-! ### Reset -/

/-- The `region(DST_ADDR, DST_LEN)` of the command that reset cuts off, whichever command it is (R272, log 11). -/
def State.abandonedRegion (s : State) : Region := (s.engine.map Engine.destination).getD .empty

/-- Reset is asserted: a command in progress is abandoned and any byte of that region may hold any value (R272). -/
def State.assertReset (s : State) : State :=
  { s.scramble s.abandonedRegion with engine := none, inReset := true }

/-- Reset is released: every piece of the block's state takes its reset value (R270, 10_state.md R47); the tables' contents are
unspecified, so free values. The memory, the platform and the host's own record are not the block's. -/
def State.releaseReset (s : State) : State :=
  { State.reset with
    encAlpha := freeAlphabet s.drawn
    decInv := freeInverse (s.drawn + 32)
    drawn := s.drawn + 288
    mem := s.mem
    platform := s.platform
    inputs := s.inputs
    seen := s.seen }

end Sys2Proof.Machine
end

