-- ==== Sys2Proof/Machine/Run.lean ====
section
/-! DEFINITION. The agents' turns (00_scope.md R19): what the engine does with the command it has latched (30_encoding.md R107),
and the host's `poll` loop (R109). Machine/Step.lean picks the turn. -/
namespace Sys2Proof.Machine

/-- The word the engine runs: the one latched at issue (10_state.md R44). The block fetches nothing (R33). -/
def State.fetch (s : State) : Option Word := s.engine.map Engine.cmd

/-- The word `w` runs (R107): the command it decodes to, or the fault ILLEGAL_COMMAND (R105). -/
def State.runWord (w : Word) (s : State) : Host.Outcome State Fault Refusal :=
  match decodeWord w with
  | .ok i => exec i s
  | .error _ => .next (s.raise .illegalCommand)

/-- The engine's turn: the command in progress runs to its completion. With none in progress nothing happens (R19, R256). -/
def State.completeTurn (s : State) : Host.Outcome State Fault Refusal :=
  match s.fetch with
  | none => .next s
  | some w => s.runWord w

/-- The engine's turn: one iteration of the command's loop, or, where none is left, its completion. -/
def State.advanceTurn (s : State) : Host.Outcome State Fault Refusal :=
  match s.engine with
  | none => .next s
  | some e =>
    match e.instr? with
    | none => s.completeTurn
    | some i =>
      match s.advance i e with
      | some t => .next t
      | none => s.completeTurn

/-- The host's `poll` loop, `L: rd STATUS ; if bit 0 of the value read is 1, go to L` (R109). While a command is in progress,
`busyReads` more reads see `BUSY = 1` and then the engine completes it (R279: a poll ends in every fair run; LATENCY, log 7).
`rest` is what the host does after the loop. -/
def State.pollTurn (busyReads : Nat) (rest : List Input) (s : State) : Host.Outcome State Fault Refusal :=
  let seen := Seen.reg .status (s.readReg .status)
  if s.busy && !s.inReset then
    match busyReads with
    | 0 => s.completeTurn
    | k + 1 => .next (State.see seen { s with inputs := .poll k :: rest })
  else .next (State.see seen { s with inputs := rest })

/-- One thing the world outside does, already taken off the list (70_reset_and_hazards.md, 30_encoding.md R108); `poll` stands
in `pollTurn`, which may keep its place. -/
def State.inputTurn (x : Input) (rest : List Input) (s : State) : Host.Outcome State Fault Refusal :=
  let t := { s with inputs := rest }
  match x with
  | .access a => t.hostAccess a
  | .poll k => s.pollTurn k rest
  | .memory who addr write => t.memoryAccess who addr write
  | .advance => t.advanceTurn
  | .complete => t.completeTurn
  | .assertReset => .next t.assertReset
  | .releaseReset => .next (if s.inReset then t.releaseReset else t)

/-- The state in which the word `w` has just been issued and the engine has the next turn (log 16). -/
def State.issuedNext (w : Word) (s : State) : State :=
  { s.issue w with inReset := false, inputs := .complete :: s.inputs }

end Sys2Proof.Machine
end

