-- ==== Sys2Proof/Machine/Step.lean ====
section
/-! DEFINITION. One step of the machine: the next thing the outside world does, and, with nothing left to do outside, the
engine's own turn (70_reset_and_hazards.md R279: an issued command completes). -/
namespace Sys2Proof.Machine

/-- One step (00_scope.md R19, log 6). -/
def step (s : State) : Host.Outcome State Fault Refusal :=
  match s.inputs with
  | [] => s.completeTurn
  | x :: rest => s.inputTurn x rest

/-- `s` with the word `w` issued to the engine, which has the very next turn: the word stands where the engine finds the command
it runs, with the operand registers latched as an issue latches them (R107; log 16). -/
def State.withFetchWord (s : State) (nbits w : Nat) : State := s.issuedNext (tableWord nbits w)

end Sys2Proof.Machine
end

