-- ==== Sys2Proof/Machine/Codec.lean ====
section
/-! DEFINITION. What the codec computes, said on bit strings and without the pipelines (20_memory.md R73, 41_encoder.md R168,
42_decoder.md R201). No meaning calls these: the statements hold the pipelines against them. -/
namespace Sys2Proof.Machine

/-- The bytes as one bit string, each byte's most significant bit first (R73). -/
def bitString (bytes : List Byte) : List Bool := bytes.flatMap fun b => (List.range 8).map b.getMsbD

/-- Group `k` of a bit string cut into 5-bit groups, read most significant bit first; bits past its end are zero (R168). -/
def group (bits : List Bool) (k : Nat) : Index :=
  BitVec.ofBoolListBE [bits.getD (5 * k) false, bits.getD (5 * k + 1) false, bits.getD (5 * k + 2) false,
    bits.getD (5 * k + 3) false, bits.getD (5 * k + 4) false]

/-- The symbols of a byte sequence: `ceil(8n / 5)` of them, symbol `k` being `A[g_k]` (R167, R168). -/
def symbolsOf (A : Alphabet) (bytes : List Byte) : List Byte :=
  (List.range ((8 * bytes.length + 4) / 5)).map fun k => A.get (group (bitString bytes) k).toFin

/-- The encoding of a byte sequence: its symbols and, where a pad is configured, pad bytes up to a full block (R164, R168). -/
def encodingOf (A : Alphabet) (padEn : Bool) (pad : Byte) (bytes : List Byte) : List Byte :=
  let symbols := symbolsOf A bytes
  if padEn then symbols ++ List.replicate ((8 - symbols.length % 8) % 8) pad else symbols

/-- The bits of a sequence of 5-bit values, each most significant bit first (R73). -/
def indexBits (xs : List Index) : List Bool := xs.flatMap fun x => (List.range 5).map x.getMsbD

/-- The bits of a symbol sequence that its whole bytes leave over: after `j` symbols, the last `5j % 8` (42_decoder.md R194). -/
def leftoverBits (xs : List Index) : List Bool := (indexBits xs).drop (8 * (5 * xs.length / 8))

/-- The bytes written at `a, a + 1, …`, in increasing address order. -/
def Memory.writeBytes (m : Memory) (a : Nat) : List Byte → Memory
  | [] => m
  | v :: rest => Memory.writeBytes (m.write a v) (a + 1) rest

end Sys2Proof.Machine
end

