-- ==== Sys2Proof/Machine/Program.lean ====
section
/-! DEFINITION. The host program's lines and pseudo-lines, and the accesses they stand for (00_scope.md R16, 30_encoding.md
R108, R109). A program is put into `State.inputs`. -/
namespace Sys2Proof.Machine

/-- One line of a host program. `busyReads` is how many reads of a `poll` see `BUSY = 1` (LATENCY, log 7). -/
inductive HostLine where
  /-- `wr NAME, imm32`. -/
  | wr (r : Reg) (imm : Word)
  /-- `rd NAME`. -/
  | rd (r : Reg)
  /-- A command's own name, with its pad policy for the CFG commands. -/
  | command (i : Instr)
  /-- `poll`. -/
  | poll (busyReads : Nat)
  /-- `run <command>`. -/
  | run (i : Instr) (busyReads : Nat)
  /-- `BUNDLE pad=<b>` or `BUNDLE nopad` (40_configuration.md R136). -/
  | bundle (padEn : Bool) (pad : Byte) (encReads decReads : Nat)
  deriving DecidableEq, Repr

/-- The bus address of a register: `REG_BASE + offset(NAME)` (R108). -/
def Platform.regAddr (p : Platform) (r : Reg) : Word := p.regBase + BitVec.ofNat 32 r.offset

/-- The access of `wr NAME, imm32`. -/
def Platform.wr (p : Platform) (r : Reg) (imm : Word) : Input := .access ⟨p.regAddr r, 4, some imm⟩

/-- The access of `rd NAME`. -/
def Platform.rd (p : Platform) (r : Reg) : Input := .access ⟨p.regAddr r, 4, none⟩

/-- The accesses a line stands for (R108, R109). -/
def HostLine.expand (p : Platform) : HostLine → List Input
  | .wr r imm => [p.wr r imm]
  | .rd r => [p.rd r]
  | .command i => [p.wr .cmd (encodeInstr i)]
  | .poll k => [.poll k]
  | .run i k => [p.wr .cmd (encodeInstr i), .poll k]
  | .bundle padEn pad j k =>
    [p.wr .cmd (encodeInstr (.encCfg padEn pad)), .poll j, p.wr .cmd (encodeInstr (.decCfg padEn pad)), .poll k]

/-- A host program as the list of inputs a state holds. -/
def hostProgram (p : Platform) (lines : List HostLine) : List Input := lines.flatMap (HostLine.expand p)

end Sys2Proof.Machine
end

