-- ==== Sys2Proof/Safety.lean ====
section
/-! DEFINITION. What a claim may rely on at the end of a run (60_exceptions.md R257), and the invariants of the machine the
statements use. -/
namespace Sys2Proof.Machine

/-- How the last command ended (R240). -/
inductive Ending where
  | success
  | typedError (k : Err)
  | faultClass (k : Err)
  deriving DecidableEq, Repr

/-- The ending shown by STATUS once a command has completed: `DONE = 1` and the code's class (R241, R257). -/
def State.ending (s : State) : Option Ending :=
  if s.done then
    some (if s.err.isFault then .faultClass s.err else if s.err = .none then .success else .typedError s.err)
  else none

/-- No fault-class completion and no dropped write since reset: the premise of every claim about an end state (R257). -/
def State.clean (s : State) : Bool := !s.fault && !s.ovr

/-- A clean end state that a claim may rely on: success or a typed error (R257). -/
def State.reliable (s : State) : Bool := s.clean && s.done

/-- The encoder's part of the configuration invariant (10_state.md R40, R42). -/
def State.encoderInv (s : State) : Prop :=
  (s.encValid = true → s.encAlpha.toList.Nodup ∧ (s.encPadEn = true → s.encPad ∉ s.encAlpha.toList))
    ∧ (s.encPadEn = false → s.encPad = 0)

/-- The decoder's part of the configuration invariant (10_state.md R41, R42). -/
def State.decoderInv (s : State) : Prop :=
  (s.decValid = true →
      (∀ i : Index, ∃! b : Byte, s.decInv.get b.toFin = some i)
        ∧ s.decInv.toList.countP Option.isNone = 224
        ∧ (s.decPadEn = true → s.decInv.get s.decPad.toFin = none))
    ∧ (s.decPadEn = false → s.decPad = 0)

/-- What STATUS may show (10_state.md R35, R36, 60_exceptions.md R244, 70_reset_and_hazards.md R270): while a command is in
progress DONE is 0 and ERR is NONE, a fault-class code leaves FAULT set, and under reset nothing is in progress. -/
def State.statusInv (s : State) : Prop :=
  (s.engine.isSome = true → s.done = false ∧ s.err = .none)
    ∧ (s.err.isFault = true → s.fault = true)
    ∧ (s.inReset = true → s.engine = none)

/-- The command in progress has just been issued: its pipelines stand at 0 (10_state.md R44). -/
def Engine.fresh (e : Engine) : Prop :=
  e.acc = 0 ∧ e.cnt = 0 ∧ e.i = 0 ∧ e.o = 0 ∧ e.padAt = none ∧ e.phase = .reading5BitSymbols

/-- Every address of the region is ordinary memory (20_memory.md R75, R79). -/
def Platform.ordinaryOn (p : Platform) (r : Region) : Prop :=
  ∀ a : Nat, r.base ≤ a → a < r.base + r.len → p.ordinaryAt a = true

/-- The command in progress is one the host may issue: the regions it reads and writes are ordinary memory (R75). -/
def State.runningOrdinary (s : State) : Prop :=
  ∀ (e : Engine) (i : Instr), s.engine = some e → decodeWord e.cmd = .ok i →
    s.platform.ordinaryOn (e.sourceOf i) ∧ s.platform.ordinaryOn (e.destinationOf i)

/-- The source and destination buffers of ENCODE and DECODE are well-formed and share no address (00_scope.md R15, 20_memory.md R77). -/
def Engine.buffersOk (e : Engine) : Prop :=
  e.srcAddr.toNat + e.srcLen.toNat ≤ 4294967296 ∧ e.dstAddr.toNat + e.dstLen.toNat ≤ 4294967296
    ∧ ∀ a : Nat, ¬(e.srcAddr.toNat ≤ a ∧ a < e.srcAddr.toNat + e.srcLen.toNat
        ∧ e.dstAddr.toNat ≤ a ∧ a < e.dstAddr.toNat + e.dstLen.toNat)

/-- Both buffers are ordinary memory (R75). -/
def State.buffersOrdinary (s : State) (e : Engine) : Prop :=
  s.platform.ordinaryOn ⟨e.srcAddr.toNat, e.srcLen.toNat⟩ ∧ s.platform.ordinaryOn ⟨e.dstAddr.toNat, e.dstLen.toNat⟩

/-- The decoder's table and pad are those of a bundle on the alphabet `A` (40_configuration.md R132, R136). -/
def State.decodesAlphabet (s : State) (A : Alphabet) : Prop :=
  (∀ (b : Byte) (i : Index), s.decInv.get b.toFin = some i ↔ A.get i.toFin = b)
    ∧ (s.decPadEn = true → ∀ i : Index, A.get i.toFin ≠ s.decPad)

/-- The register window lies in the bus address space (10_state.md R38). -/
def Platform.windowFits (p : Platform) : Prop := p.regBase.toNat + 36 ≤ 4294967296

end Sys2Proof.Machine
end

