-- ==== Sys2Proof/Certificates/Slice0/Obligations.lean ====
section
/-! DEFINITION. The statements for the provers, from the numbered rules of spec/. A next state is written as a record update, so it
says what changes and that nothing else does. Where a value is free (log 3) a statement holds whatever it is. -/
open Sys2Proof Sys2Proof.Machine

/-! ### Encoding and the step -/

/-- With the engine's turn next and a legal word latched, a step is `exec` of the decoded command (30_encoding.md R107). When its
turn comes is the model's choice: with no input left (log 6), at a `poll` with no busy read left (log 7), and at `advance` with
no iteration left (log 5). -/
def Obligations.StepRunsTheLatchedCommand : Prop :=
  ∀ (s : State) (e : Engine) (i : Instr), s.engine = some e → decodeWord e.cmd = .ok i →
    (s.inputs = [] → step s = exec i s)
      ∧ (∀ rest, s.inputs = .complete :: rest → step s = exec i { s with inputs := rest })
      ∧ (∀ rest, s.inputs = .poll 0 :: rest → s.inReset = false → step s = exec i s)
      ∧ (∀ rest, s.inputs = .advance :: rest → State.advance i e { s with inputs := rest } = none →
          step s = exec i { s with inputs := rest })

/-- A word placed by `withFetchWord` is the next step's command, with the operands an issue latches (R107, 10_state.md R44). -/
def Obligations.PlacedWordRunsNext : Prop :=
  ∀ (s : State) (i : Instr), i.wellFormed = true →
    decodeTableWord 32 (encodeInstr i).toNat = some i
      ∧ step (s.withFetchWord 32 (encodeInstr i).toNat) = exec i { s with
          engine := some
            { cmd := encodeInstr i, srcAddr := s.srcAddr, srcLen := s.srcLen, dstAddr := s.dstAddr, dstLen := s.dstLen,
              acc := 0, cnt := 0, i := 0, o := 0, padAt := none, phase := .reading5BitSymbols }
          done := false
          err := .none
          inReset := false }

/-- Words written out from R101, R102 and R109, and the commands they stand for. -/
def Obligations.WordsOfTheTableDecode : Prop :=
  decodeWord 0x003D0101 = .ok (.encCfg true 0x3D)
    ∧ decodeWord 0x00FF0102 = .ok (.decCfg true 0xFF)
    ∧ decodeWord 0x00410001 = .ok (.encCfg false 0)
    ∧ decodeWord 0x00000003 = .ok .encSize
    ∧ decodeWord 0x00000004 = .ok .encode
    ∧ decodeWord 0x00000005 = .ok .decSizeUb
    ∧ decodeWord 0x00000006 = .ok .decSizeSlice
    ∧ decodeWord 0x00000007 = .ok .decode
    ∧ decodeWord 0x00000013 = .error .reservedBits
    ∧ decodeWord 0x00000008 = .error .reservedOp

/-- Decoding an encoded well-formed instruction gives it back, whatever its operands (R101 to R104). -/
def Obligations.DecodeOfEncode : Prop :=
  ∀ i : Instr, i.wellFormed = true → decodeWord (encodeInstr i) = .ok i

/-- R103: a word selects a command exactly when `(w & mask) = match`; the CFG commands' two free fields are read as R104 says. -/
def Obligations.DecodeMatchesTheTable : Prop :=
  ∀ w : Word,
    ((w &&& 0xFF00FEFF = 0x00000001) ↔
        decodeWord w = .ok (.encCfg (w.getLsbD 8) (if w.getLsbD 8 then w.extractLsb' 16 8 else 0)))
      ∧ ((w &&& 0xFF00FEFF = 0x00000002) ↔
        decodeWord w = .ok (.decCfg (w.getLsbD 8) (if w.getLsbD 8 then w.extractLsb' 16 8 else 0)))
      ∧ ((w &&& 0xFFFFFFFF = 0x00000003) ↔ decodeWord w = .ok .encSize)
      ∧ ((w &&& 0xFFFFFFFF = 0x00000004) ↔ decodeWord w = .ok .encode)
      ∧ ((w &&& 0xFFFFFFFF = 0x00000005) ↔ decodeWord w = .ok .decSizeUb)
      ∧ ((w &&& 0xFFFFFFFF = 0x00000006) ↔ decodeWord w = .ok .decSizeSlice)
      ∧ ((w &&& 0xFFFFFFFF = 0x00000007) ↔ decodeWord w = .ok .decode)

/-- R105: a word with a reserved OP, or that no row of the table matches, ends in ILLEGAL_COMMAND, and nothing changes except
STATUS and RESULT. -/
def Obligations.IllegalWordsFault : Prop :=
  ∀ (s : State) (e : Engine), s.engine = some e → s.inputs = [] →
    (e.cmd.extractLsb' 0 4 = (0 : BitVec 4) ∨ (8 : BitVec 4) ≤ e.cmd.extractLsb' 0 4
      ∨ (e.cmd &&& 0xFF00FEFF ≠ 0x00000001 ∧ e.cmd &&& 0xFF00FEFF ≠ 0x00000002 ∧ e.cmd ≠ 0x00000003 ∧ e.cmd ≠ 0x00000004
          ∧ e.cmd ≠ 0x00000005 ∧ e.cmd ≠ 0x00000006 ∧ e.cmd ≠ 0x00000007)) →
    step s = .next
      { s with engine := none, done := true, err := .illegalCommand, fault := true, result := 0 }

/-- R106: CFG words with PAD_EN = 0 that differ only in the PAD field issue the same command. -/
def Obligations.PadFieldIgnoredWithoutPadEn : Prop :=
  ∀ v w : Word, v.extractLsb' 0 4 = (1 : BitVec 4) ∨ v.extractLsb' 0 4 = (2 : BitVec 4) →
    v.getLsbD 8 = false → v &&& 0xFF00FFFF = w &&& 0xFF00FFFF → decodeWord v = decodeWord w

/-! ### Configuration -/

/-- R133: ENC_CFG reads the 32 bytes, checks them, and loads the forward table and the pad policy, or leaves the unit
unconfigured. A host hazard apart (R75), it always completes. -/
def Obligations.EncCfgBuildsTheForwardTable : Prop :=
  ∀ (s : State) (e : Engine) (padEn : Bool) (pad : Byte), s.engine = some e →
    s.platform.ordinaryOn ⟨e.srcAddr.toNat, 32⟩ →
    ((e.srcLen ≠ 32 ∨ 4294967296 < e.srcAddr.toNat + 32) →
        exec (.encCfg padEn pad) s = .next
          { s with engine := none, done := true, err := .contract, fault := true, result := 0 })
      ∧ (e.srcLen = 32 → e.srcAddr.toNat + 32 ≤ 4294967296 →
          ∀ A : Alphabet, (∀ k : Fin 32, A.get k = s.mem.read (e.srcAddr.toNat + k.val)) →
          (((∀ j k : Fin 32, A.get j = A.get k → j = k) ∧ (padEn = true → ∀ k : Fin 32, A.get k ≠ pad)) →
              exec (.encCfg padEn pad) s = .next
                { s with
                  encAlpha := A, encPadEn := padEn, encPad := if padEn then pad else 0, encValid := true
                  engine := none, done := true, err := .none, result := 0 })
            ∧ (¬((∀ j k : Fin 32, A.get j = A.get k → j = k) ∧ (padEn = true → ∀ k : Fin 32, A.get k ≠ pad)) →
              ∃ (T : Alphabet) (d : Nat), exec (.encCfg padEn pad) s = .next
                { s with
                  encAlpha := T, encPadEn := false, encPad := 0, encValid := false, drawn := d
                  engine := none, done := true, err := .configInvalid, fault := true, result := 0 }))

/-- R134: DEC_CFG, with the inverse table of R132. -/
def Obligations.DecCfgBuildsTheInverseTable : Prop :=
  ∀ (s : State) (e : Engine) (padEn : Bool) (pad : Byte), s.engine = some e →
    s.platform.ordinaryOn ⟨e.srcAddr.toNat, 32⟩ →
    ((e.srcLen ≠ 32 ∨ 4294967296 < e.srcAddr.toNat + 32) →
        exec (.decCfg padEn pad) s = .next
          { s with engine := none, done := true, err := .contract, fault := true, result := 0 })
      ∧ (e.srcLen = 32 → e.srcAddr.toNat + 32 ≤ 4294967296 →
          ∀ A : Alphabet, (∀ k : Fin 32, A.get k = s.mem.read (e.srcAddr.toNat + k.val)) →
          (((∀ j k : Fin 32, A.get j = A.get k → j = k) ∧ (padEn = true → ∀ k : Fin 32, A.get k ≠ pad)) →
              ∃ T : Inverse, (∀ (b : Byte) (i : Index), T.get b.toFin = some i ↔ A.get i.toFin = b)
                ∧ exec (.decCfg padEn pad) s = .next
                  { s with
                    decInv := T, decPadEn := padEn, decPad := if padEn then pad else 0, decValid := true
                    engine := none, done := true, err := .none, result := 0 })
            ∧ (¬((∀ j k : Fin 32, A.get j = A.get k → j = k) ∧ (padEn = true → ∀ k : Fin 32, A.get k ≠ pad)) →
              ∃ (T : Inverse) (d : Nat), exec (.decCfg padEn pad) s = .next
                { s with
                  decInv := T, decPadEn := false, decPad := 0, decValid := false, drawn := d
                  engine := none, done := true, err := .configInvalid, fault := true, result := 0 }))

/-- R132: the inverse of an alphabet without repeats, and how many of its entries are `none`. -/
def Obligations.InverseTableOfAnAlphabet : Prop :=
  ∀ A : Alphabet, (∀ j k : Fin 32, A.get j = A.get k → j = k) →
    (∀ (b : Byte) (i : Index), (inverse A).get b.toFin = some i ↔ A.get i.toFin = b)
      ∧ (∀ b : Byte, (inverse A).get b.toFin = none ↔ ∀ k : Fin 32, A.get k ≠ b)
      ∧ (inverse A).toList.countP Option.isNone = 224

/-- 60_exceptions.md R245, 40_configuration.md R135: a command of an unconfigured unit ends in NOT_CONFIGURED, reads no table and
changes nothing but STATUS and RESULT. -/
def Obligations.UnconfiguredUnitsFault : Prop :=
  ∀ (s : State) (e : Engine), s.engine = some e →
    (s.encValid = false → ∀ i ∈ [Instr.encSize, Instr.encode],
        s.platform.ordinaryOn (e.sourceOf i) → s.platform.ordinaryOn (e.destinationOf i) →
        exec i s = .next { s with engine := none, done := true, err := .notConfigured, fault := true, result := 0 })
      ∧ (s.decValid = false → ∀ i ∈ [Instr.decSizeUb, Instr.decSizeSlice, Instr.decode],
        s.platform.ordinaryOn (e.sourceOf i) → s.platform.ordinaryOn (e.destinationOf i) →
        exec i s = .next { s with engine := none, done := true, err := .notConfigured, fault := true, result := 0 })

/-! ### The encoder -/

/-- R165: ENC_SIZE, with the lengths at which SIZE_OVERFLOW begins. -/
def Obligations.EncSizeResult : Prop :=
  ∀ (s : State) (e : Engine), s.engine = some e →
    (s.encValid = false → exec .encSize s = .next
        { s with engine := none, done := true, err := .notConfigured, fault := true, result := 0 })
      ∧ (s.encValid = true →
          (s.encPadEn = true ∧ 2684354555 < e.srcLen.toNat ∨ s.encPadEn = false ∧ 2684354559 < e.srcLen.toNat) →
          exec .encSize s = .next
            { s with engine := none, done := true, err := .sizeOverflow, fault := true, result := 0 })
      ∧ (s.encValid = true → s.encPadEn = true → e.srcLen.toNat ≤ 2684354555 → ∃ v : Word,
          v.toNat = (e.srcLen.toNat + 4) / 5 * 8
            ∧ exec .encSize s = .next { s with engine := none, done := true, err := .none, result := v })
      ∧ (s.encValid = true → s.encPadEn = false → e.srcLen.toNat ≤ 2684354559 → ∃ v : Word,
          v.toNat = (e.srcLen.toNat * 8 + 4) / 5
            ∧ exec .encSize s = .next { s with engine := none, done := true, err := .none, result := v })

/-- R166, R168: ENCODE writes, at DST_ADDR on, the encoding of the source bytes read as one bit string; RESULT is its length;
nothing else changes. -/
def Obligations.EncodeWritesTheEncoding : Prop :=
  ∀ (s : State) (e : Engine), s.engine = some e → e.fresh → s.buffersOrdinary e → s.encValid = true → e.buffersOk →
    encSize e.srcLen.toNat s.encPadEn ≤ 4294967295 → encSize e.srcLen.toNat s.encPadEn ≤ e.dstLen.toNat →
    exec .encode s = .next
      { s with
        mem := s.mem.writeBytes e.dstAddr.toNat
          (encodingOf s.encAlpha s.encPadEn s.encPad (s.mem.bytes e.srcAddr.toNat e.srcLen.toNat))
        engine := none, done := true, err := .none
        result := BitVec.ofNat 32 (encSize e.srcLen.toNat s.encPadEn) }

/-- 60_exceptions.md R245: ENCODE's faults, in their order, each before any memory access. -/
def Obligations.EncodeFaultsInOrder : Prop :=
  ∀ (s : State) (e : Engine), s.engine = some e → s.buffersOrdinary e →
    (s.encValid = false → exec .encode s = .next
        { s with engine := none, done := true, err := .notConfigured, fault := true, result := 0 })
      ∧ (s.encValid = true → 4294967295 < encSize e.srcLen.toNat s.encPadEn → exec .encode s = .next
        { s with engine := none, done := true, err := .sizeOverflow, fault := true, result := 0 })
      ∧ (s.encValid = true → encSize e.srcLen.toNat s.encPadEn ≤ 4294967295 →
          (¬e.buffersOk ∨ e.dstLen.toNat < encSize e.srcLen.toNat s.encPadEn) → exec .encode s = .next
        { s with engine := none, done := true, err := .contract, fault := true, result := 0 })

/-- R167: the symbols and pad bytes ENCODE's pipeline writes number exactly `enc_size(n, pe)`, and its own symbols
`ceil(8n / 5)`: the output index `o` counts the writes. -/
def Obligations.EncodeLengthLaw : Prop :=
  ∀ (p : Pipe) (A : Alphabet) (padEn : Bool) (pad : Byte), p.eng.fresh →
    encSize p.eng.srcLen.toNat padEn ≤ 4294967295 →
    ((p.encodeBytes A p.eng.srcLen.toNat).encodeLeftover A).eng.o.toNat = (8 * p.eng.srcLen.toNat + 4) / 5
      ∧ (p.encodeRest A padEn pad (encSize p.eng.srcLen.toNat padEn)).eng.o.toNat = encSize p.eng.srcLen.toNat padEn

/-- R161: the lengths by the remainder modulo 5, on the encodings themselves: `symbols` from the pipeline and `pads` pad bytes. -/
def Obligations.EncodingLengthsByRemainder : Prop :=
  ∀ (A : Alphabet) (pad : Byte) (bytes : List Byte) (q r symbols pads : Nat), bytes.length = 5 * q + r →
    (r, symbols, pads) ∈ [(0, 0, 0), (1, 2, 6), (2, 4, 4), (3, 5, 3), (4, 7, 1)] →
    (symbolsOf A bytes).length = 8 * q + symbols
      ∧ encodingOf A false pad bytes = symbolsOf A bytes
      ∧ encodingOf A true pad bytes = symbolsOf A bytes ++ List.replicate pads pad
      ∧ encSize bytes.length false = 8 * q + symbols
      ∧ encSize bytes.length true = 8 * q + symbols + pads

/-! ### The decoder -/

/-- R196: DEC_SIZE_UB, with the remainders of R190. -/
def Obligations.DecSizeUbResult : Prop :=
  ∀ (s : State) (e : Engine), s.engine = some e →
    (s.decValid = false → exec .decSizeUb s = .next
        { s with engine := none, done := true, err := .notConfigured, fault := true, result := 0 })
      ∧ (s.decValid = true → s.decPadEn = true → e.srcLen.toNat % 8 = 0 → ∃ v : Word,
          v.toNat = 5 * (e.srcLen.toNat / 8)
            ∧ exec .decSizeUb s = .next { s with engine := none, done := true, err := .none, result := v })
      ∧ (s.decValid = true → s.decPadEn = false → ∀ extra : Nat,
          (e.srcLen.toNat % 8, extra) ∈ [(0, 0), (2, 1), (4, 2), (5, 3), (7, 4)] → ∃ v : Word,
          v.toNat = 5 * (e.srcLen.toNat / 8) + extra
            ∧ exec .decSizeUb s = .next { s with engine := none, done := true, err := .none, result := v })
      ∧ (s.decValid = true →
          (s.decPadEn = true ∧ e.srcLen.toNat % 8 ≠ 0 ∨ s.decPadEn = false ∧ e.srcLen.toNat % 8 ∈ [1, 3, 6]) →
          exec .decSizeUb s = .next
            { s with engine := none, done := true, err := .invalidPadding, result := 0 })

/-- R197, R192: DEC_SIZE_SLICE, in the padded variant by its `k` trailing pad bytes and in the unpadded one by its remainder. -/
def Obligations.DecSizeSliceResult : Prop :=
  ∀ (s : State) (e : Engine), s.engine = some e → s.platform.ordinaryOn ⟨e.srcAddr.toNat, e.srcLen.toNat⟩ →
    (s.decValid = false → exec .decSizeSlice s = .next
        { s with engine := none, done := true, err := .notConfigured, fault := true, result := 0 })
      ∧ (s.decValid = true → 4294967296 < e.srcAddr.toNat + e.srcLen.toNat → exec .decSizeSlice s = .next
        { s with engine := none, done := true, err := .contract, fault := true, result := 0 })
      ∧ (s.decValid = true → e.srcAddr.toNat + e.srcLen.toNat ≤ 4294967296 → s.decPadEn = true →
          (e.srcLen.toNat % 8 ≠ 0 → exec .decSizeSlice s = .next
              { s with engine := none, done := true, err := .invalidPadding, result := 0 })
            ∧ (e.srcLen.toNat % 8 = 0 → ∀ k : Nat, k ≤ e.srcLen.toNat →
                (∀ j < k, s.mem.read (e.srcAddr.toNat + (e.srcLen.toNat - 1 - j)) = s.decPad) →
                (k < e.srcLen.toNat → s.mem.read (e.srcAddr.toNat + (e.srcLen.toNat - 1 - k)) ≠ s.decPad) →
                (∀ d : Nat, (k, d) ∈ [(0, 0), (1, 1), (3, 2), (4, 3), (6, 4)] → ∃ v : Word,
                    v.toNat + d = 5 * (e.srcLen.toNat / 8)
                      ∧ exec .decSizeSlice s = .next { s with engine := none, done := true, err := .none, result := v })
                  ∧ (k ∉ [0, 1, 3, 4, 6] → exec .decSizeSlice s = .next
                    { s with engine := none, done := true, err := .invalidPadding, result := 0 })))
      ∧ (s.decValid = true → e.srcAddr.toNat + e.srcLen.toNat ≤ 4294967296 → s.decPadEn = false →
          (∀ extra : Nat, (e.srcLen.toNat % 8, extra) ∈ [(0, 0), (2, 1), (4, 2), (5, 3), (7, 4)] → ∃ v : Word,
              v.toNat = 5 * (e.srcLen.toNat / 8) + extra
                ∧ exec .decSizeSlice s = .next { s with engine := none, done := true, err := .none, result := v })
            ∧ (e.srcLen.toNat % 8 ∈ [1, 3, 6] → exec .decSizeSlice s = .next
              { s with engine := none, done := true, err := .invalidPadding, result := 0 }))

/-- R202: with DEC_PAD_EN = 0, DEC_SIZE_SLICE and DEC_SIZE_UB do the same on every well-formed source of the same length. -/
def Obligations.UnpaddedSizesAgree : Prop :=
  ∀ (s : State) (e : Engine) (m : Memory), s.engine = some e →
    s.platform.ordinaryOn ⟨e.srcAddr.toNat, e.srcLen.toNat⟩ → e.srcAddr.toNat + e.srcLen.toNat ≤ 4294967296 →
    s.decPadEn = false → exec .decSizeSlice { s with mem := m } = exec .decSizeUb { s with mem := m }

/-- R203: the rejected remainders give INVALID_PADDING from all three commands. -/
def Obligations.RejectedRemainders : Prop :=
  ∀ (s : State) (e : Engine), s.engine = some e → s.buffersOrdinary e → s.decValid = true → e.buffersOk →
    (s.decPadEn = true ∧ e.srcLen.toNat % 8 ≠ 0 ∨ s.decPadEn = false ∧ e.srcLen.toNat % 8 ∈ [1, 3, 6]) →
    ∀ i ∈ [Instr.decSizeUb, Instr.decSizeSlice, Instr.decode],
      exec i s = .next { s with engine := none, done := true, err := .invalidPadding, result := 0 }

/-- R201, first part, on the machine: DECODE of an encoding writes the bytes encoded. -/
def Obligations.DecodeOfAnEncoding : Prop :=
  ∀ (s : State) (e : Engine) (A : Alphabet) (bytes : List Byte), s.engine = some e → e.fresh → s.buffersOrdinary e →
    s.decValid = true → e.buffersOk → s.decodesAlphabet A →
    s.mem.bytes e.srcAddr.toNat e.srcLen.toNat = encodingOf A s.decPadEn s.decPad bytes →
    e.dstLen.toNat = bytes.length →
    exec .decode s = .next
      { s with
        mem := s.mem.writeBytes e.dstAddr.toNat bytes
        engine := none, done := true, err := .none, result := e.dstLen }

/-- R201, second part: DECODE completes with NONE only on the encoding of the bytes it writes. -/
def Obligations.DecodeAcceptsOnlyEncodings : Prop :=
  ∀ (s t : State) (e : Engine) (A : Alphabet), s.engine = some e → e.fresh → s.decodesAlphabet A →
    exec .decode s = .next t → t.err = .none →
    ∃ bytes : List Byte, bytes.length = e.dstLen.toNat
      ∧ s.mem.bytes e.srcAddr.toNat e.srcLen.toNat = encodingOf A s.decPadEn s.decPad bytes
      ∧ t = { s with
          mem := s.mem.writeBytes e.dstAddr.toNat bytes
          engine := none, done := true, err := .none, result := e.dstLen }

/-- R201: an ENCODE and then a DECODE of what it wrote, by a bundle, give the source bytes back. -/
def Obligations.RoundTrip : Prop :=
  ∀ (s t : State) (e f : Engine), s.mem.wf = true → s.engine = some e → e.fresh →
    s.decValid = true → s.decPadEn = s.encPadEn → s.decPad = s.encPad → s.decodesAlphabet s.encAlpha →
    exec .encode s = .next t → t.err = .none →
    f.fresh → f.srcAddr = e.dstAddr → f.srcLen = t.result → f.dstLen = e.srcLen → f.buffersOk → t.buffersOrdinary f →
    ∃ v : State, exec .decode { t with engine := some f, done := false } = .next v
      ∧ v.err = .none ∧ v.result = e.srcLen
      ∧ v.mem.bytes f.dstAddr.toNat e.srcLen.toNat = s.mem.bytes e.srcAddr.toNat e.srcLen.toNat

/-- R198, R245: what DECODE reports before it decodes, in order, with no memory written. -/
def Obligations.DecodeChecksInOrder : Prop :=
  ∀ (s : State) (e : Engine), s.engine = some e → s.buffersOrdinary e →
    (s.decValid = false → exec .decode s = .next
        { s with engine := none, done := true, err := .notConfigured, fault := true, result := 0 })
      ∧ (s.decValid = true → ¬e.buffersOk → exec .decode s = .next
        { s with engine := none, done := true, err := .contract, fault := true, result := 0 })
      ∧ (s.decValid = true → e.buffersOk →
          (∀ k, s.mem.decSlice e.srcAddr e.srcLen.toNat s.decPadEn s.decPad = .error k → exec .decode s = .next
              { s with engine := none, done := true, err := .invalidPadding, result := 0 })
            ∧ (∀ m, s.mem.decSlice e.srcAddr e.srcLen.toNat s.decPadEn s.decPad = .ok m → e.dstLen.toNat ≠ m →
              exec .decode s = .next
                { s with engine := none, done := true, err := .contract, fault := true, result := 0 }))

/-- R204, R193: the first source byte that is neither a symbol nor a configured pad, met before any pad byte, gives
INVALID_CHARACTER; only the destination's bytes and the count of free values drawn change with it. -/
def Obligations.BadByteBeforeAnyPad : Prop :=
  ∀ (s : State) (e : Engine) (j : Nat), s.engine = some e → e.fresh → s.buffersOrdinary e → s.decValid = true → s.decoderInv →
    e.buffersOk → s.mem.decSlice e.srcAddr e.srcLen.toNat s.decPadEn s.decPad = .ok e.dstLen.toNat →
    j < e.srcLen.toNat →
    (∀ k < j, (s.decInv.get (s.mem.read (e.srcAddr.toNat + k)).toFin).isSome = true) →
    s.decInv.get (s.mem.read (e.srcAddr.toNat + j)).toFin = none →
    (s.decPadEn = false ∨ s.mem.read (e.srcAddr.toNat + j) ≠ s.decPad) →
    ∃ (m : Memory) (d : Nat),
      exec .decode s = .next
          { s with mem := m, drawn := d, engine := none, done := true, err := .invalidCharacter, result := 0 }
        ∧ ∀ a : Nat, (a < e.dstAddr.toNat ∨ e.dstAddr.toNat + e.dstLen.toNat ≤ a) → m.read a = s.mem.read a

/-- R195, R204, 90_conflicts.md C1: the first byte of a padding tail that is not the pad gives INVALID_CHARACTER when it is no
symbol and INVALID_PADDING when it is one. The symbols before the tail, `p` of them, are those of some bytes. -/
def Obligations.FirstBadByteOfTheTail : Prop :=
  ∀ (s : State) (e : Engine) (A : Alphabet) (bytes : List Byte) (p j : Nat), s.engine = some e → e.fresh →
    s.buffersOrdinary e → s.decValid = true → s.decPadEn = true → e.buffersOk → s.decodesAlphabet A →
    s.mem.decSlice e.srcAddr e.srcLen.toNat s.decPadEn s.decPad = .ok e.dstLen.toNat →
    p < j → j < e.srcLen.toNat → p % 8 ≠ 0 → s.mem.bytes e.srcAddr.toNat p = symbolsOf A bytes →
    (∀ k, p ≤ k → k < j → s.mem.read (e.srcAddr.toNat + k) = s.decPad) →
    s.mem.read (e.srcAddr.toNat + j) ≠ s.decPad →
    ∃ (m : Memory) (d : Nat),
      exec .decode s = .next
          { s with
            mem := m, drawn := d, engine := none, done := true, result := 0
            err := if (s.decInv.get (s.mem.read (e.srcAddr.toNat + j)).toFin).isSome then .invalidPadding
              else .invalidCharacter }
        ∧ ∀ a : Nat, (a < e.dstAddr.toNat ∨ e.dstAddr.toNat + e.dstLen.toNat ≤ a) → m.read a = s.mem.read a

/-- R194: when the size checks pass and the source is symbols up to its end or up to a first pad byte, more than 4 leftover bits, or
a leftover bit that is 1, end DECODE in INVALID_PADDING, whether or not a pad byte was met and whatever follows it. -/
def Obligations.LeftoverBitsAreRejected : Prop :=
  ∀ (s : State) (e : Engine) (A : Alphabet) (xs : List Index), s.engine = some e → e.fresh → s.buffersOrdinary e →
    s.decValid = true → e.buffersOk → s.decodesAlphabet A →
    s.mem.decSlice e.srcAddr e.srcLen.toNat s.decPadEn s.decPad = .ok e.dstLen.toNat →
    xs.length ≤ e.srcLen.toNat →
    s.mem.bytes e.srcAddr.toNat xs.length = xs.map (fun x => A.get x.toFin) →
    (xs.length < e.srcLen.toNat → s.decPadEn = true ∧ s.mem.read (e.srcAddr.toNat + xs.length) = s.decPad) →
    (4 < (leftoverBits xs).length ∨ true ∈ leftoverBits xs) →
    ∃ (m : Memory) (d : Nat),
      exec .decode s = .next
          { s with mem := m, drawn := d, engine := none, done := true, err := .invalidPadding, result := 0 }
        ∧ ∀ a : Nat, (a < e.dstAddr.toNat ∨ e.dstAddr.toNat + e.dstLen.toNat ≤ a) → m.read a = s.mem.read a

/-- R195: a first pad byte at the start of an 8-symbol block, where no leftover bits are, ends DECODE in INVALID_PADDING. -/
def Obligations.PadByteAtABlockStart : Prop :=
  ∀ (s : State) (e : Engine) (A : Alphabet) (xs : List Index), s.engine = some e → e.fresh → s.buffersOrdinary e →
    s.decValid = true → s.decPadEn = true → e.buffersOk → s.decodesAlphabet A →
    s.mem.decSlice e.srcAddr e.srcLen.toNat s.decPadEn s.decPad = .ok e.dstLen.toNat →
    xs.length < e.srcLen.toNat → xs.length % 8 = 0 →
    s.mem.bytes e.srcAddr.toNat xs.length = xs.map (fun x => A.get x.toFin) →
    s.mem.read (e.srcAddr.toNat + xs.length) = s.decPad →
    ∃ (m : Memory) (d : Nat),
      exec .decode s = .next
          { s with mem := m, drawn := d, engine := none, done := true, err := .invalidPadding, result := 0 }
        ∧ ∀ a : Nat, (a < e.dstAddr.toNat ∨ e.dstAddr.toNat + e.dstLen.toNat ≤ a) → m.read a = s.mem.read a

/-- R195: a tail of pad bytes only, after whole symbols with zero leftover bits, passes `unpack` exactly when its length is the count
the leftover needs, and gives INVALID_PADDING otherwise. Said of `unpack` itself: after the size checks of DECODE the count of
such a tail is never wrong. -/
def Obligations.UnpackChecksTheTailCount : Prop :=
  ∀ (e : Engine) (mem : Memory) (inv : Inverse) (pad : Byte) (A : Alphabet) (xs : List Index) (need : Nat),
    e.fresh → e.buffersOk →
    (∀ (b : Byte) (i : Index), inv.get b.toFin = some i ↔ A.get i.toFin = b) → (∀ i : Index, A.get i.toFin ≠ pad) →
    xs.length < e.srcLen.toNat → 5 * xs.length / 8 ≤ e.dstLen.toNat →
    mem.bytes e.srcAddr.toNat xs.length = xs.map (fun x => A.get x.toFin) →
    (5 * xs.length % 8, need) ∈ [(2, 6), (4, 4), (1, 3), (3, 1)] → true ∉ leftoverBits xs →
    (∀ k, xs.length ≤ k → k < e.srcLen.toNat → mem.read (e.srcAddr.toNat + k) = pad) →
    (e.srcLen.toNat - xs.length = need →
        ∃ q : Pipe, Pipe.unpackRest inv true pad ⟨e, mem⟩ = .ok q ∧ q.eng.o.toNat = 5 * xs.length / 8)
      ∧ (e.srcLen.toNat - xs.length ≠ need → Pipe.unpackRest inv true pad ⟨e, mem⟩ = .error .invalidPadding)

/-- R199: after an error inside `unpack` every byte of the destination region is unspecified, in the model's form a free value drawn
for it (log 3, DESIGN CHOICE), and no other byte changed; a DECODE that ends before `unpack` starts writes no memory. -/
def Obligations.DestinationAfterADecodeError : Prop :=
  ∀ (s t : State) (e : Engine), s.mem.wf = true → s.engine = some e → exec .decode s = .next t → t.err ≠ .none →
    (s.decodeChecks e = .ok e.dstLen.toNat →
        (∀ a : Nat, (a < e.dstAddr.toNat ∨ e.dstAddr.toNat + e.dstLen.toNat ≤ a) → t.mem.read a = s.mem.read a)
          ∧ ∀ k < e.dstLen.toNat, t.mem.read (e.dstAddr.toNat + k) = Config.freeByte (s.drawn + k))
      ∧ (s.decodeChecks e ≠ .ok e.dstLen.toNat → t.mem = s.mem)

/-- R200: after sizing answered `m`, `unpack` appends at most `m` bytes before it returns, after any number of the model's
iterations (log 5), and exactly `m` when it returns `Ok`. -/
def Obligations.UnpackWritesAreBounded : Prop :=
  ∀ (s : State) (e : Engine) (m : Nat), s.engine = some e → e.fresh → e.buffersOk → s.decValid = true → s.decoderInv →
    s.mem.decSlice e.srcAddr e.srcLen.toNat s.decPadEn s.decPad = .ok m → e.dstLen.toNat = m →
    (∀ (k : Nat) (f : Engine), (State.advances .decode k s).engine = some f → f.o.toNat ≤ m)
      ∧ ∀ q : Pipe, Pipe.unpackRest s.decInv s.decPadEn s.decPad ⟨e, s.mem⟩ = .ok q → q.eng.o.toNat = m

/-! ### How a command ends -/

/-- R240: a command in progress, whatever its word, ends in exactly one completion; then BUSY = 0 and DONE = 1, FAULT records a
fault-class code, OVR stays, and RESULT is 0 unless it succeeded. -/
def Obligations.EveryCommandCompletes : Prop :=
  ∀ (s : State) (e : Engine), s.engine = some e → s.inputs = [] →
    (∀ i, decodeWord e.cmd = .ok i →
      s.platform.ordinaryOn (e.sourceOf i) ∧ s.platform.ordinaryOn (e.destinationOf i)) →
    ∃ t : State, step s = .next t ∧ t.busy = false ∧ t.done = true ∧ t.fault = (s.fault || t.err.isFault)
      ∧ t.ovr = s.ovr ∧ (t.err ≠ .none → t.result = 0)

/-- R241: the codes' numbers, their class, and which commands raise which. -/
def Obligations.CompletionCodes : Prop :=
  (∀ k : Err, (k, k.code.toNat) ∈ [(Err.none, 0x0), (Err.invalidCharacter, 0x1), (Err.invalidPadding, 0x2),
      (Err.illegalCommand, 0x8), (Err.notConfigured, 0x9), (Err.configInvalid, 0xA), (Err.contract, 0xB),
      (Err.sizeOverflow, 0xC)])
    ∧ (∀ k : Err, k.isFault = true ↔ 8 ≤ k.code.toNat)
    ∧ ∀ (i : Instr) (s t : State), exec i s = .next t →
      match i with
      | .encCfg _ _ => t.err ∈ [Err.none, Err.contract, Err.configInvalid]
      | .decCfg _ _ => t.err ∈ [Err.none, Err.contract, Err.configInvalid]
      | .encSize => t.err ∈ [Err.none, Err.notConfigured, Err.sizeOverflow]
      | .encode => t.err ∈ [Err.none, Err.notConfigured, Err.sizeOverflow, Err.contract]
      | .decSizeUb => t.err ∈ [Err.none, Err.notConfigured, Err.invalidPadding]
      | .decSizeSlice => t.err ∈ [Err.none, Err.notConfigured, Err.contract, Err.invalidPadding]
      | .decode => t.err ∈ [Err.none, Err.notConfigured, Err.contract, Err.invalidPadding, Err.invalidCharacter]

/-- R243: a typed error sets RESULT and STATUS and leaves FAULT, OVR and both configurations; only one raised inside a DECODE's
`unpack` changes memory, and only in `region(DST_ADDR, DST_LEN)` (R199). R244: a fault is raised before the first memory write
and changes nothing else but, after CONFIG_INVALID, its unit's configuration. `s.running` is the command in progress. -/
def Obligations.ErrorsAndFaultsChangeLittle : Prop :=
  ∀ (i : Instr) (s t : State), exec i s = .next t → t.err ≠ .none →
    (t.err.isFault = true → t.err ≠ .configInvalid →
        t = { s with engine := none, done := true, err := t.err, fault := true, result := 0 })
      ∧ (t.err = .configInvalid → ∃ (A : Alphabet) (T : Inverse) (d : Nat),
          t = { s with engine := none, done := true, err := t.err, fault := true, result := 0, drawn := d, encAlpha := A,
                       encPadEn := false, encPad := 0, encValid := false }
            ∨ t = { s with engine := none, done := true, err := t.err, fault := true, result := 0, drawn := d, decInv := T,
                           decPadEn := false, decPad := 0, decValid := false })
      ∧ (t.err.isFault = false →
          ((i ≠ .decode ∨ s.decodeChecks s.running ≠ .ok s.running.dstLen.toNat) →
              t = { s with engine := none, done := true, err := t.err, result := 0 })
            ∧ ∃ (m : Memory) (d : Nat),
                t = { s with engine := none, done := true, err := t.err, result := 0, mem := m, drawn := d }
                  ∧ ∀ a : Nat, (a < s.running.dstAddr.toNat ∨ s.running.dstAddr.toNat + s.running.dstLen.toNat ≤ a) →
                    m.read a = s.mem.read a)

/-- The frame of every command: the operand registers, OVR and everything outside the block but the memory stay; only ENC_CFG writes
the encoder's configuration, only DEC_CFG the decoder's, only ENCODE and DECODE the memory (10_state.md R31, R40, R41, R43). -/
def Obligations.FrameOfEveryCommand : Prop :=
  ∀ (i : Instr) (s t : State), exec i s = .next t →
    t.srcAddr = s.srcAddr ∧ t.srcLen = s.srcLen ∧ t.dstAddr = s.dstAddr ∧ t.dstLen = s.dstLen ∧ t.ovr = s.ovr
      ∧ t.inReset = s.inReset ∧ t.platform = s.platform ∧ t.inputs = s.inputs ∧ t.seen = s.seen
      ∧ (s.fault = true → t.fault = true)
      ∧ ((∀ pe p, i ≠ .encCfg pe p) →
          t.encAlpha = s.encAlpha ∧ t.encPadEn = s.encPadEn ∧ t.encPad = s.encPad ∧ t.encValid = s.encValid)
      ∧ ((∀ pe p, i ≠ .decCfg pe p) →
          t.decInv = s.decInv ∧ t.decPadEn = s.decPadEn ∧ t.decPad = s.decPad ∧ t.decValid = s.decValid)
      ∧ (i ≠ .encode → i ≠ .decode → t.mem = s.mem)

/-- R78: a command writes no byte outside its `region(DST_ADDR, DST_LEN)`, and ENCODE none past the first `outputLen` bytes of
it; the commands without a destination write no memory. -/
def Obligations.WritesAreConfined : Prop :=
  ∀ (i : Instr) (s t : State) (e : Engine), s.decoderInv → s.engine = some e → e.fresh → exec i s = .next t →
    (i ≠ .encode → i ≠ .decode → t.mem = s.mem)
      ∧ (∀ a : Nat, (a < e.dstAddr.toNat ∨ e.dstAddr.toNat + e.dstLen.toNat ≤ a) → t.mem.read a = s.mem.read a)
      ∧ (i = .encode → ∀ a : Nat, e.dstAddr.toNat + encSize e.srcLen.toNat s.encPadEn ≤ a → t.mem.read a = s.mem.read a)

/-- R43: the encoder's commands do not read the decoder's configuration, nor the decoder's commands the encoder's; no command reads
STATUS or RESULT (10_state.md R36). -/
def Obligations.CommandsReadOnlyTheirOwnUnit : Prop :=
  ∀ (i : Instr) (s t : State) (e : Engine), s.engine = some e → exec i s = .next t →
    (i ∈ [Instr.encSize, Instr.encode] ∨ (∃ pe p, i = .encCfg pe p) → ∀ (T : Inverse) (pe : Bool) (p : Byte) (v : Bool),
        exec i { s with decInv := T, decPadEn := pe, decPad := p, decValid := v } = .next
          { t with decInv := T, decPadEn := pe, decPad := p, decValid := v })
      ∧ (i ∈ [Instr.decSizeUb, Instr.decSizeSlice, Instr.decode] ∨ (∃ pe p, i = .decCfg pe p) →
        ∀ (A : Alphabet) (pe : Bool) (p : Byte) (v : Bool),
        exec i { s with encAlpha := A, encPadEn := pe, encPad := p, encValid := v } = .next
          { t with encAlpha := A, encPadEn := pe, encPad := p, encValid := v })
      ∧ ∀ (r : Word) (k : Err) (d o f : Bool),
        exec i { s with result := r, err := k, done := d, ovr := o, fault := f } = .next
          { t with ovr := o, fault := f || t.err.isFault }

/-- 20_memory.md R76, R81: running a just issued command iteration by iteration (the iterations are the model's choice, log 5) and
then completing it does what completing it at once does. -/
def Obligations.IterationsMakeOneTransition : Prop :=
  ∀ (i : Instr) (s : State) (e : Engine) (k : Nat), s.mem.wf = true → s.decoderInv → s.engine = some e → e.fresh →
    exec i (State.advances i k s) = exec i s

/-- 70_reset_and_hazards.md R279: after finitely many iterations none is left, so the engine's next turn completes the command. The
iterations and their bound are those of the model's own `advance` (log 5, DESIGN CHOICE). -/
def Obligations.IterationsEnd : Prop :=
  ∀ (i : Instr) (s : State) (e : Engine), s.engine = some e → e.fresh →
    ∃ k ≤ e.srcLen.toNat + 2, ∃ f : Engine,
      (State.advances i k s).engine = some f ∧ (State.advances i k s).advance i f = none

/-! ### The host's side -/

/-- R34, R44, 30_encoding.md R107: a write to CMD with no command in progress issues it: BUSY 1, DONE 0, ERR NONE, the operands
latched, the pipelines at 0; with one in progress it is dropped; a read answers 0. That the write of a legal command over memory
that is not ordinary stops the machine with `notOrdinary` is the model's reading of R75 and R277 (log 9, DEDUCED). -/
def Obligations.CmdWriteIssues : Prop :=
  ∀ (s : State) (w : Word) (rest : List Input), s.platform.windowFits → s.inReset = false →
    (s.inputs = s.platform.wr .cmd w :: rest → s.engine = none →
        (∀ i, decodeWord w = .ok i →
          s.platform.ordinaryOn ((s.latch w).sourceOf i) ∧ s.platform.ordinaryOn ((s.latch w).destinationOf i)) →
        step s = .next
        { s with
          inputs := rest, done := false, err := .none
          engine := some
            { cmd := w, srcAddr := s.srcAddr, srcLen := s.srcLen, dstAddr := s.dstAddr, dstLen := s.dstLen,
              acc := 0, cnt := 0, i := 0, o := 0, padAt := none, phase := .reading5BitSymbols } })
      ∧ (∀ i, s.inputs = s.platform.wr .cmd w :: rest → s.engine = none → decodeWord w = .ok i →
        (¬s.platform.ordinaryOn ((s.latch w).sourceOf i) ∨ ¬s.platform.ordinaryOn ((s.latch w).destinationOf i)) →
        step s = .fault .notOrdinary)
      ∧ (s.inputs = s.platform.wr .cmd w :: rest → s.engine ≠ none → step s = .next { s with inputs := rest, ovr := true })
      ∧ (s.inputs = s.platform.rd .cmd :: rest → step s = .next { s with inputs := rest, seen := .reg .cmd 0 :: s.seen })

/-- R31: with no command in progress a write to an operand register is what a read of it then answers, and nothing else changes. -/
def Obligations.OperandRegistersHoldWhatIsWritten : Prop :=
  ∀ (s : State) (v : Word) (rest : List Input), s.platform.windowFits → s.inReset = false → s.engine = none →
    (s.inputs = s.platform.wr .srcAddr v :: rest → step s = .next { s with inputs := rest, srcAddr := v })
      ∧ (s.inputs = s.platform.wr .srcLen v :: rest → step s = .next { s with inputs := rest, srcLen := v })
      ∧ (s.inputs = s.platform.wr .dstAddr v :: rest → step s = .next { s with inputs := rest, dstAddr := v })
      ∧ (s.inputs = s.platform.wr .dstLen v :: rest → step s = .next { s with inputs := rest, dstLen := v })
      ∧ (s.inputs = s.platform.rd .srcAddr :: rest → step s = .next { s with inputs := rest, seen := .reg .srcAddr s.srcAddr :: s.seen })
      ∧ (s.inputs = s.platform.rd .srcLen :: rest → step s = .next { s with inputs := rest, seen := .reg .srcLen s.srcLen :: s.seen })
      ∧ (s.inputs = s.platform.rd .dstAddr :: rest → step s = .next { s with inputs := rest, seen := .reg .dstAddr s.dstAddr :: s.seen })
      ∧ (s.inputs = s.platform.rd .dstLen :: rest → step s = .next { s with inputs := rest, seen := .reg .dstLen s.dstLen :: s.seen })

/-- R276: while a command is in progress a write to CMD or an operand register is dropped and sets OVR, one to a read-only or
reserved word is ignored and does not, and every register is read as it stands (the fields of STATUS and CFGSTAT are
`StatusAndCfgstatFields`'s). -/
def Obligations.WritesWhileBusyAreDropped : Prop :=
  ∀ (s : State) (r : Reg) (v : Word) (rest : List Input), s.platform.windowFits → s.inReset = false → s.engine ≠ none →
    (s.inputs = s.platform.wr r v :: rest → r ∈ [Reg.cmd, Reg.srcAddr, Reg.srcLen, Reg.dstAddr, Reg.dstLen] →
        step s = .next { s with inputs := rest, ovr := true })
      ∧ (s.inputs = s.platform.wr r v :: rest → r ∈ [Reg.status, Reg.result, Reg.cfgstat, Reg.reserved] →
        step s = .next { s with inputs := rest })
      ∧ (∀ x : Word, s.inputs = s.platform.rd r :: rest →
        (r, x) ∈ [(Reg.cmd, 0), (.status, s.statusWord), (.result, s.result), (.srcAddr, s.srcAddr), (.srcLen, s.srcLen),
          (.dstAddr, s.dstAddr), (.dstLen, s.dstLen), (.cfgstat, s.cfgstatWord), (.reserved, 0)] →
        step s = .next { s with inputs := rest, seen := .reg r x :: s.seen })

/-- R35, R37, R32, R38, R39: what a read of STATUS and of CFGSTAT answers, field by field, that a read of RESULT answers the register
and one of the reserved word 0, and that writes to the four are ignored, with or without a command in progress. -/
def Obligations.StatusAndCfgstatFields : Prop :=
  ∀ (s : State) (rest : List Input), s.platform.windowFits → s.inReset = false →
    (s.inputs = s.platform.rd .status :: rest → ∃ v : Word,
        step s = .next { s with inputs := rest, seen := .reg .status v :: s.seen }
          ∧ v.getLsbD 0 = s.busy ∧ v.getLsbD 1 = s.done ∧ v.getLsbD 2 = s.fault ∧ v.getLsbD 3 = s.ovr
          ∧ v.extractLsb' 4 4 = (0 : BitVec 4) ∧ v.extractLsb' 8 4 = s.err.code ∧ v.extractLsb' 12 20 = (0 : BitVec 20))
      ∧ (s.inputs = s.platform.rd .cfgstat :: rest → ∃ v : Word,
        step s = .next { s with inputs := rest, seen := .reg .cfgstat v :: s.seen }
          ∧ v.getLsbD 0 = s.encValid ∧ v.getLsbD 1 = s.encPadEn ∧ v.extractLsb' 2 6 = (0 : BitVec 6)
          ∧ v.extractLsb' 8 8 = s.encPad ∧ v.getLsbD 16 = s.decValid ∧ v.getLsbD 17 = s.decPadEn
          ∧ v.extractLsb' 18 6 = (0 : BitVec 6) ∧ v.extractLsb' 24 8 = s.decPad)
      ∧ (s.inputs = s.platform.rd .result :: rest → step s = .next { s with inputs := rest, seen := .reg .result s.result :: s.seen })
      ∧ (s.inputs = s.platform.rd .reserved :: rest → step s = .next { s with inputs := rest, seen := .reg .reserved 0 :: s.seen })
      ∧ ∀ (r : Reg) (w : Word), r ∈ [Reg.status, Reg.result, Reg.cfgstat, Reg.reserved] → s.inputs = s.platform.wr r w :: rest →
        step s = .next { s with inputs := rest }

/-- R278: while a command is in progress RESULT keeps the value the last completion wrote (0 after reset) and ERR reads NONE:
issue keeps RESULT, and so does every step after which the command is still in progress. -/
def Obligations.ResultIsStaleWhileBusy : Prop :=
  ∀ s t : State, step s = .next t → t.engine ≠ none → s.statusInv → t.result = s.result ∧ t.err = .none

/-- R277: the four host actions outside the contract stop the machine, each by name. What closes to the outside is the source
region of the command in progress and its `region(DST_ADDR, DST_LEN)`, whatever the command (log 10); a register access is judged
by its offset from REG_BASE (log 13) and stops under reset too (log 14); a region that is not ordinary memory stops the CMD write
that issues the command, and `exec` before its other checks (log 9). -/
def Obligations.OutOfContractActionsFault : Prop :=
  (∀ (s : State) (e : Engine) (a : Word) (w : Option Byte) (rest : List Input), s.engine = some e →
      ((∃ i, decodeWord e.cmd = .ok i ∧ (e.sourceOf i).base ≤ a.toNat
          ∧ a.toNat < (e.sourceOf i).base + (e.sourceOf i).len)
        ∨ e.dstAddr.toNat ≤ a.toNat ∧ a.toNat < e.dstAddr.toNat + e.dstLen.toNat) →
      (s.inputs = .memory .host a w :: rest → step s = .fault .hostInRegion)
        ∧ (s.inputs = .memory .other a w :: rest → step s = .fault .masterInRegion))
    ∧ (∀ (s : State) (a : BusAccess) (rest : List Input), s.inputs = .access a :: rest → 0 < a.bytes →
      a.addr.toNat < s.platform.regBase.toNat + 36 → s.platform.regBase.toNat < a.addr.toNat + a.bytes →
      (a.bytes ≠ 4 ∨ a.addr.toNat < s.platform.regBase.toNat ∨ (a.addr.toNat - s.platform.regBase.toNat) % 4 ≠ 0
        ∨ s.platform.regBase.toNat + 36 < a.addr.toNat + 4) →
      step s = .fault .registerAccess)
    ∧ (∀ (s : State) (i : Instr) (w : Word) (rest : List Input), s.platform.windowFits → s.inReset = false → s.engine = none →
      s.inputs = s.platform.wr .cmd w :: rest → decodeWord w = .ok i →
      (¬s.platform.ordinaryOn ((s.latch w).sourceOf i) ∨ ¬s.platform.ordinaryOn ((s.latch w).destinationOf i)) →
      step s = .fault .notOrdinary)
    ∧ (∀ (s : State) (e : Engine) (i : Instr), s.engine = some e →
      (¬s.platform.ordinaryOn (e.sourceOf i) ∨ ¬s.platform.ordinaryOn (e.destinationOf i)) →
      exec i s = .fault .notOrdinary)

/-- R109, `poll`: a read of STATUS, again while its bit 0 is 1; the read that sees 0 ends the loop. `k` is how many more reads see
BUSY = 1 before the engine's turn (LATENCY, log 7). -/
def Obligations.PollReadsUntilIdle : Prop :=
  ∀ (s : State) (k : Nat) (rest : List Input), s.inReset = false →
    (s.inputs = .poll k :: rest → s.engine = none → ∃ v : Word, v.getLsbD 0 = false
        ∧ step s = .next { s with inputs := rest, seen := .reg .status v :: s.seen })
      ∧ (s.inputs = .poll (k + 1) :: rest → s.engine ≠ none → ∃ v : Word, v.getLsbD 0 = true
        ∧ step s = .next { s with inputs := .poll k :: rest, seen := .reg .status v :: s.seen })
      ∧ (∀ t : State, s.inputs = .poll 0 :: rest → s.engine ≠ none → step s = .next t → t.engine = none ∧ t.inputs = s.inputs)

/-- A load and a store of ordinary memory by the host, outside a running command's regions (20_memory.md R75, R81): the host sees
the last byte written, and a store changes that byte only. That a store is in memory at once and that what a load returns is
recorded in `seen` is the model's form (log 15); a host that does not meet the ordering duty of R81 is left out (log 17). -/
def Obligations.HostLoadsAndStores : Prop :=
  ∀ (s : State) (a : Word) (rest : List Input), s.inCommandRegion a.toNat = false → s.platform.ordinaryAt a.toNat = true →
    (s.inputs = .memory .host a none :: rest → step s = .next
        { s with inputs := rest, seen := .byte a (s.mem.read a.toNat) :: s.seen })
      ∧ (∀ v : Byte, s.mem.wf = true → s.inputs = .memory .host a (some v) :: rest → ∃ m : Memory,
        step s = .next { s with inputs := rest, mem := m } ∧ m.read a.toNat = v
          ∧ ∀ b : Nat, b ≠ a.toNat → m.read b = s.mem.read b)

/-- R270, R47: while reset is asserted reads answer 0 and writes have no effect, and its release leaves every piece of the block's
state at its reset value; the tables' contents are unspecified, so they are some `A` and `T` of which nothing is said. -/
def Obligations.ResetMutesAndClears : Prop :=
  ∀ (s : State) (r : Reg) (v : Word) (rest : List Input), s.platform.windowFits → s.inReset = true →
    (s.inputs = s.platform.rd r :: rest → step s = .next { s with inputs := rest, seen := .reg r 0 :: s.seen })
      ∧ (s.inputs = s.platform.wr r v :: rest → step s = .next { s with inputs := rest })
      ∧ (s.inputs = .releaseReset :: rest → ∃ (A : Alphabet) (T : Inverse) (d : Nat), step s = .next
          { result := 0, srcAddr := 0, srcLen := 0, dstAddr := 0, dstLen := 0
            done := false, fault := false, ovr := false, err := .none
            encAlpha := A, encPadEn := false, encPad := 0, encValid := false
            decInv := T, decPadEn := false, decPad := 0, decValid := false
            engine := none, mem := s.mem, inReset := false, platform := s.platform, inputs := rest, seen := s.seen, drawn := d })

/-- R272: asserting reset while a command is in progress abandons it. Any byte of its `region(DST_ADDR, DST_LEN)`, whatever the
command, may hold any value, in the model's form a free value drawn for it (log 3); of a region that runs past the address space
these are its existing bytes (log 11). Memory outside is unchanged. -/
def Obligations.ResetAbandonsTheCommand : Prop :=
  ∀ (s : State) (rest : List Input), s.inputs = .assertReset :: rest →
    ∃ (m : Memory) (d : Nat), step s = .next { s with inputs := rest, engine := none, inReset := true, mem := m, drawn := d }
      ∧ (∀ (e : Engine) (a : Nat), s.engine = some e →
          (a < e.dstAddr.toNat ∨ e.dstAddr.toNat + e.dstLen.toNat ≤ a) → m.read a = s.mem.read a)
      ∧ (∀ (e : Engine) (k : Nat), s.mem.wf = true → s.engine = some e → k < e.dstLen.toNat →
          e.dstAddr.toNat + k < 4294967296 → m.read (e.dstAddr.toNat + k) = Config.freeByte (s.drawn + k))
      ∧ (s.engine = none → m = s.mem)

/-- R47: the state after reset, where the spec gives a value. -/
def Obligations.ResetValues : Prop :=
  State.reset.statusWord = 0 ∧ State.reset.result = 0 ∧ State.reset.srcAddr = 0 ∧ State.reset.srcLen = 0
    ∧ State.reset.dstAddr = 0 ∧ State.reset.dstLen = 0 ∧ State.reset.cfgstatWord = 0
    ∧ State.reset.encValid = false ∧ State.reset.encPadEn = false ∧ State.reset.encPad = 0
    ∧ State.reset.decValid = false ∧ State.reset.decPadEn = false ∧ State.reset.decPad = 0
    ∧ State.reset.engine = none

/-! ### Invariants of every step -/

/-- The memory stays canonical (the model's own form, log 1). -/
def Obligations.MemoryStaysCanonical : Prop :=
  ∀ s t : State, s.mem.wf = true → step s = .next t → t.mem.wf = true

/-- R42, with R40 and R41: both configurations keep their invariant. -/
def Obligations.ConfigurationStaysValid : Prop :=
  ∀ s t : State, s.encoderInv → s.decoderInv → step s = .next t → t.encoderInv ∧ t.decoderInv

/-- R35, R36: what STATUS may show stays so. -/
def Obligations.StatusStaysConsistent : Prop :=
  ∀ s t : State, s.statusInv → step s = .next t → t.statusInv

/-- R75: the regions of the command in progress stay ordinary memory, since a CMD write that would issue another stops (R277 case
3): so `exec` of a command the host issued never stops over them. -/
def Obligations.RunningRegionsStayOrdinary : Prop :=
  ∀ s t : State, s.runningOrdinary → step s = .next t → t.runningOrdinary

/-- The reset state meets the four invariants. -/
def Obligations.ResetMeetsTheInvariants : Prop :=
  State.reset.mem.wf = true ∧ State.reset.encoderInv ∧ State.reset.decoderInv ∧ State.reset.statusInv
    ∧ State.reset.runningOrdinary

/-- R35, R244, R276: FAULT and OVR, once set, stay set over every step but the release of reset. -/
def Obligations.FaultAndOvrAreSticky : Prop :=
  ∀ s t : State, step s = .next t → (∀ rest, s.inputs ≠ .releaseReset :: rest) →
    (s.fault = true → t.fault = true) ∧ (s.ovr = true → t.ovr = true)

/-- R40, R41, R84: over every step but the release of reset, the encoder's configuration changes only where the command in progress
is an ENC_CFG, and the decoder's only where it is a DEC_CFG: no store to the alphabet's bytes does it. -/
def Obligations.OnlyCfgChangesTheTables : Prop :=
  ∀ s t : State, step s = .next t → (∀ rest, s.inputs ≠ .releaseReset :: rest) →
    ((∀ e pe p, s.engine = some e → decodeWord e.cmd ≠ .ok (.encCfg pe p)) →
        t.encAlpha = s.encAlpha ∧ t.encPadEn = s.encPadEn ∧ t.encPad = s.encPad ∧ t.encValid = s.encValid)
      ∧ ((∀ e pe p, s.engine = some e → decodeWord e.cmd ≠ .ok (.decCfg pe p)) →
        t.decInv = s.decInv ∧ t.decPadEn = s.decPadEn ∧ t.decPad = s.decPad ∧ t.decValid = s.decValid)
end

