-- ==== Sys2Proof/Laws/Operands.lean ====
section
/-! SUPPORT. The checks on regions, from the Booleans the meanings compute to what the rules say (00_scope.md R15, 20_memory.md R75, R77). -/
namespace Sys2Proof.Machine

@[simp] theorem Region.has_iff (r : Region) (a : Nat) : r.has a = true ↔ r.base ≤ a ∧ a < r.base + r.len := by
  simp [Region.has]

@[simp] theorem Region.wellformed_iff (r : Region) : r.wellformed = true ↔ r.base + r.len ≤ 4294967296 := by
  simp [Region.wellformed, Config.addrSpace]

/-- Two regions overlap exactly when they share an address. -/
theorem Region.overlaps_iff (r q : Region) : r.overlaps q = true ↔ ∃ a, r.has a = true ∧ q.has a = true := by
  constructor
  · intro h
    simp only [Region.overlaps, Bool.and_eq_true, decide_eq_true_eq] at h
    refine ⟨max r.base q.base, ?_, ?_⟩ <;> rw [Region.has_iff] <;> omega
  · rintro ⟨a, h, k⟩
    rw [Region.has_iff] at h k
    simp only [Region.overlaps, Bool.and_eq_true, decide_eq_true_eq]
    omega

/-- The check on a region is that each of its addresses is ordinary memory. -/
theorem Platform.ordinary_iff (p : Platform) (r : Region) : p.ordinary r = true ↔ p.ordinaryOn r := by
  constructor
  · intro h a ha hb
    rw [Platform.ordinaryAt, List.all_eq_true]
    intro q hq
    by_contra hc
    have hov : r.overlaps q = true := (Region.overlaps_iff r q).2 ⟨a, (Region.has_iff r a).2 ⟨ha, hb⟩, by simpa using hc⟩
    simpa [hov] using List.all_eq_true.1 h q hq
  · intro h
    rw [Platform.ordinary, List.all_eq_true]
    intro q hq
    by_contra hc
    obtain ⟨a, ha, hqa⟩ := (Region.overlaps_iff r q).1 (by simpa using hc)
    have hr := (Region.has_iff r a).1 ha
    have := List.all_eq_true.1 (h a hr.1 hr.2) q hq
    simp [hqa] at this

theorem Platform.not_ordinary_iff (p : Platform) (r : Region) : p.ordinary r = false ↔ ¬p.ordinaryOn r := by
  rw [← Platform.ordinary_iff, Bool.not_eq_true]

/-- The host's duty towards a command (R75), as the statements say it. -/
theorem State.regionsOrdinary_iff {s : State} {e : Engine} (he : s.engine = some e) (i : Instr) :
    s.regionsOrdinary i = true ↔ s.platform.ordinaryOn (e.sourceOf i) ∧ s.platform.ordinaryOn (e.destinationOf i) := by
  have hr : s.running = e := by simp [State.running, he]
  simp [State.regionsOrdinary, hr, Platform.ordinary_iff]

/-- When a CMD write stops the machine (R75, R277 case 3). -/
theorem State.issuesNotOrdinary_iff (r : Reg) (write : Option Word) (s : State) :
    s.issuesNotOrdinary r write = true ↔
      r = .cmd ∧ ∃ w i, write = some w ∧ decodeWord w = .ok i ∧ s.inReset = false ∧ s.engine = none
        ∧ ¬(s.platform.ordinaryOn ((s.latch w).sourceOf i) ∧ s.platform.ordinaryOn ((s.latch w).destinationOf i)) := by
  cases write with
  | none => cases r <;> simp [State.issuesNotOrdinary]
  | some w =>
    cases r
    case cmd =>
      cases hw : decodeWord w with
      | error k => simp [State.issuesNotOrdinary, hw]
      | ok i =>
        have hr : (s.issue w).regionsOrdinary i = true ↔
            s.platform.ordinaryOn ((s.latch w).sourceOf i) ∧ s.platform.ordinaryOn ((s.latch w).destinationOf i) :=
          State.regionsOrdinary_iff (s := s.issue w) rfl i
        have hn : (s.issue w).regionsOrdinary i = false ↔
            ¬(s.platform.ordinaryOn ((s.latch w).sourceOf i) ∧ s.platform.ordinaryOn ((s.latch w).destinationOf i)) := by
          rw [← hr, Bool.not_eq_true]
        simp only [State.issuesNotOrdinary, hw, State.busy, Bool.and_eq_true, Bool.not_eq_true', hn]
        simp [hw, and_assoc]
    all_goals simp [State.issuesNotOrdinary]

theorem Engine.sourceRegion_of_ok {e : Engine} {i : Instr} (h : decodeWord e.cmd = .ok i) :
    e.sourceRegion = e.sourceOf i := by
  simp [Engine.sourceRegion, Engine.instr?, h, Except.toOption]

theorem Engine.sourceRegion_of_error {e : Engine} {k : Illegal} (h : decodeWord e.cmd = .error k) :
    e.sourceRegion = .empty := by
  simp [Engine.sourceRegion, Engine.instr?, h, Except.toOption]

/-- The addresses a command in progress closes (R277 cases 1 and 4). -/
theorem State.inCommandRegion_iff (s : State) (a : Nat) :
    s.inCommandRegion a = true ↔ ∃ e, s.engine = some e ∧ (e.sourceRegion.has a = true ∨ e.destination.has a = true) := by
  cases h : s.engine <;> simp [State.inCommandRegion, h]

/-- A region that holds no address is ordinary memory. -/
theorem Platform.ordinaryOn_empty (p : Platform) : p.ordinaryOn Region.empty := by
  intro a h k
  simp only [Region.empty] at h k
  omega

/-- The check on the buffers of ENCODE and DECODE is R77's. -/
theorem Engine.regionsOk_iff (e : Engine) : e.regionsOk = true ↔ e.buffersOk := by
  have hov : e.source.overlaps e.destination = false ↔ ¬∃ a, e.source.has a = true ∧ e.destination.has a = true := by
    rw [← Region.overlaps_iff, Bool.not_eq_true]
  simp only [Engine.regionsOk, Bool.and_eq_true, Bool.not_eq_true', hov, Region.wellformed_iff, Region.has_iff, not_exists,
    and_assoc]
  rfl

/-- The first check of the CFG commands. -/
theorem Engine.cfgContractOk_iff (e : Engine) :
    e.cfgContractOk = true ↔ e.srcLen = 32 ∧ e.srcAddr.toNat + 32 ≤ 4294967296 := by
  have h : e.srcLen.toNat = 32 ↔ e.srcLen = 32 := by
    constructor
    · intro h; exact BitVec.eq_of_toNat_eq h
    · intro h; rw [h]; rfl
  simp [Engine.cfgContractOk, Engine.alphabetRegion, Config.alphaN, h]

/-- An access of a well-formed region does not wrap. -/
theorem Word.add_toNat_of_le (a i : Word) (h : a.toNat + i.toNat < 4294967296) : (a + i).toNat = a.toNat + i.toNat := by
  rw [BitVec.toNat_add]
  exact Nat.mod_eq_of_lt h

/-- The bus address of a register, without wrap. -/
theorem Platform.regAddr_toNat {p : Platform} (h : p.windowFits) (r : Reg) :
    (p.regAddr r).toNat = p.regBase.toNat + r.offset := by
  unfold Platform.windowFits at h
  unfold Platform.regAddr
  rw [Word.add_toNat_of_le] <;> cases r <;> simp [Reg.offset]
  all_goals omega

/-- The accesses of `wr` and `rd` are ones the window has (10_state.md R39, 30_encoding.md R108). -/
theorem Platform.allows_regAddr {p : Platform} (h : p.windowFits) (r : Reg) (x : Option Word) :
    p.allows ⟨p.regAddr r, 4, x⟩ = true := by
  simp only [Platform.allows, Platform.regAddr_toNat h, Config.windowBytes]
  cases r <;> simp [Reg.offset]

/-- They reach the register they name. -/
theorem Platform.regAt_regAddr {p : Platform} (h : p.windowFits) (r : Reg) (x : Option Word) :
    p.regAt ⟨p.regAddr r, 4, x⟩ = r := by
  simp only [Platform.regAt, Platform.regAddr_toNat h]
  cases r <;> simp [Reg.offset, Reg.ofOffset]

end Sys2Proof.Machine
end

