-- ==== Sys2Proof/Laws/Memory.lean ====
section
/-! SUPPORT. The laws of the memory operations: a read after a write, and the canonical form kept by each of them. -/
namespace Sys2Proof.Machine

@[simp] theorem Memory.read_nil (a : Nat) : Memory.read [] a = Memory.unlisted := rfl

@[simp] theorem Memory.wf_nil : Memory.wf [] = true := rfl

theorem Memory.read_cons (k : Nat) (v : Byte) (rest : Memory) (a : Nat) :
    Memory.read ((k, v) :: rest) a = if k = a then v else Memory.read rest a := rfl

theorem Memory.wfFrom_cons (lo k : Nat) (v : Byte) (rest : Memory) :
    Memory.wfFrom lo ((k, v) :: rest) = true ↔
      lo ≤ k ∧ k < Config.addrSpace ∧ v ≠ Memory.unlisted ∧ Memory.wfFrom (k + 1) rest = true := by
  simp [Memory.wfFrom, and_assoc]

/-- A canonical memory from a higher address is one from a lower address. -/
theorem Memory.wfFrom_mono {lo hi : Nat} (h : lo ≤ hi) : ∀ {m : Memory}, m.wfFrom hi = true → m.wfFrom lo = true
  | [], _ => rfl
  | (k, v) :: rest, hm => by
    rw [Memory.wfFrom_cons] at hm ⊢
    exact ⟨h.trans hm.1, hm.2⟩

/-- Nothing is listed below the first address. -/
theorem Memory.read_below {lo a : Nat} (h : a < lo) : ∀ {m : Memory}, m.wfFrom lo = true → m.read a = Memory.unlisted
  | [], _ => rfl
  | (k, v) :: rest, hm => by
    rw [Memory.wfFrom_cons] at hm
    rw [Memory.read_cons, if_neg (by omega)]
    exact Memory.read_below (by omega) hm.2.2.2

/-- A write leaves every other address alone. -/
theorem Memory.read_write_of_ne {a b : Nat} (h : b ≠ a) (v : Byte) :
    ∀ m : Memory, (m.write a v).read b = m.read b
  | [] => by
    by_cases hv : v = Memory.unlisted <;> simp [Memory.write, hv, Memory.read_cons, h.symm]
  | (k, w) :: rest => by
    have ih := Memory.read_write_of_ne h v rest
    by_cases hk : k < a
    · simp [Memory.write, hk, Memory.read_cons, ih]
    · by_cases hka : k = a
      · subst hka
        by_cases hv : v = Memory.unlisted <;> simp [Memory.write, hv, Memory.read_cons, h.symm]
      · by_cases hv : v = Memory.unlisted <;> simp [Memory.write, hk, hka, hv, Memory.read_cons, h.symm]

/-- A read after a write to the same address gives the byte written. -/
theorem Memory.read_write_self_from (a : Nat) (v : Byte) :
    ∀ {m : Memory} {lo : Nat}, m.wfFrom lo = true → (m.write a v).read a = v
  | [], _, _ => by
    by_cases hv : v = Memory.unlisted <;> simp [Memory.write, hv, Memory.read_cons]
  | (k, w) :: rest, lo, hm => by
    rw [Memory.wfFrom_cons] at hm
    have ih := Memory.read_write_self_from a v hm.2.2.2
    by_cases hk : k < a
    · have hne : k ≠ a := by omega
      simp [Memory.write, hk, Memory.read_cons, hne, ih]
    · by_cases hka : k = a
      · subst hka
        by_cases hv : v = Memory.unlisted
        · simp [Memory.write, hv, Memory.read_below (Nat.lt_succ_self k) hm.2.2.2]
        · simp [Memory.write, hv, Memory.read_cons]
      · by_cases hv : v = Memory.unlisted
        · have hlt : a < k + 1 := by omega
          simp [Memory.write, hk, hka, hv, Memory.read_cons, Memory.read_below hlt hm.2.2.2]
        · simp [Memory.write, hk, hka, hv, Memory.read_cons]

theorem Memory.read_write_self {m : Memory} (h : m.wf = true) (a : Nat) (v : Byte) : (m.write a v).read a = v :=
  Memory.read_write_self_from a v h

/-- A write inside the address space keeps the canonical form. -/
theorem Memory.write_wfFrom {a : Nat} (ha : a < Config.addrSpace) (v : Byte) :
    ∀ {m : Memory} {lo : Nat}, lo ≤ a → m.wfFrom lo = true → (m.write a v).wfFrom lo = true
  | [], lo, hlo, _ => by
    by_cases hv : v = Memory.unlisted
    · simp [Memory.write, hv, Memory.wfFrom]
    · simp [Memory.write, hv, Memory.wfFrom, hlo, ha]
  | (k, w) :: rest, lo, hlo, hm => by
    have hm' := (Memory.wfFrom_cons lo k w rest).1 hm
    by_cases hk : k < a
    · have ih := Memory.write_wfFrom ha v (m := rest) (lo := k + 1) hk hm'.2.2.2
      simp only [Memory.write, hk, if_true]
      exact (Memory.wfFrom_cons ..).2 ⟨hm'.1, hm'.2.1, hm'.2.2.1, ih⟩
    · by_cases hka : k = a
      · subst hka
        by_cases hv : v = Memory.unlisted
        · simp only [Memory.write, hk, hv, if_true, if_false]
          exact Memory.wfFrom_mono (by omega) hm'.2.2.2
        · simp only [Memory.write, hk, hv, if_true, if_false]
          exact (Memory.wfFrom_cons ..).2 ⟨hlo, ha, hv, hm'.2.2.2⟩
      · by_cases hv : v = Memory.unlisted
        · simpa only [Memory.write, hk, hka, hv, if_true, if_false] using hm
        · simp only [Memory.write, hk, hka, hv, if_false]
          refine (Memory.wfFrom_cons ..).2 ⟨hlo, ha, hv, ?_⟩
          exact (Memory.wfFrom_cons ..).2 ⟨by omega, hm'.2⟩

theorem Memory.write_wf {m : Memory} (h : m.wf = true) {a : Nat} (ha : a < Config.addrSpace) (v : Byte) :
    (m.write a v).wf = true :=
  Memory.write_wfFrom ha v (Nat.zero_le a) h

/-- A 32-bit address is inside the address space. -/
theorem word_lt_addrSpace (a : Word) : a.toNat < Config.addrSpace := a.isLt

/-- Two canonical memories that read the same everywhere are the same list. -/
theorem Memory.ext_of_read :
    ∀ {m q : Memory} {lo : Nat}, m.wfFrom lo = true → q.wfFrom lo = true → (∀ a, m.read a = q.read a) → m = q
  | [], [], _, _, _, _ => rfl
  | [], (k, v) :: rest, lo, _, hq, h => by
    have hq' := (Memory.wfFrom_cons lo k v rest).1 hq
    have := h k
    simp [Memory.read_cons] at this
    exact absurd this.symm hq'.2.2.1
  | (k, v) :: rest, [], lo, hm, _, h => by
    have hm' := (Memory.wfFrom_cons lo k v rest).1 hm
    have := h k
    simp [Memory.read_cons] at this
    exact absurd this hm'.2.2.1
  | (k, v) :: rest, (j, w) :: tail, lo, hm, hq, h => by
    have hm' := (Memory.wfFrom_cons lo k v rest).1 hm
    have hq' := (Memory.wfFrom_cons lo j w tail).1 hq
    have hkj : k = j := by
      rcases Nat.lt_trichotomy k j with hlt | heq | hgt
      · have hk := h k
        rw [Memory.read_cons, if_pos rfl, Memory.read_cons, if_neg (by omega),
          Memory.read_below (by omega) hq'.2.2.2] at hk
        exact absurd hk hm'.2.2.1
      · exact heq
      · have hj := h j
        rw [Memory.read_cons, if_neg (by omega), Memory.read_below (by omega) hm'.2.2.2,
          Memory.read_cons, if_pos rfl] at hj
        exact absurd hj.symm hq'.2.2.1
    subst hkj
    have hvw : v = w := by simpa [Memory.read_cons] using h k
    subst hvw
    have hrest : rest = tail := by
      refine Memory.ext_of_read hm'.2.2.2 hq'.2.2.2 fun a => ?_
      by_cases ha : k = a
      · subst ha
        rw [Memory.read_below (Nat.lt_succ_self k) hm'.2.2.2, Memory.read_below (Nat.lt_succ_self k) hq'.2.2.2]
      · simpa [Memory.read_cons, ha] using h a
    rw [hrest]

/-! ### Runs of bytes -/

@[simp] theorem Memory.bytes_length (m : Memory) (a n : Nat) : (m.bytes a n).length = n := by
  induction n generalizing a with
  | zero => rfl
  | succ n ih => simp [Memory.bytes, ih]

/-- A run of bytes reads as each of its bytes. -/
theorem Memory.bytes_getElem (m : Memory) (a n k : Nat) (h : k < (m.bytes a n).length) :
    (m.bytes a n)[k] = m.read (a + k) := by
  induction n generalizing a k with
  | zero => simp [Memory.bytes] at h
  | succ n ih =>
    cases k with
    | zero => rfl
    | succ k => simp [Memory.bytes, ih, Nat.add_assoc, Nat.add_comm 1 k]

/-- Writing a run of bytes leaves every address outside it alone. -/
theorem Memory.read_writeBytes_outside (bytes : List Byte) :
    ∀ (m : Memory) (a b : Nat), (b < a ∨ a + bytes.length ≤ b) → (m.writeBytes a bytes).read b = m.read b := by
  induction bytes with
  | nil => intro m a b _; rfl
  | cons v rest ih =>
    intro m a b h
    simp only [List.length_cons] at h
    rw [Memory.writeBytes, ih _ _ _ (by omega), Memory.read_write_of_ne (by omega)]

/-- Writing a run of bytes inside the address space keeps the canonical form. -/
theorem Memory.writeBytes_wf (bytes : List Byte) :
    ∀ {m : Memory} {a : Nat}, a + bytes.length ≤ Config.addrSpace → m.wf = true → (m.writeBytes a bytes).wf = true := by
  induction bytes with
  | nil => intro m a _ h; exact h
  | cons v rest ih =>
    intro m a ha h
    simp only [List.length_cons] at ha
    exact ih (by omega) (Memory.write_wf h (by omega) v)

/-- A run of bytes written reads back. -/
theorem Memory.read_writeBytes_inside (bytes : List Byte) :
    ∀ {m : Memory} {a : Nat}, a + bytes.length ≤ Config.addrSpace → m.wf = true →
      ∀ k (hk : k < bytes.length), (m.writeBytes a bytes).read (a + k) = bytes[k] := by
  induction bytes with
  | nil => intro m a _ _ k hk; simp at hk
  | cons v rest ih =>
    intro m a ha h k hk
    simp only [List.length_cons] at ha hk
    have hw := Memory.write_wf h (show a < Config.addrSpace by omega) v
    cases k with
    | zero =>
      rw [Memory.writeBytes, Memory.read_writeBytes_outside _ _ _ _ (by omega)]
      exact Memory.read_write_self h a v
    | succ k =>
      rw [Memory.writeBytes, show a + (k + 1) = (a + 1) + k by omega]
      exact ih (by omega) hw k (by omega)

/-! ### Free values -/

/-- Scrambling a run leaves every address outside it alone. -/
theorem Memory.read_scramble_outside (m : Memory) (a k : Nat) :
    ∀ n b : Nat, (b < a ∨ a + n ≤ b) → (m.scramble a k n).read b = m.read b := by
  intro n
  induction n with
  | zero => intro b _; rfl
  | succ n ih =>
    intro b h
    rw [Memory.scramble, Memory.read_write_of_ne (by omega), ih b (by omega)]

/-- Scrambling inside the address space keeps the canonical form. -/
theorem Memory.scramble_wf {m : Memory} (h : m.wf = true) (a k : Nat) :
    ∀ n : Nat, a + n ≤ Config.addrSpace → (m.scramble a k n).wf = true := by
  intro n
  induction n with
  | zero => intro _; exact h
  | succ n ih => intro hn; exact Memory.write_wf (ih (by omega)) (by omega) _

/-- A scrambled byte is the free value drawn for it. -/
theorem Memory.read_scramble_inside {m : Memory} (h : m.wf = true) (a k : Nat) :
    ∀ n : Nat, a + n ≤ Config.addrSpace → ∀ j < n, (m.scramble a k n).read (a + j) = Config.freeByte (k + j) := by
  intro n
  induction n with
  | zero => intro _ j hj; exact absurd hj (Nat.not_lt_zero j)
  | succ n ih =>
    intro hn j hj
    rcases Nat.lt_succ_iff_lt_or_eq.1 hj with hlt | heq
    · rw [Memory.scramble, Memory.read_write_of_ne (by omega), ih (by omega) j hlt]
    · subst heq
      exact Memory.read_write_self (Memory.scramble_wf h a k j (by omega)) _ _

/-- The addresses of a region that `State.scramble` reaches lie in the address space. -/
theorem Region.clippedLen_le (r : Region) (h : r.base ≤ Config.addrSpace) :
    r.base + r.clippedLen ≤ Config.addrSpace := by
  unfold Region.clippedLen
  omega

theorem Region.clippedLen_le_len (r : Region) : r.clippedLen ≤ r.len := Nat.min_le_left _ _

/-- A well-formed region exists whole. -/
theorem Region.clippedLen_of_wellformed {r : Region} (h : r.wellformed = true) : r.clippedLen = r.len := by
  have : r.base + r.len ≤ Config.addrSpace := by simpa [Region.wellformed] using h
  unfold Region.clippedLen
  omega

theorem State.scramble_wf (s : State) {r : Region} (hr : r.base ≤ Config.addrSpace) (h : s.mem.wf = true) :
    (s.scramble r).mem.wf = true :=
  Memory.scramble_wf h _ _ _ (r.clippedLen_le hr)

/-- The reset state's memory is canonical. -/
theorem reset_mem_wf : State.reset.mem.wf = true := rfl

end Sys2Proof.Machine
end

