-- ==== Sys2Proof/Laws/Pipe.lean ====
section
/-! SUPPORT. What a step of the pipelines can do: the latched word and operands stay (`Engine.sameOperands`), the memory stays
canonical, and every write is at `DST_ADDR + o`. -/
namespace Sys2Proof.Machine

/-- The latched word and operands of two engine records agree (10_state.md R44): no iteration of a loop writes them. -/
def Engine.sameOperands (e f : Engine) : Prop :=
  e.cmd = f.cmd ∧ e.srcAddr = f.srcAddr ∧ e.srcLen = f.srcLen ∧ e.dstAddr = f.dstAddr ∧ e.dstLen = f.dstLen

theorem Engine.sameOperands_refl (e : Engine) : e.sameOperands e := ⟨rfl, rfl, rfl, rfl, rfl⟩

theorem Engine.sameOperands_trans {e f g : Engine} (h : e.sameOperands f) (k : f.sameOperands g) : e.sameOperands g :=
  ⟨h.1.trans k.1, h.2.1.trans k.2.1, h.2.2.1.trans k.2.2.1, h.2.2.2.1.trans k.2.2.2.1, h.2.2.2.2.trans k.2.2.2.2⟩

/-- What every step of a pipeline keeps of the pair it started from. -/
def Pipe.keeps (p q : Pipe) : Prop := q.eng.sameOperands p.eng ∧ (p.mem.wf = true → q.mem.wf = true)

theorem Pipe.keeps_refl (p : Pipe) : p.keeps p := ⟨p.eng.sameOperands_refl, id⟩

theorem Pipe.keeps_trans {p q r : Pipe} (h : p.keeps q) (k : q.keeps r) : p.keeps r :=
  ⟨Engine.sameOperands_trans k.1 h.1, fun w => k.2 (h.2 w)⟩

@[simp] theorem Pipe.put_mem (v : Byte) (p : Pipe) :
    (p.put v).mem = p.mem.write (p.eng.dstAddr + p.eng.o).toNat v := rfl

@[simp] theorem Pipe.put_eng (v : Byte) (p : Pipe) : (p.put v).eng = { p.eng with o := p.eng.o + 1 } := rfl

theorem Pipe.keeps_put (v : Byte) (p : Pipe) : p.keeps (p.put v) :=
  ⟨⟨rfl, rfl, rfl, rfl, rfl⟩, fun h => Memory.write_wf h (word_lt_addrSpace _) v⟩

theorem Pipe.keeps_emitGroups (A : Alphabet) : ∀ (k : Nat) (p : Pipe), p.keeps (p.emitGroups A k)
  | 0, p => p.keeps_refl
  | k + 1, p => by
    unfold Pipe.emitGroups
    split
    · refine Pipe.keeps_trans (q := Pipe.put _ _) ?_ (Pipe.keeps_emitGroups A k _)
      exact ⟨⟨rfl, rfl, rfl, rfl, rfl⟩, fun h => Memory.write_wf h (word_lt_addrSpace _) _⟩
    · exact p.keeps_refl

theorem Pipe.keeps_encodeByte (A : Alphabet) (p : Pipe) : p.keeps (p.encodeByte A) :=
  Pipe.keeps_trans (q := { p with eng := _ }) ⟨⟨rfl, rfl, rfl, rfl, rfl⟩, id⟩ (Pipe.keeps_emitGroups A 3 _)

theorem Pipe.keeps_encodeBytes (A : Alphabet) : ∀ (k : Nat) (p : Pipe), p.keeps (p.encodeBytes A k)
  | 0, p => p.keeps_refl
  | k + 1, p => Pipe.keeps_trans (p.keeps_encodeByte A) (Pipe.keeps_encodeBytes A k _)

theorem Pipe.keeps_encodeLeftover (A : Alphabet) (p : Pipe) : p.keeps (p.encodeLeftover A) := by
  unfold Pipe.encodeLeftover
  split
  · exact p.keeps_refl
  · exact p.keeps_put _

theorem Pipe.keeps_padFill (pad : Byte) : ∀ (k : Nat) (p : Pipe), p.keeps (p.padFill pad k)
  | 0, p => p.keeps_refl
  | k + 1, p => Pipe.keeps_trans (p.keeps_put pad) (Pipe.keeps_padFill pad k _)

/-- The whole of ENCODE's pipeline. -/
theorem Pipe.keeps_encodeRest (A : Alphabet) (padEn : Bool) (pad : Byte) (len : Nat) (p : Pipe) :
    p.keeps (p.encodeRest A padEn pad len) := by
  have h := Pipe.keeps_trans (p.keeps_encodeBytes A (p.eng.srcLen.toNat - p.eng.i.toNat)) (Pipe.keeps_encodeLeftover A _)
  cases padEn
  · simpa [Pipe.encodeRest] using h
  · simpa [Pipe.encodeRest] using Pipe.keeps_trans h (Pipe.keeps_padFill pad _ _)

theorem Pipe.keeps_foldSymbol (x : Index) (p : Pipe) : p.keeps (p.foldSymbol x) := by
  unfold Pipe.foldSymbol
  dsimp only
  split
  · exact ⟨⟨rfl, rfl, rfl, rfl, rfl⟩, fun h => Memory.write_wf h (word_lt_addrSpace _) _⟩
  · exact ⟨⟨rfl, rfl, rfl, rfl, rfl⟩, id⟩

theorem Pipe.keeps_enterTail (p : Pipe) : p.keeps p.enterTail := ⟨⟨rfl, rfl, rfl, rfl, rfl⟩, id⟩

theorem Pipe.keeps_readSymbols (inv : Inverse) (padEn : Bool) (pad : Byte) :
    ∀ (k : Nat) {p q : Pipe}, p.readSymbols inv padEn pad k = .ok q → p.keeps q
  | 0, p, q, h => by
    obtain rfl : p = q := by simpa [Pipe.readSymbols] using h
    exact p.keeps_refl
  | k + 1, p, q, h => by
    unfold Pipe.readSymbols at h
    split at h
    · exact Pipe.keeps_trans (p.keeps_foldSymbol _) (Pipe.keeps_readSymbols inv padEn pad k h)
    · split at h
      · obtain rfl : p.enterTail = q := by simpa using h
        exact p.keeps_enterTail
      · simp at h

/-- The checks after the loop answer the pair they were given, or an error. -/
theorem Pipe.checkTail_ok {inv : Inverse} {pad : Byte} {p q : Pipe} (h : p.checkTail inv pad = .ok q) : q = p := by
  simp only [Pipe.checkTail] at h
  repeat' split at h
  all_goals first
    | exact (Except.ok.inj h).symm
    | simp at h

/-- An error of the checks after the loop is a typed one (42_decoder.md R194, R195). -/
theorem tailError_cases (inv : Inverse) (c : Byte) : tailError inv c = .invalidCharacter ∨ tailError inv c = .invalidPadding := by
  unfold tailError
  split <;> simp

/-- The whole of `unpack` when it answers `Ok`. -/
theorem Pipe.keeps_unpackRest {inv : Inverse} {padEn : Bool} {pad : Byte} {p q : Pipe}
    (h : p.unpackRest inv padEn pad = .ok q) : p.keeps q := by
  unfold Pipe.unpackRest at h
  split at h
  · split at h
    · simp at h
    · rename_i r hr
      obtain rfl := Pipe.checkTail_ok h
      exact Pipe.keeps_readSymbols inv padEn pad _ hr
  · obtain rfl := Pipe.checkTail_ok h
    exact Pipe.keeps_refl _
  · obtain rfl : p = q := by simpa using h
    exact Pipe.keeps_refl _

end Sys2Proof.Machine
end

