-- ==== Sys2Proof/Laws/State.lean ====
section
/-! SUPPORT. One lemma per field per named update of the state, true by `rfl`, so that no later proof unfolds a record update. -/
namespace Sys2Proof.Machine

/-! ### `State.issue` -/
@[simp] theorem State.issue_result (w : Word) (s : State) : (s.issue w).result = s.result := rfl
@[simp] theorem State.issue_srcAddr (w : Word) (s : State) : (s.issue w).srcAddr = s.srcAddr := rfl
@[simp] theorem State.issue_srcLen (w : Word) (s : State) : (s.issue w).srcLen = s.srcLen := rfl
@[simp] theorem State.issue_dstAddr (w : Word) (s : State) : (s.issue w).dstAddr = s.dstAddr := rfl
@[simp] theorem State.issue_dstLen (w : Word) (s : State) : (s.issue w).dstLen = s.dstLen := rfl
@[simp] theorem State.issue_done (w : Word) (s : State) : (s.issue w).done = false := rfl
@[simp] theorem State.issue_fault (w : Word) (s : State) : (s.issue w).fault = s.fault := rfl
@[simp] theorem State.issue_ovr (w : Word) (s : State) : (s.issue w).ovr = s.ovr := rfl
@[simp] theorem State.issue_err (w : Word) (s : State) : (s.issue w).err = .none := rfl
@[simp] theorem State.issue_encAlpha (w : Word) (s : State) : (s.issue w).encAlpha = s.encAlpha := rfl
@[simp] theorem State.issue_encPadEn (w : Word) (s : State) : (s.issue w).encPadEn = s.encPadEn := rfl
@[simp] theorem State.issue_encPad (w : Word) (s : State) : (s.issue w).encPad = s.encPad := rfl
@[simp] theorem State.issue_encValid (w : Word) (s : State) : (s.issue w).encValid = s.encValid := rfl
@[simp] theorem State.issue_decInv (w : Word) (s : State) : (s.issue w).decInv = s.decInv := rfl
@[simp] theorem State.issue_decPadEn (w : Word) (s : State) : (s.issue w).decPadEn = s.decPadEn := rfl
@[simp] theorem State.issue_decPad (w : Word) (s : State) : (s.issue w).decPad = s.decPad := rfl
@[simp] theorem State.issue_decValid (w : Word) (s : State) : (s.issue w).decValid = s.decValid := rfl
@[simp] theorem State.issue_engine (w : Word) (s : State) : (s.issue w).engine = some (s.latch w) := rfl
@[simp] theorem State.issue_mem (w : Word) (s : State) : (s.issue w).mem = s.mem := rfl
@[simp] theorem State.issue_inReset (w : Word) (s : State) : (s.issue w).inReset = s.inReset := rfl
@[simp] theorem State.issue_platform (w : Word) (s : State) : (s.issue w).platform = s.platform := rfl
@[simp] theorem State.issue_inputs (w : Word) (s : State) : (s.issue w).inputs = s.inputs := rfl
@[simp] theorem State.issue_seen (w : Word) (s : State) : (s.issue w).seen = s.seen := rfl
@[simp] theorem State.issue_drawn (w : Word) (s : State) : (s.issue w).drawn = s.drawn := rfl

/-! ### `State.complete` -/
@[simp] theorem State.complete_result (v : Word) (s : State) : (s.complete v).result = v := rfl
@[simp] theorem State.complete_srcAddr (v : Word) (s : State) : (s.complete v).srcAddr = s.srcAddr := rfl
@[simp] theorem State.complete_srcLen (v : Word) (s : State) : (s.complete v).srcLen = s.srcLen := rfl
@[simp] theorem State.complete_dstAddr (v : Word) (s : State) : (s.complete v).dstAddr = s.dstAddr := rfl
@[simp] theorem State.complete_dstLen (v : Word) (s : State) : (s.complete v).dstLen = s.dstLen := rfl
@[simp] theorem State.complete_done (v : Word) (s : State) : (s.complete v).done = true := rfl
@[simp] theorem State.complete_fault (v : Word) (s : State) : (s.complete v).fault = s.fault := rfl
@[simp] theorem State.complete_ovr (v : Word) (s : State) : (s.complete v).ovr = s.ovr := rfl
@[simp] theorem State.complete_err (v : Word) (s : State) : (s.complete v).err = .none := rfl
@[simp] theorem State.complete_encAlpha (v : Word) (s : State) : (s.complete v).encAlpha = s.encAlpha := rfl
@[simp] theorem State.complete_encPadEn (v : Word) (s : State) : (s.complete v).encPadEn = s.encPadEn := rfl
@[simp] theorem State.complete_encPad (v : Word) (s : State) : (s.complete v).encPad = s.encPad := rfl
@[simp] theorem State.complete_encValid (v : Word) (s : State) : (s.complete v).encValid = s.encValid := rfl
@[simp] theorem State.complete_decInv (v : Word) (s : State) : (s.complete v).decInv = s.decInv := rfl
@[simp] theorem State.complete_decPadEn (v : Word) (s : State) : (s.complete v).decPadEn = s.decPadEn := rfl
@[simp] theorem State.complete_decPad (v : Word) (s : State) : (s.complete v).decPad = s.decPad := rfl
@[simp] theorem State.complete_decValid (v : Word) (s : State) : (s.complete v).decValid = s.decValid := rfl
@[simp] theorem State.complete_engine (v : Word) (s : State) : (s.complete v).engine = none := rfl
@[simp] theorem State.complete_mem (v : Word) (s : State) : (s.complete v).mem = s.mem := rfl
@[simp] theorem State.complete_inReset (v : Word) (s : State) : (s.complete v).inReset = s.inReset := rfl
@[simp] theorem State.complete_platform (v : Word) (s : State) : (s.complete v).platform = s.platform := rfl
@[simp] theorem State.complete_inputs (v : Word) (s : State) : (s.complete v).inputs = s.inputs := rfl
@[simp] theorem State.complete_seen (v : Word) (s : State) : (s.complete v).seen = s.seen := rfl
@[simp] theorem State.complete_drawn (v : Word) (s : State) : (s.complete v).drawn = s.drawn := rfl

/-! ### `State.raiseError` -/
@[simp] theorem State.raiseError_result (k : Err) (s : State) : (s.raiseError k).result = 0 := rfl
@[simp] theorem State.raiseError_srcAddr (k : Err) (s : State) : (s.raiseError k).srcAddr = s.srcAddr := rfl
@[simp] theorem State.raiseError_srcLen (k : Err) (s : State) : (s.raiseError k).srcLen = s.srcLen := rfl
@[simp] theorem State.raiseError_dstAddr (k : Err) (s : State) : (s.raiseError k).dstAddr = s.dstAddr := rfl
@[simp] theorem State.raiseError_dstLen (k : Err) (s : State) : (s.raiseError k).dstLen = s.dstLen := rfl
@[simp] theorem State.raiseError_done (k : Err) (s : State) : (s.raiseError k).done = true := rfl
@[simp] theorem State.raiseError_fault (k : Err) (s : State) : (s.raiseError k).fault = s.fault := rfl
@[simp] theorem State.raiseError_ovr (k : Err) (s : State) : (s.raiseError k).ovr = s.ovr := rfl
@[simp] theorem State.raiseError_err (k : Err) (s : State) : (s.raiseError k).err = k := rfl
@[simp] theorem State.raiseError_encAlpha (k : Err) (s : State) : (s.raiseError k).encAlpha = s.encAlpha := rfl
@[simp] theorem State.raiseError_encPadEn (k : Err) (s : State) : (s.raiseError k).encPadEn = s.encPadEn := rfl
@[simp] theorem State.raiseError_encPad (k : Err) (s : State) : (s.raiseError k).encPad = s.encPad := rfl
@[simp] theorem State.raiseError_encValid (k : Err) (s : State) : (s.raiseError k).encValid = s.encValid := rfl
@[simp] theorem State.raiseError_decInv (k : Err) (s : State) : (s.raiseError k).decInv = s.decInv := rfl
@[simp] theorem State.raiseError_decPadEn (k : Err) (s : State) : (s.raiseError k).decPadEn = s.decPadEn := rfl
@[simp] theorem State.raiseError_decPad (k : Err) (s : State) : (s.raiseError k).decPad = s.decPad := rfl
@[simp] theorem State.raiseError_decValid (k : Err) (s : State) : (s.raiseError k).decValid = s.decValid := rfl
@[simp] theorem State.raiseError_engine (k : Err) (s : State) : (s.raiseError k).engine = none := rfl
@[simp] theorem State.raiseError_mem (k : Err) (s : State) : (s.raiseError k).mem = s.mem := rfl
@[simp] theorem State.raiseError_inReset (k : Err) (s : State) : (s.raiseError k).inReset = s.inReset := rfl
@[simp] theorem State.raiseError_platform (k : Err) (s : State) : (s.raiseError k).platform = s.platform := rfl
@[simp] theorem State.raiseError_inputs (k : Err) (s : State) : (s.raiseError k).inputs = s.inputs := rfl
@[simp] theorem State.raiseError_seen (k : Err) (s : State) : (s.raiseError k).seen = s.seen := rfl
@[simp] theorem State.raiseError_drawn (k : Err) (s : State) : (s.raiseError k).drawn = s.drawn := rfl

/-! ### `State.raiseFault` -/
@[simp] theorem State.raiseFault_result (k : Err) (s : State) : (s.raiseFault k).result = 0 := rfl
@[simp] theorem State.raiseFault_srcAddr (k : Err) (s : State) : (s.raiseFault k).srcAddr = s.srcAddr := rfl
@[simp] theorem State.raiseFault_srcLen (k : Err) (s : State) : (s.raiseFault k).srcLen = s.srcLen := rfl
@[simp] theorem State.raiseFault_dstAddr (k : Err) (s : State) : (s.raiseFault k).dstAddr = s.dstAddr := rfl
@[simp] theorem State.raiseFault_dstLen (k : Err) (s : State) : (s.raiseFault k).dstLen = s.dstLen := rfl
@[simp] theorem State.raiseFault_done (k : Err) (s : State) : (s.raiseFault k).done = true := rfl
@[simp] theorem State.raiseFault_fault (k : Err) (s : State) : (s.raiseFault k).fault = true := rfl
@[simp] theorem State.raiseFault_ovr (k : Err) (s : State) : (s.raiseFault k).ovr = s.ovr := rfl
@[simp] theorem State.raiseFault_err (k : Err) (s : State) : (s.raiseFault k).err = k := rfl
@[simp] theorem State.raiseFault_encAlpha (k : Err) (s : State) : (s.raiseFault k).encAlpha = s.encAlpha := rfl
@[simp] theorem State.raiseFault_encPadEn (k : Err) (s : State) : (s.raiseFault k).encPadEn = s.encPadEn := rfl
@[simp] theorem State.raiseFault_encPad (k : Err) (s : State) : (s.raiseFault k).encPad = s.encPad := rfl
@[simp] theorem State.raiseFault_encValid (k : Err) (s : State) : (s.raiseFault k).encValid = s.encValid := rfl
@[simp] theorem State.raiseFault_decInv (k : Err) (s : State) : (s.raiseFault k).decInv = s.decInv := rfl
@[simp] theorem State.raiseFault_decPadEn (k : Err) (s : State) : (s.raiseFault k).decPadEn = s.decPadEn := rfl
@[simp] theorem State.raiseFault_decPad (k : Err) (s : State) : (s.raiseFault k).decPad = s.decPad := rfl
@[simp] theorem State.raiseFault_decValid (k : Err) (s : State) : (s.raiseFault k).decValid = s.decValid := rfl
@[simp] theorem State.raiseFault_engine (k : Err) (s : State) : (s.raiseFault k).engine = none := rfl
@[simp] theorem State.raiseFault_mem (k : Err) (s : State) : (s.raiseFault k).mem = s.mem := rfl
@[simp] theorem State.raiseFault_inReset (k : Err) (s : State) : (s.raiseFault k).inReset = s.inReset := rfl
@[simp] theorem State.raiseFault_platform (k : Err) (s : State) : (s.raiseFault k).platform = s.platform := rfl
@[simp] theorem State.raiseFault_inputs (k : Err) (s : State) : (s.raiseFault k).inputs = s.inputs := rfl
@[simp] theorem State.raiseFault_seen (k : Err) (s : State) : (s.raiseFault k).seen = s.seen := rfl
@[simp] theorem State.raiseFault_drawn (k : Err) (s : State) : (s.raiseFault k).drawn = s.drawn := rfl

/-! ### `State.setEncoder` -/
@[simp] theorem State.setEncoder_result (A : Alphabet) (padEn : Bool) (pad : Byte) (s : State) : (s.setEncoder A padEn pad).result = s.result := rfl
@[simp] theorem State.setEncoder_srcAddr (A : Alphabet) (padEn : Bool) (pad : Byte) (s : State) : (s.setEncoder A padEn pad).srcAddr = s.srcAddr := rfl
@[simp] theorem State.setEncoder_srcLen (A : Alphabet) (padEn : Bool) (pad : Byte) (s : State) : (s.setEncoder A padEn pad).srcLen = s.srcLen := rfl
@[simp] theorem State.setEncoder_dstAddr (A : Alphabet) (padEn : Bool) (pad : Byte) (s : State) : (s.setEncoder A padEn pad).dstAddr = s.dstAddr := rfl
@[simp] theorem State.setEncoder_dstLen (A : Alphabet) (padEn : Bool) (pad : Byte) (s : State) : (s.setEncoder A padEn pad).dstLen = s.dstLen := rfl
@[simp] theorem State.setEncoder_done (A : Alphabet) (padEn : Bool) (pad : Byte) (s : State) : (s.setEncoder A padEn pad).done = s.done := rfl
@[simp] theorem State.setEncoder_fault (A : Alphabet) (padEn : Bool) (pad : Byte) (s : State) : (s.setEncoder A padEn pad).fault = s.fault := rfl
@[simp] theorem State.setEncoder_ovr (A : Alphabet) (padEn : Bool) (pad : Byte) (s : State) : (s.setEncoder A padEn pad).ovr = s.ovr := rfl
@[simp] theorem State.setEncoder_err (A : Alphabet) (padEn : Bool) (pad : Byte) (s : State) : (s.setEncoder A padEn pad).err = s.err := rfl
@[simp] theorem State.setEncoder_encAlpha (A : Alphabet) (padEn : Bool) (pad : Byte) (s : State) : (s.setEncoder A padEn pad).encAlpha = A := rfl
@[simp] theorem State.setEncoder_encPadEn (A : Alphabet) (padEn : Bool) (pad : Byte) (s : State) : (s.setEncoder A padEn pad).encPadEn = padEn := rfl
@[simp] theorem State.setEncoder_encPad (A : Alphabet) (padEn : Bool) (pad : Byte) (s : State) : (s.setEncoder A padEn pad).encPad = pad := rfl
@[simp] theorem State.setEncoder_encValid (A : Alphabet) (padEn : Bool) (pad : Byte) (s : State) : (s.setEncoder A padEn pad).encValid = true := rfl
@[simp] theorem State.setEncoder_decInv (A : Alphabet) (padEn : Bool) (pad : Byte) (s : State) : (s.setEncoder A padEn pad).decInv = s.decInv := rfl
@[simp] theorem State.setEncoder_decPadEn (A : Alphabet) (padEn : Bool) (pad : Byte) (s : State) : (s.setEncoder A padEn pad).decPadEn = s.decPadEn := rfl
@[simp] theorem State.setEncoder_decPad (A : Alphabet) (padEn : Bool) (pad : Byte) (s : State) : (s.setEncoder A padEn pad).decPad = s.decPad := rfl
@[simp] theorem State.setEncoder_decValid (A : Alphabet) (padEn : Bool) (pad : Byte) (s : State) : (s.setEncoder A padEn pad).decValid = s.decValid := rfl
@[simp] theorem State.setEncoder_engine (A : Alphabet) (padEn : Bool) (pad : Byte) (s : State) : (s.setEncoder A padEn pad).engine = s.engine := rfl
@[simp] theorem State.setEncoder_mem (A : Alphabet) (padEn : Bool) (pad : Byte) (s : State) : (s.setEncoder A padEn pad).mem = s.mem := rfl
@[simp] theorem State.setEncoder_inReset (A : Alphabet) (padEn : Bool) (pad : Byte) (s : State) : (s.setEncoder A padEn pad).inReset = s.inReset := rfl
@[simp] theorem State.setEncoder_platform (A : Alphabet) (padEn : Bool) (pad : Byte) (s : State) : (s.setEncoder A padEn pad).platform = s.platform := rfl
@[simp] theorem State.setEncoder_inputs (A : Alphabet) (padEn : Bool) (pad : Byte) (s : State) : (s.setEncoder A padEn pad).inputs = s.inputs := rfl
@[simp] theorem State.setEncoder_seen (A : Alphabet) (padEn : Bool) (pad : Byte) (s : State) : (s.setEncoder A padEn pad).seen = s.seen := rfl
@[simp] theorem State.setEncoder_drawn (A : Alphabet) (padEn : Bool) (pad : Byte) (s : State) : (s.setEncoder A padEn pad).drawn = s.drawn := rfl

/-! ### `State.clearEncoder` -/
@[simp] theorem State.clearEncoder_result (s : State) : (s.clearEncoder).result = s.result := rfl
@[simp] theorem State.clearEncoder_srcAddr (s : State) : (s.clearEncoder).srcAddr = s.srcAddr := rfl
@[simp] theorem State.clearEncoder_srcLen (s : State) : (s.clearEncoder).srcLen = s.srcLen := rfl
@[simp] theorem State.clearEncoder_dstAddr (s : State) : (s.clearEncoder).dstAddr = s.dstAddr := rfl
@[simp] theorem State.clearEncoder_dstLen (s : State) : (s.clearEncoder).dstLen = s.dstLen := rfl
@[simp] theorem State.clearEncoder_done (s : State) : (s.clearEncoder).done = s.done := rfl
@[simp] theorem State.clearEncoder_fault (s : State) : (s.clearEncoder).fault = s.fault := rfl
@[simp] theorem State.clearEncoder_ovr (s : State) : (s.clearEncoder).ovr = s.ovr := rfl
@[simp] theorem State.clearEncoder_err (s : State) : (s.clearEncoder).err = s.err := rfl
@[simp] theorem State.clearEncoder_encAlpha (s : State) : (s.clearEncoder).encAlpha = freeAlphabet s.drawn := rfl
@[simp] theorem State.clearEncoder_encPadEn (s : State) : (s.clearEncoder).encPadEn = false := rfl
@[simp] theorem State.clearEncoder_encPad (s : State) : (s.clearEncoder).encPad = 0 := rfl
@[simp] theorem State.clearEncoder_encValid (s : State) : (s.clearEncoder).encValid = false := rfl
@[simp] theorem State.clearEncoder_decInv (s : State) : (s.clearEncoder).decInv = s.decInv := rfl
@[simp] theorem State.clearEncoder_decPadEn (s : State) : (s.clearEncoder).decPadEn = s.decPadEn := rfl
@[simp] theorem State.clearEncoder_decPad (s : State) : (s.clearEncoder).decPad = s.decPad := rfl
@[simp] theorem State.clearEncoder_decValid (s : State) : (s.clearEncoder).decValid = s.decValid := rfl
@[simp] theorem State.clearEncoder_engine (s : State) : (s.clearEncoder).engine = s.engine := rfl
@[simp] theorem State.clearEncoder_mem (s : State) : (s.clearEncoder).mem = s.mem := rfl
@[simp] theorem State.clearEncoder_inReset (s : State) : (s.clearEncoder).inReset = s.inReset := rfl
@[simp] theorem State.clearEncoder_platform (s : State) : (s.clearEncoder).platform = s.platform := rfl
@[simp] theorem State.clearEncoder_inputs (s : State) : (s.clearEncoder).inputs = s.inputs := rfl
@[simp] theorem State.clearEncoder_seen (s : State) : (s.clearEncoder).seen = s.seen := rfl
@[simp] theorem State.clearEncoder_drawn (s : State) : (s.clearEncoder).drawn = s.drawn + 32 := rfl

/-! ### `State.setDecoder` -/
@[simp] theorem State.setDecoder_result (A : Alphabet) (padEn : Bool) (pad : Byte) (s : State) : (s.setDecoder A padEn pad).result = s.result := rfl
@[simp] theorem State.setDecoder_srcAddr (A : Alphabet) (padEn : Bool) (pad : Byte) (s : State) : (s.setDecoder A padEn pad).srcAddr = s.srcAddr := rfl
@[simp] theorem State.setDecoder_srcLen (A : Alphabet) (padEn : Bool) (pad : Byte) (s : State) : (s.setDecoder A padEn pad).srcLen = s.srcLen := rfl
@[simp] theorem State.setDecoder_dstAddr (A : Alphabet) (padEn : Bool) (pad : Byte) (s : State) : (s.setDecoder A padEn pad).dstAddr = s.dstAddr := rfl
@[simp] theorem State.setDecoder_dstLen (A : Alphabet) (padEn : Bool) (pad : Byte) (s : State) : (s.setDecoder A padEn pad).dstLen = s.dstLen := rfl
@[simp] theorem State.setDecoder_done (A : Alphabet) (padEn : Bool) (pad : Byte) (s : State) : (s.setDecoder A padEn pad).done = s.done := rfl
@[simp] theorem State.setDecoder_fault (A : Alphabet) (padEn : Bool) (pad : Byte) (s : State) : (s.setDecoder A padEn pad).fault = s.fault := rfl
@[simp] theorem State.setDecoder_ovr (A : Alphabet) (padEn : Bool) (pad : Byte) (s : State) : (s.setDecoder A padEn pad).ovr = s.ovr := rfl
@[simp] theorem State.setDecoder_err (A : Alphabet) (padEn : Bool) (pad : Byte) (s : State) : (s.setDecoder A padEn pad).err = s.err := rfl
@[simp] theorem State.setDecoder_encAlpha (A : Alphabet) (padEn : Bool) (pad : Byte) (s : State) : (s.setDecoder A padEn pad).encAlpha = s.encAlpha := rfl
@[simp] theorem State.setDecoder_encPadEn (A : Alphabet) (padEn : Bool) (pad : Byte) (s : State) : (s.setDecoder A padEn pad).encPadEn = s.encPadEn := rfl
@[simp] theorem State.setDecoder_encPad (A : Alphabet) (padEn : Bool) (pad : Byte) (s : State) : (s.setDecoder A padEn pad).encPad = s.encPad := rfl
@[simp] theorem State.setDecoder_encValid (A : Alphabet) (padEn : Bool) (pad : Byte) (s : State) : (s.setDecoder A padEn pad).encValid = s.encValid := rfl
@[simp] theorem State.setDecoder_decInv (A : Alphabet) (padEn : Bool) (pad : Byte) (s : State) : (s.setDecoder A padEn pad).decInv = inverse A := rfl
@[simp] theorem State.setDecoder_decPadEn (A : Alphabet) (padEn : Bool) (pad : Byte) (s : State) : (s.setDecoder A padEn pad).decPadEn = padEn := rfl
@[simp] theorem State.setDecoder_decPad (A : Alphabet) (padEn : Bool) (pad : Byte) (s : State) : (s.setDecoder A padEn pad).decPad = pad := rfl
@[simp] theorem State.setDecoder_decValid (A : Alphabet) (padEn : Bool) (pad : Byte) (s : State) : (s.setDecoder A padEn pad).decValid = true := rfl
@[simp] theorem State.setDecoder_engine (A : Alphabet) (padEn : Bool) (pad : Byte) (s : State) : (s.setDecoder A padEn pad).engine = s.engine := rfl
@[simp] theorem State.setDecoder_mem (A : Alphabet) (padEn : Bool) (pad : Byte) (s : State) : (s.setDecoder A padEn pad).mem = s.mem := rfl
@[simp] theorem State.setDecoder_inReset (A : Alphabet) (padEn : Bool) (pad : Byte) (s : State) : (s.setDecoder A padEn pad).inReset = s.inReset := rfl
@[simp] theorem State.setDecoder_platform (A : Alphabet) (padEn : Bool) (pad : Byte) (s : State) : (s.setDecoder A padEn pad).platform = s.platform := rfl
@[simp] theorem State.setDecoder_inputs (A : Alphabet) (padEn : Bool) (pad : Byte) (s : State) : (s.setDecoder A padEn pad).inputs = s.inputs := rfl
@[simp] theorem State.setDecoder_seen (A : Alphabet) (padEn : Bool) (pad : Byte) (s : State) : (s.setDecoder A padEn pad).seen = s.seen := rfl
@[simp] theorem State.setDecoder_drawn (A : Alphabet) (padEn : Bool) (pad : Byte) (s : State) : (s.setDecoder A padEn pad).drawn = s.drawn := rfl

/-! ### `State.clearDecoder` -/
@[simp] theorem State.clearDecoder_result (s : State) : (s.clearDecoder).result = s.result := rfl
@[simp] theorem State.clearDecoder_srcAddr (s : State) : (s.clearDecoder).srcAddr = s.srcAddr := rfl
@[simp] theorem State.clearDecoder_srcLen (s : State) : (s.clearDecoder).srcLen = s.srcLen := rfl
@[simp] theorem State.clearDecoder_dstAddr (s : State) : (s.clearDecoder).dstAddr = s.dstAddr := rfl
@[simp] theorem State.clearDecoder_dstLen (s : State) : (s.clearDecoder).dstLen = s.dstLen := rfl
@[simp] theorem State.clearDecoder_done (s : State) : (s.clearDecoder).done = s.done := rfl
@[simp] theorem State.clearDecoder_fault (s : State) : (s.clearDecoder).fault = s.fault := rfl
@[simp] theorem State.clearDecoder_ovr (s : State) : (s.clearDecoder).ovr = s.ovr := rfl
@[simp] theorem State.clearDecoder_err (s : State) : (s.clearDecoder).err = s.err := rfl
@[simp] theorem State.clearDecoder_encAlpha (s : State) : (s.clearDecoder).encAlpha = s.encAlpha := rfl
@[simp] theorem State.clearDecoder_encPadEn (s : State) : (s.clearDecoder).encPadEn = s.encPadEn := rfl
@[simp] theorem State.clearDecoder_encPad (s : State) : (s.clearDecoder).encPad = s.encPad := rfl
@[simp] theorem State.clearDecoder_encValid (s : State) : (s.clearDecoder).encValid = s.encValid := rfl
@[simp] theorem State.clearDecoder_decInv (s : State) : (s.clearDecoder).decInv = freeInverse s.drawn := rfl
@[simp] theorem State.clearDecoder_decPadEn (s : State) : (s.clearDecoder).decPadEn = false := rfl
@[simp] theorem State.clearDecoder_decPad (s : State) : (s.clearDecoder).decPad = 0 := rfl
@[simp] theorem State.clearDecoder_decValid (s : State) : (s.clearDecoder).decValid = false := rfl
@[simp] theorem State.clearDecoder_engine (s : State) : (s.clearDecoder).engine = s.engine := rfl
@[simp] theorem State.clearDecoder_mem (s : State) : (s.clearDecoder).mem = s.mem := rfl
@[simp] theorem State.clearDecoder_inReset (s : State) : (s.clearDecoder).inReset = s.inReset := rfl
@[simp] theorem State.clearDecoder_platform (s : State) : (s.clearDecoder).platform = s.platform := rfl
@[simp] theorem State.clearDecoder_inputs (s : State) : (s.clearDecoder).inputs = s.inputs := rfl
@[simp] theorem State.clearDecoder_seen (s : State) : (s.clearDecoder).seen = s.seen := rfl
@[simp] theorem State.clearDecoder_drawn (s : State) : (s.clearDecoder).drawn = s.drawn + 256 := rfl

/-! ### `State.withPipe` -/
@[simp] theorem State.withPipe_result (p : Pipe) (s : State) : (s.withPipe p).result = s.result := rfl
@[simp] theorem State.withPipe_srcAddr (p : Pipe) (s : State) : (s.withPipe p).srcAddr = s.srcAddr := rfl
@[simp] theorem State.withPipe_srcLen (p : Pipe) (s : State) : (s.withPipe p).srcLen = s.srcLen := rfl
@[simp] theorem State.withPipe_dstAddr (p : Pipe) (s : State) : (s.withPipe p).dstAddr = s.dstAddr := rfl
@[simp] theorem State.withPipe_dstLen (p : Pipe) (s : State) : (s.withPipe p).dstLen = s.dstLen := rfl
@[simp] theorem State.withPipe_done (p : Pipe) (s : State) : (s.withPipe p).done = s.done := rfl
@[simp] theorem State.withPipe_fault (p : Pipe) (s : State) : (s.withPipe p).fault = s.fault := rfl
@[simp] theorem State.withPipe_ovr (p : Pipe) (s : State) : (s.withPipe p).ovr = s.ovr := rfl
@[simp] theorem State.withPipe_err (p : Pipe) (s : State) : (s.withPipe p).err = s.err := rfl
@[simp] theorem State.withPipe_encAlpha (p : Pipe) (s : State) : (s.withPipe p).encAlpha = s.encAlpha := rfl
@[simp] theorem State.withPipe_encPadEn (p : Pipe) (s : State) : (s.withPipe p).encPadEn = s.encPadEn := rfl
@[simp] theorem State.withPipe_encPad (p : Pipe) (s : State) : (s.withPipe p).encPad = s.encPad := rfl
@[simp] theorem State.withPipe_encValid (p : Pipe) (s : State) : (s.withPipe p).encValid = s.encValid := rfl
@[simp] theorem State.withPipe_decInv (p : Pipe) (s : State) : (s.withPipe p).decInv = s.decInv := rfl
@[simp] theorem State.withPipe_decPadEn (p : Pipe) (s : State) : (s.withPipe p).decPadEn = s.decPadEn := rfl
@[simp] theorem State.withPipe_decPad (p : Pipe) (s : State) : (s.withPipe p).decPad = s.decPad := rfl
@[simp] theorem State.withPipe_decValid (p : Pipe) (s : State) : (s.withPipe p).decValid = s.decValid := rfl
@[simp] theorem State.withPipe_engine (p : Pipe) (s : State) : (s.withPipe p).engine = some p.eng := rfl
@[simp] theorem State.withPipe_mem (p : Pipe) (s : State) : (s.withPipe p).mem = p.mem := rfl
@[simp] theorem State.withPipe_inReset (p : Pipe) (s : State) : (s.withPipe p).inReset = s.inReset := rfl
@[simp] theorem State.withPipe_platform (p : Pipe) (s : State) : (s.withPipe p).platform = s.platform := rfl
@[simp] theorem State.withPipe_inputs (p : Pipe) (s : State) : (s.withPipe p).inputs = s.inputs := rfl
@[simp] theorem State.withPipe_seen (p : Pipe) (s : State) : (s.withPipe p).seen = s.seen := rfl
@[simp] theorem State.withPipe_drawn (p : Pipe) (s : State) : (s.withPipe p).drawn = s.drawn := rfl

/-! ### `State.see` -/
@[simp] theorem State.see_result (x : Seen) (s : State) : (s.see x).result = s.result := rfl
@[simp] theorem State.see_srcAddr (x : Seen) (s : State) : (s.see x).srcAddr = s.srcAddr := rfl
@[simp] theorem State.see_srcLen (x : Seen) (s : State) : (s.see x).srcLen = s.srcLen := rfl
@[simp] theorem State.see_dstAddr (x : Seen) (s : State) : (s.see x).dstAddr = s.dstAddr := rfl
@[simp] theorem State.see_dstLen (x : Seen) (s : State) : (s.see x).dstLen = s.dstLen := rfl
@[simp] theorem State.see_done (x : Seen) (s : State) : (s.see x).done = s.done := rfl
@[simp] theorem State.see_fault (x : Seen) (s : State) : (s.see x).fault = s.fault := rfl
@[simp] theorem State.see_ovr (x : Seen) (s : State) : (s.see x).ovr = s.ovr := rfl
@[simp] theorem State.see_err (x : Seen) (s : State) : (s.see x).err = s.err := rfl
@[simp] theorem State.see_encAlpha (x : Seen) (s : State) : (s.see x).encAlpha = s.encAlpha := rfl
@[simp] theorem State.see_encPadEn (x : Seen) (s : State) : (s.see x).encPadEn = s.encPadEn := rfl
@[simp] theorem State.see_encPad (x : Seen) (s : State) : (s.see x).encPad = s.encPad := rfl
@[simp] theorem State.see_encValid (x : Seen) (s : State) : (s.see x).encValid = s.encValid := rfl
@[simp] theorem State.see_decInv (x : Seen) (s : State) : (s.see x).decInv = s.decInv := rfl
@[simp] theorem State.see_decPadEn (x : Seen) (s : State) : (s.see x).decPadEn = s.decPadEn := rfl
@[simp] theorem State.see_decPad (x : Seen) (s : State) : (s.see x).decPad = s.decPad := rfl
@[simp] theorem State.see_decValid (x : Seen) (s : State) : (s.see x).decValid = s.decValid := rfl
@[simp] theorem State.see_engine (x : Seen) (s : State) : (s.see x).engine = s.engine := rfl
@[simp] theorem State.see_mem (x : Seen) (s : State) : (s.see x).mem = s.mem := rfl
@[simp] theorem State.see_inReset (x : Seen) (s : State) : (s.see x).inReset = s.inReset := rfl
@[simp] theorem State.see_platform (x : Seen) (s : State) : (s.see x).platform = s.platform := rfl
@[simp] theorem State.see_inputs (x : Seen) (s : State) : (s.see x).inputs = s.inputs := rfl
@[simp] theorem State.see_seen (x : Seen) (s : State) : (s.see x).seen = x :: s.seen := rfl
@[simp] theorem State.see_drawn (x : Seen) (s : State) : (s.see x).drawn = s.drawn := rfl

/-! ### `State.scramble` -/
@[simp] theorem State.scramble_result (r : Region) (s : State) : (s.scramble r).result = s.result := rfl
@[simp] theorem State.scramble_srcAddr (r : Region) (s : State) : (s.scramble r).srcAddr = s.srcAddr := rfl
@[simp] theorem State.scramble_srcLen (r : Region) (s : State) : (s.scramble r).srcLen = s.srcLen := rfl
@[simp] theorem State.scramble_dstAddr (r : Region) (s : State) : (s.scramble r).dstAddr = s.dstAddr := rfl
@[simp] theorem State.scramble_dstLen (r : Region) (s : State) : (s.scramble r).dstLen = s.dstLen := rfl
@[simp] theorem State.scramble_done (r : Region) (s : State) : (s.scramble r).done = s.done := rfl
@[simp] theorem State.scramble_fault (r : Region) (s : State) : (s.scramble r).fault = s.fault := rfl
@[simp] theorem State.scramble_ovr (r : Region) (s : State) : (s.scramble r).ovr = s.ovr := rfl
@[simp] theorem State.scramble_err (r : Region) (s : State) : (s.scramble r).err = s.err := rfl
@[simp] theorem State.scramble_encAlpha (r : Region) (s : State) : (s.scramble r).encAlpha = s.encAlpha := rfl
@[simp] theorem State.scramble_encPadEn (r : Region) (s : State) : (s.scramble r).encPadEn = s.encPadEn := rfl
@[simp] theorem State.scramble_encPad (r : Region) (s : State) : (s.scramble r).encPad = s.encPad := rfl
@[simp] theorem State.scramble_encValid (r : Region) (s : State) : (s.scramble r).encValid = s.encValid := rfl
@[simp] theorem State.scramble_decInv (r : Region) (s : State) : (s.scramble r).decInv = s.decInv := rfl
@[simp] theorem State.scramble_decPadEn (r : Region) (s : State) : (s.scramble r).decPadEn = s.decPadEn := rfl
@[simp] theorem State.scramble_decPad (r : Region) (s : State) : (s.scramble r).decPad = s.decPad := rfl
@[simp] theorem State.scramble_decValid (r : Region) (s : State) : (s.scramble r).decValid = s.decValid := rfl
@[simp] theorem State.scramble_engine (r : Region) (s : State) : (s.scramble r).engine = s.engine := rfl
@[simp] theorem State.scramble_mem (r : Region) (s : State) : (s.scramble r).mem = s.mem.scramble r.base s.drawn r.clippedLen := rfl
@[simp] theorem State.scramble_inReset (r : Region) (s : State) : (s.scramble r).inReset = s.inReset := rfl
@[simp] theorem State.scramble_platform (r : Region) (s : State) : (s.scramble r).platform = s.platform := rfl
@[simp] theorem State.scramble_inputs (r : Region) (s : State) : (s.scramble r).inputs = s.inputs := rfl
@[simp] theorem State.scramble_seen (r : Region) (s : State) : (s.scramble r).seen = s.seen := rfl
@[simp] theorem State.scramble_drawn (r : Region) (s : State) : (s.scramble r).drawn = s.drawn + r.clippedLen := rfl

/-! ### `State.assertReset` -/
@[simp] theorem State.assertReset_result (s : State) : (s.assertReset).result = s.result := rfl
@[simp] theorem State.assertReset_srcAddr (s : State) : (s.assertReset).srcAddr = s.srcAddr := rfl
@[simp] theorem State.assertReset_srcLen (s : State) : (s.assertReset).srcLen = s.srcLen := rfl
@[simp] theorem State.assertReset_dstAddr (s : State) : (s.assertReset).dstAddr = s.dstAddr := rfl
@[simp] theorem State.assertReset_dstLen (s : State) : (s.assertReset).dstLen = s.dstLen := rfl
@[simp] theorem State.assertReset_done (s : State) : (s.assertReset).done = s.done := rfl
@[simp] theorem State.assertReset_fault (s : State) : (s.assertReset).fault = s.fault := rfl
@[simp] theorem State.assertReset_ovr (s : State) : (s.assertReset).ovr = s.ovr := rfl
@[simp] theorem State.assertReset_err (s : State) : (s.assertReset).err = s.err := rfl
@[simp] theorem State.assertReset_encAlpha (s : State) : (s.assertReset).encAlpha = s.encAlpha := rfl
@[simp] theorem State.assertReset_encPadEn (s : State) : (s.assertReset).encPadEn = s.encPadEn := rfl
@[simp] theorem State.assertReset_encPad (s : State) : (s.assertReset).encPad = s.encPad := rfl
@[simp] theorem State.assertReset_encValid (s : State) : (s.assertReset).encValid = s.encValid := rfl
@[simp] theorem State.assertReset_decInv (s : State) : (s.assertReset).decInv = s.decInv := rfl
@[simp] theorem State.assertReset_decPadEn (s : State) : (s.assertReset).decPadEn = s.decPadEn := rfl
@[simp] theorem State.assertReset_decPad (s : State) : (s.assertReset).decPad = s.decPad := rfl
@[simp] theorem State.assertReset_decValid (s : State) : (s.assertReset).decValid = s.decValid := rfl
@[simp] theorem State.assertReset_engine (s : State) : (s.assertReset).engine = none := rfl
@[simp] theorem State.assertReset_mem (s : State) : (s.assertReset).mem = s.mem.scramble s.abandonedRegion.base s.drawn s.abandonedRegion.clippedLen := rfl
@[simp] theorem State.assertReset_inReset (s : State) : (s.assertReset).inReset = true := rfl
@[simp] theorem State.assertReset_platform (s : State) : (s.assertReset).platform = s.platform := rfl
@[simp] theorem State.assertReset_inputs (s : State) : (s.assertReset).inputs = s.inputs := rfl
@[simp] theorem State.assertReset_seen (s : State) : (s.assertReset).seen = s.seen := rfl
@[simp] theorem State.assertReset_drawn (s : State) : (s.assertReset).drawn = s.drawn + s.abandonedRegion.clippedLen := rfl

/-! ### The end of a command by the class of its code -/

theorem State.raise_of_fault {k : Err} (h : k.isFault = true) (s : State) : s.raise k = s.raiseFault k := by
  simp [State.raise, h]

theorem State.raise_of_error {k : Err} (h : k.isFault = false) (s : State) : s.raise k = s.raiseError k := by
  simp [State.raise, h]

@[simp] theorem State.raise_result (k : Err) (s : State) : (s.raise k).result = 0 := by
  unfold State.raise; cases h : k.isFault <;> simp
@[simp] theorem State.raise_srcAddr (k : Err) (s : State) : (s.raise k).srcAddr = s.srcAddr := by
  unfold State.raise; cases h : k.isFault <;> simp
@[simp] theorem State.raise_srcLen (k : Err) (s : State) : (s.raise k).srcLen = s.srcLen := by
  unfold State.raise; cases h : k.isFault <;> simp
@[simp] theorem State.raise_dstAddr (k : Err) (s : State) : (s.raise k).dstAddr = s.dstAddr := by
  unfold State.raise; cases h : k.isFault <;> simp
@[simp] theorem State.raise_dstLen (k : Err) (s : State) : (s.raise k).dstLen = s.dstLen := by
  unfold State.raise; cases h : k.isFault <;> simp
@[simp] theorem State.raise_done (k : Err) (s : State) : (s.raise k).done = true := by
  unfold State.raise; cases h : k.isFault <;> simp
@[simp] theorem State.raise_fault (k : Err) (s : State) : (s.raise k).fault = (s.fault || k.isFault) := by
  unfold State.raise; cases h : k.isFault <;> simp
@[simp] theorem State.raise_ovr (k : Err) (s : State) : (s.raise k).ovr = s.ovr := by
  unfold State.raise; cases h : k.isFault <;> simp
@[simp] theorem State.raise_err (k : Err) (s : State) : (s.raise k).err = k := by
  unfold State.raise; cases h : k.isFault <;> simp
@[simp] theorem State.raise_encAlpha (k : Err) (s : State) : (s.raise k).encAlpha = s.encAlpha := by
  unfold State.raise; cases h : k.isFault <;> simp
@[simp] theorem State.raise_encPadEn (k : Err) (s : State) : (s.raise k).encPadEn = s.encPadEn := by
  unfold State.raise; cases h : k.isFault <;> simp
@[simp] theorem State.raise_encPad (k : Err) (s : State) : (s.raise k).encPad = s.encPad := by
  unfold State.raise; cases h : k.isFault <;> simp
@[simp] theorem State.raise_encValid (k : Err) (s : State) : (s.raise k).encValid = s.encValid := by
  unfold State.raise; cases h : k.isFault <;> simp
@[simp] theorem State.raise_decInv (k : Err) (s : State) : (s.raise k).decInv = s.decInv := by
  unfold State.raise; cases h : k.isFault <;> simp
@[simp] theorem State.raise_decPadEn (k : Err) (s : State) : (s.raise k).decPadEn = s.decPadEn := by
  unfold State.raise; cases h : k.isFault <;> simp
@[simp] theorem State.raise_decPad (k : Err) (s : State) : (s.raise k).decPad = s.decPad := by
  unfold State.raise; cases h : k.isFault <;> simp
@[simp] theorem State.raise_decValid (k : Err) (s : State) : (s.raise k).decValid = s.decValid := by
  unfold State.raise; cases h : k.isFault <;> simp
@[simp] theorem State.raise_engine (k : Err) (s : State) : (s.raise k).engine = none := by
  unfold State.raise; cases h : k.isFault <;> simp
@[simp] theorem State.raise_mem (k : Err) (s : State) : (s.raise k).mem = s.mem := by
  unfold State.raise; cases h : k.isFault <;> simp
@[simp] theorem State.raise_inReset (k : Err) (s : State) : (s.raise k).inReset = s.inReset := by
  unfold State.raise; cases h : k.isFault <;> simp
@[simp] theorem State.raise_platform (k : Err) (s : State) : (s.raise k).platform = s.platform := by
  unfold State.raise; cases h : k.isFault <;> simp
@[simp] theorem State.raise_inputs (k : Err) (s : State) : (s.raise k).inputs = s.inputs := by
  unfold State.raise; cases h : k.isFault <;> simp
@[simp] theorem State.raise_seen (k : Err) (s : State) : (s.raise k).seen = s.seen := by
  unfold State.raise; cases h : k.isFault <;> simp
@[simp] theorem State.raise_drawn (k : Err) (s : State) : (s.raise k).drawn = s.drawn := by
  unfold State.raise; cases h : k.isFault <;> simp

/-! ### The command in progress -/

theorem State.running_of_engine {s : State} {e : Engine} (h : s.engine = some e) : s.running = e := by
  simp [State.running, h]

@[simp] theorem State.running_issue (w : Word) (s : State) : (s.issue w).running = s.latch w := rfl

theorem State.busy_iff (s : State) : s.busy = true ↔ ∃ e, s.engine = some e := by
  simp [State.busy, Option.isSome_iff_exists]

theorem State.not_busy_iff (s : State) : s.busy = false ↔ s.engine = none := by
  simp [State.busy]

/-- An engine just latched stands at the start of its pipelines (10_state.md R44). -/
theorem State.latch_fresh (w : Word) (s : State) :
    (s.latch w).acc = 0 ∧ (s.latch w).cnt = 0 ∧ (s.latch w).i = 0 ∧ (s.latch w).o = 0 ∧ (s.latch w).padAt = none
      ∧ (s.latch w).phase = .reading5BitSymbols :=
  ⟨rfl, rfl, rfl, rfl, rfl, rfl⟩

end Sys2Proof.Machine
end

