-- ==== Sys2Proof/Laws/Exec.lean ====
section
/-! SUPPORT. What each command can do: one inversion lemma per meaning (60_exceptions.md R240: a command ends in exactly one way),
which later proofs cite instead of unfolding the meaning. -/
namespace Sys2Proof.Machine

/-- An entry of the inverse table (R132). -/
theorem inverse_get (A : Alphabet) (b : Fin 256) :
    (inverse A).get b = (A.toList.findIdx? (fun c => c == BitVec.ofNat 8 b.val)).map (BitVec.ofNat 5) := by
  unfold inverse
  exact Vector.get_ofFn _ _

/-- An entry of the alphabet ENC_CFG and DEC_CFG read (R131). -/
theorem Memory.alphabet_get (m : Memory) (a : Word) (k : Fin 32) :
    (m.alphabet a).get k = m.read (a + BitVec.ofNat 32 k.val).toNat := by
  unfold Memory.alphabet
  exact Vector.get_ofFn _ _

/-- Every way ENC_CFG can end (R133). -/
theorem execEncCfg_cases {padEn : Bool} {pad : Byte} {s t : State} (h : execEncCfg padEn pad s = .next t) :
    t = s.raise .contract
      ∨ t = s.clearEncoder.raise .configInvalid
      ∨ (alphabetOk (s.mem.alphabet s.running.srcAddr) padEn (padOperand padEn pad) = true
        ∧ t = (s.setEncoder (s.mem.alphabet s.running.srcAddr) padEn (padOperand padEn pad)).complete 0) := by
  unfold execEncCfg at h
  dsimp only at h
  split_ifs at h with h1 h2 h3 <;> simp only [Host.Outcome.next.injEq] at h <;> subst h
  · exact .inl rfl
  · exact .inr (.inl rfl)
  · exact .inr (.inr ⟨by simpa using h3, rfl⟩)

/-- Every way DEC_CFG can end (R134). -/
theorem execDecCfg_cases {padEn : Bool} {pad : Byte} {s t : State} (h : execDecCfg padEn pad s = .next t) :
    t = s.raise .contract
      ∨ t = s.clearDecoder.raise .configInvalid
      ∨ (alphabetOk (s.mem.alphabet s.running.srcAddr) padEn (padOperand padEn pad) = true
        ∧ t = (s.setDecoder (s.mem.alphabet s.running.srcAddr) padEn (padOperand padEn pad)).complete 0) := by
  unfold execDecCfg at h
  dsimp only at h
  split_ifs at h with h1 h2 h3 <;> simp only [Host.Outcome.next.injEq] at h <;> subst h
  · exact .inl rfl
  · exact .inr (.inl rfl)
  · exact .inr (.inr ⟨by simpa using h3, rfl⟩)

/-- Every way ENC_SIZE can end (R165). -/
theorem execEncSize_cases {s t : State} (h : execEncSize s = .next t) :
    t = s.raise .notConfigured ∨ t = s.raise .sizeOverflow
      ∨ (s.encValid = true ∧ encSize s.running.srcLen.toNat s.encPadEn ≤ Config.maxLen
        ∧ t = s.complete (BitVec.ofNat 32 (encSize s.running.srcLen.toNat s.encPadEn))) := by
  unfold execEncSize at h
  dsimp only at h
  split_ifs at h with h1 h2 <;> simp only [Host.Outcome.next.injEq] at h <;> subst h
  · exact .inl rfl
  · exact .inr (.inl rfl)
  · exact .inr (.inr ⟨by simpa using h1, by omega, rfl⟩)

/-- What ENCODE's checks answer (R245). -/
theorem State.encodeChecks_cases (s : State) (e : Engine) :
    s.encodeChecks e = .error .notConfigured ∨ s.encodeChecks e = .error .sizeOverflow
      ∨ s.encodeChecks e = .error .contract
      ∨ (s.encodeChecks e = .ok (encSize e.srcLen.toNat s.encPadEn) ∧ s.encValid = true
        ∧ encSize e.srcLen.toNat s.encPadEn ≤ Config.maxLen ∧ e.regionsOk = true
        ∧ encSize e.srcLen.toNat s.encPadEn ≤ e.dstLen.toNat) := by
  unfold State.encodeChecks
  dsimp only
  split_ifs with h1 h2 h3 h4
  · simp
  · simp
  · simp
  · simp
  · exact .inr (.inr (.inr ⟨rfl, by simpa using h1, by omega, by simpa using h3, by omega⟩))

/-- Every way ENCODE can end (R166). -/
theorem execEncode_cases {s t : State} (h : execEncode s = .next t) :
    (∃ k, s.encodeChecks s.running = .error k ∧ t = s.raise k)
      ∨ ∃ len, s.encodeChecks s.running = .ok len
        ∧ t = State.complete (BitVec.ofNat 32 len)
          { s with mem := (Pipe.encodeRest s.encAlpha s.encPadEn s.encPad len ⟨s.running, s.mem⟩).mem } := by
  unfold execEncode at h
  dsimp only at h
  split_ifs at h with h1
  split at h <;> rename_i x hx <;> simp only [Host.Outcome.next.injEq] at h <;> subst h
  · exact .inl ⟨_, hx, rfl⟩
  · exact .inr ⟨_, hx, rfl⟩

/-- The only error of the sizing functions is INVALID_PADDING (R190). -/
theorem decUb_error {n : Nat} {padEn : Bool} {k : Err} (h : decUb n padEn = .error k) : k = .invalidPadding := by
  unfold decUb at h
  dsimp only at h
  repeat' split at h
  all_goals simp at h
  all_goals exact h.symm

/-- The only error of the sizing functions is INVALID_PADDING (R192). -/
theorem Memory.decSlice_error {m : Memory} {a : Word} {n : Nat} {padEn : Bool} {pad : Byte} {k : Err}
    (h : m.decSlice a n padEn pad = .error k) : k = .invalidPadding := by
  unfold Memory.decSlice at h
  repeat' split at h
  all_goals simp at h
  · rename_i hu; subst h; exact decUb_error hu
  · exact h.symm

/-- The only error of `unpack`'s loop is INVALID_CHARACTER (R193). -/
theorem Pipe.readSymbols_error {inv : Inverse} {padEn : Bool} {pad : Byte} {k : Err} :
    ∀ {n : Nat} {p : Pipe}, p.readSymbols inv padEn pad n = .error k → k = .invalidCharacter
  | 0, p, h => by simp [Pipe.readSymbols] at h
  | n + 1, p, h => by
    unfold Pipe.readSymbols at h
    split at h
    · exact Pipe.readSymbols_error h
    · split at h <;> simp at h
      exact h.symm

/-- The errors of the tail's bytes (R195). -/
theorem Memory.tailCheck_error {m : Memory} {a : Word} {inv : Inverse} {pad : Byte} {k : Err} :
    ∀ {n : Nat} {j : Word}, m.tailCheck a inv pad n j = .error k → k = .invalidCharacter ∨ k = .invalidPadding
  | 0, j, h => by simp [Memory.tailCheck] at h
  | n + 1, j, h => by
    unfold Memory.tailCheck at h
    dsimp only at h
    split at h
    · exact Memory.tailCheck_error h
    · simp only [Except.error.injEq] at h
      subst h
      exact tailError_cases inv _

/-- The errors of the checks after the loop (R194, R195). -/
theorem Pipe.checkTail_error {inv : Inverse} {pad : Byte} {p : Pipe} {k : Err} (h : p.checkTail inv pad = .error k) :
    k = .invalidCharacter ∨ k = .invalidPadding := by
  unfold Pipe.checkTail at h
  dsimp only at h
  split at h
  · simp at h; exact .inr h.symm
  · split at h
    · simp at h
    · split at h
      · simp at h; exact .inr h.symm
      · split at h
        · rename_i hk
          simp only [Except.error.injEq] at h
          subst h
          exact Memory.tailCheck_error hk
        · split at h <;> simp at h
          exact .inr h.symm

/-- The errors of `unpack` are the two typed ones (R193 to R195). -/
theorem Pipe.unpackRest_error {inv : Inverse} {padEn : Bool} {pad : Byte} {p : Pipe} {k : Err}
    (h : p.unpackRest inv padEn pad = .error k) : k = .invalidCharacter ∨ k = .invalidPadding := by
  unfold Pipe.unpackRest at h
  split at h
  · split at h
    · rename_i hk
      simp only [Except.error.injEq] at h
      subst h
      exact .inl (Pipe.readSymbols_error hk)
    · exact Pipe.checkTail_error h
  · exact Pipe.checkTail_error h
  · simp at h

/-- Every way DEC_SIZE_UB can end (R196). -/
theorem execDecSizeUb_cases {s t : State} (h : execDecSizeUb s = .next t) :
    t = s.raise .notConfigured ∨ t = s.raise .invalidPadding
      ∨ ∃ u, decUb s.running.srcLen.toNat s.decPadEn = .ok u ∧ t = s.complete (BitVec.ofNat 32 u) := by
  unfold execDecSizeUb at h
  split_ifs at h
  · simp only [Host.Outcome.next.injEq] at h; exact .inl h.symm
  · split at h <;> rename_i hx <;> simp only [Host.Outcome.next.injEq] at h <;> subst h
    · rw [decUb_error hx]; exact .inr (.inl rfl)
    · exact .inr (.inr ⟨_, hx, rfl⟩)

/-- Every way DEC_SIZE_SLICE can end (R197). -/
theorem execDecSizeSlice_cases {s t : State} (h : execDecSizeSlice s = .next t) :
    t = s.raise .notConfigured ∨ t = s.raise .contract ∨ t = s.raise .invalidPadding
      ∨ ∃ m, s.mem.decSlice s.running.srcAddr s.running.srcLen.toNat s.decPadEn s.decPad = .ok m
        ∧ t = s.complete (BitVec.ofNat 32 m) := by
  unfold execDecSizeSlice at h
  dsimp only at h
  split_ifs at h
  · simp only [Host.Outcome.next.injEq] at h; exact .inl h.symm
  · simp only [Host.Outcome.next.injEq] at h; exact .inr (.inl h.symm)
  · split at h <;> rename_i hx <;> simp only [Host.Outcome.next.injEq] at h <;> subst h
    · rw [Memory.decSlice_error hx]; exact .inr (.inr (.inl rfl))
    · exact .inr (.inr (.inr ⟨_, hx, rfl⟩))

/-- What DECODE's checks answer (R245). -/
theorem State.decodeChecks_cases (s : State) (e : Engine) :
    s.decodeChecks e = .error .notConfigured ∨ s.decodeChecks e = .error .contract
      ∨ s.decodeChecks e = .error .invalidPadding
      ∨ (s.decodeChecks e = .ok e.dstLen.toNat ∧ s.decValid = true ∧ e.regionsOk = true
        ∧ s.mem.decSlice e.srcAddr e.srcLen.toNat s.decPadEn s.decPad = .ok e.dstLen.toNat) := by
  unfold State.decodeChecks
  split_ifs with h1 h2 h3
  · simp
  · simp
  · simp
  · split
    · rename_i hx; rw [Memory.decSlice_error hx]; simp
    · rename_i m hx
      split_ifs with h4
      · simp
      · obtain rfl : e.dstLen.toNat = m := by simpa using h4
        exact .inr (.inr (.inr ⟨rfl, by simpa using h1, by simpa using h2, hx⟩))

/-- Every way DECODE can end (R198, R199). -/
theorem execDecode_cases {s t : State} (h : execDecode s = .next t) :
    (∃ k, s.decodeChecks s.running = .error k ∧ t = s.raise k)
      ∨ (∃ m k, s.decodeChecks s.running = .ok m
        ∧ Pipe.unpackRest s.decInv s.decPadEn s.decPad ⟨s.running, s.mem⟩ = .error k
        ∧ t = (s.scramble s.running.destination).raise k)
      ∨ ∃ m p, s.decodeChecks s.running = .ok m
        ∧ Pipe.unpackRest s.decInv s.decPadEn s.decPad ⟨s.running, s.mem⟩ = .ok p
        ∧ t = State.complete (BitVec.ofNat 32 m) { s with mem := p.mem } := by
  unfold execDecode at h
  dsimp only at h
  split_ifs at h with h1
  split at h
  · rename_i hx
    simp only [Host.Outcome.next.injEq] at h
    exact .inl ⟨_, hx, h.symm⟩
  · rename_i hx
    split at h <;> rename_i hy <;> simp only [Host.Outcome.next.injEq] at h
    · exact .inr (.inl ⟨_, _, hx, hy, h.symm⟩)
    · exact .inr (.inr ⟨_, _, hx, hy, h.symm⟩)

end Sys2Proof.Machine
end

