-- ==== Sys2Proof/Laws/PerInstr.lean ====
section
/-! SUPPORT. Statements made per instruction: its word against its row of the opcode table. -/

/-- The match and mask of a command's row (30_encoding.md R103). -/
def Sys2Proof.Laws.tableRow : Sys2Proof.Instr → Sys2Proof.Word × Sys2Proof.Word
  | .encCfg _ _ => (0x00000001, 0xFF00FEFF)
  | .decCfg _ _ => (0x00000002, 0xFF00FEFF)
  | .encSize => (0x00000003, 0xFFFFFFFF)
  | .encode => (0x00000004, 0xFFFFFFFF)
  | .decSizeUb => (0x00000005, 0xFFFFFFFF)
  | .decSizeSlice => (0x00000006, 0xFFFFFFFF)
  | .decode => (0x00000007, 0xFFFFFFFF)

/-- The word of an instruction lies in its own row: `(w & mask) = match` (R103). -/
def Sys2Proof.Laws.WordInRow.Statement (i : Sys2Proof.Instr) : Prop :=
  Sys2Proof.encodeInstr i &&& (Sys2Proof.Laws.tableRow i).2 = (Sys2Proof.Laws.tableRow i).1

/-- The bits of a CFG word outside its two fields are those of its opcode. -/
theorem Sys2Proof.Laws.encodeCfg_fixed_bits (op : Sys2Proof.Word) (padEn : Bool) (pad : Sys2Proof.Byte) :
    Sys2Proof.encodeCfg op padEn pad &&& 0xFF00FEFF = op &&& 0xFF00FEFF := by
  have hpad : ((pad.setWidth 32 <<< 16 : Sys2Proof.Word)) &&& 0xFF00FEFF = 0 := by
    revert pad; decide +kernel
  unfold Sys2Proof.encodeCfg
  rw [BitVec.and_or_distrib_right, BitVec.and_or_distrib_right, hpad]
  cases padEn <;> simp

theorem Sys2Proof.Laws.WordInRow.encCfg (padEn : Bool) (pad : Sys2Proof.Byte) :
    Sys2Proof.Laws.WordInRow.Statement (.encCfg padEn pad) :=
  Sys2Proof.Laws.encodeCfg_fixed_bits 1 padEn pad

theorem Sys2Proof.Laws.WordInRow.decCfg (padEn : Bool) (pad : Sys2Proof.Byte) :
    Sys2Proof.Laws.WordInRow.Statement (.decCfg padEn pad) :=
  Sys2Proof.Laws.encodeCfg_fixed_bits 2 padEn pad

theorem Sys2Proof.Laws.WordInRow.encSize : Sys2Proof.Laws.WordInRow.Statement .encSize := by
  unfold Sys2Proof.Laws.WordInRow.Statement; decide

theorem Sys2Proof.Laws.WordInRow.encode : Sys2Proof.Laws.WordInRow.Statement .encode := by
  unfold Sys2Proof.Laws.WordInRow.Statement; decide

theorem Sys2Proof.Laws.WordInRow.decSizeUb : Sys2Proof.Laws.WordInRow.Statement .decSizeUb := by
  unfold Sys2Proof.Laws.WordInRow.Statement; decide

theorem Sys2Proof.Laws.WordInRow.decSizeSlice : Sys2Proof.Laws.WordInRow.Statement .decSizeSlice := by
  unfold Sys2Proof.Laws.WordInRow.Statement; decide

theorem Sys2Proof.Laws.WordInRow.decode : Sys2Proof.Laws.WordInRow.Statement .decode := by
  unfold Sys2Proof.Laws.WordInRow.Statement; decide
end

