-- ==== Sys2Proof/Laws/Step.lean ====
section
/-! SUPPORT. What a step can do: one lemma per turn, for the invariants of the machine to be proved from. -/
namespace Sys2Proof.Machine

/-- An iteration keeps everything but the engine's record and the memory (10_state.md R44). -/
theorem State.advanceUnpack_withPipe {s t : State} {e : Engine} (h : s.advanceUnpack e = some t) :
    ∃ q : Pipe, t = s.withPipe q ∧ (Pipe.mk e s.mem).keeps q := by
  unfold State.advanceUnpack at h
  dsimp only at h
  repeat' split at h
  all_goals simp only [Option.some.injEq, reduceCtorEq] at h
  all_goals refine ⟨_, h.symm, ?_⟩
  · exact Pipe.keeps_foldSymbol _ _
  all_goals exact ⟨⟨rfl, rfl, rfl, rfl, rfl⟩, id⟩

/-- An iteration of a command, whichever it is, is a step of its pipelines. -/
theorem State.advance_withPipe {s t : State} {e : Engine} {i : Instr} (h : s.advance i e = some t) :
    ∃ q : Pipe, t = s.withPipe q ∧ (Pipe.mk e s.mem).keeps q := by
  cases i <;> simp only [State.advance, reduceCtorEq] at h
  case encode =>
    unfold State.advanceEncode at h
    repeat' split at h
    all_goals simp only [Option.some.injEq, reduceCtorEq] at h
    exact ⟨_, h.symm, Pipe.keeps_encodeByte _ _⟩
  case decode =>
    unfold State.advanceDecode at h
    repeat' split at h
    all_goals first
      | exact State.advanceUnpack_withPipe h
      | exact absurd h (by simp)

/-- Every way the engine's turn can go: nothing in progress, an illegal word, or `exec` of the command (30_encoding.md R107). -/
theorem State.completeTurn_cases {s t : State} (h : s.completeTurn = .next t) :
    (s.engine = none ∧ t = s)
      ∨ ∃ e, s.engine = some e
        ∧ ((∃ r, decodeWord e.cmd = .error r ∧ t = s.raise .illegalCommand)
          ∨ ∃ i, decodeWord e.cmd = .ok i ∧ exec i s = .next t) := by
  unfold State.completeTurn State.fetch at h
  cases he : s.engine with
  | none =>
    simp only [he, Option.map_none, Host.Outcome.next.injEq] at h
    exact .inl ⟨rfl, h.symm⟩
  | some e =>
    simp only [he, Option.map_some, State.runWord] at h
    refine .inr ⟨e, rfl, ?_⟩
    split at h
    · rename_i i hi
      exact .inr ⟨i, hi, h⟩
    · rename_i r hr
      simp only [Host.Outcome.next.injEq] at h
      exact .inl ⟨r, hr, h.symm⟩

/-- Every way an iteration's turn can go. -/
theorem State.advanceTurn_cases {s t : State} (h : s.advanceTurn = .next t) :
    s.completeTurn = .next t
      ∨ ∃ e i q, s.engine = some e ∧ decodeWord e.cmd = .ok i ∧ t = s.withPipe q ∧ (Pipe.mk e s.mem).keeps q := by
  unfold State.advanceTurn at h
  cases he : s.engine with
  | none =>
    simp only [he] at h
    left
    simpa [State.completeTurn, State.fetch, he] using h
  | some e =>
    simp only [he] at h
    split at h
    · exact .inl h
    · rename_i i hi
      split at h
      · rename_i u hu
        simp only [Host.Outcome.next.injEq] at h
        subst h
        obtain ⟨q, hq, hk⟩ := State.advance_withPipe hu
        refine .inr ⟨e, i, q, rfl, ?_, hq, hk⟩
        revert hi
        unfold Engine.instr?
        cases decodeWord e.cmd <;> simp [Except.toOption]
      · exact .inl h

/-- Every way a host access can go on (R39, R277): an access beside the window, or one the register answers; a write to CMD that
issues a legal command finds its regions ordinary. -/
theorem State.hostAccess_cases {a : BusAccess} {s t : State} (h : s.hostAccess a = .next t) :
    t = s
      ∨ (s.platform.allows a = true ∧ s.issuesNotOrdinary (s.platform.regAt a) a.write = false
        ∧ t = s.regAccess (s.platform.regAt a) a.write) := by
  unfold State.hostAccess at h
  split_ifs at h with h1 h2 <;> simp only [Host.Outcome.next.injEq] at h
  · exact .inr ⟨h1, by simpa using h2, h.symm⟩
  · exact .inl h.symm

/-- What a write of the host to a register leaves (10_state.md R31, R34, R39, R276). -/
theorem State.writeReg_cases (r : Reg) (v : Word) (s : State) :
    s.writeReg r v = s
      ∨ (s.engine ≠ none ∧ s.writeReg r v = { s with ovr := true })
      ∨ (s.engine = none ∧ s.inReset = false
        ∧ (s.writeReg r v = s.issue v ∨ s.writeReg r v = { s with srcAddr := v } ∨ s.writeReg r v = { s with srcLen := v }
          ∨ s.writeReg r v = { s with dstAddr := v } ∨ s.writeReg r v = { s with dstLen := v })) := by
  unfold State.writeReg
  cases hr : s.inReset
  · cases he : s.engine with
    | none => cases r <;> simp [State.unlessBusy, State.busy, he]
    | some e =>
      cases r <;>
        first
        | exact .inl rfl
        | exact .inr (.inl ⟨by simp, by simp [State.unlessBusy, State.busy, he, hr]⟩)
  · simp

end Sys2Proof.Machine
end

