-- ==== Sys2Proof/Tests/Slice0.lean ====
section
/-! SUPPORT. Tests of single steps, their expected values from spec/ (95_test_vectors.md and the rules named), and for every
statement with hypotheses the states and operands that meet them. `decide +kernel`: the kernel alone evaluates. -/
namespace Sys2Proof.Tests
open Sys2Proof Sys2Proof.Machine

set_option Elab.async false

/-! ### Small states -/

/-- "ABCDEFGHIJKLMNOPQRSTUVWXYZ234567" (95_test_vectors.md, `STD`). -/
def std : Alphabet := Vector.ofFn fun k => BitVec.ofNat 8 (if k.val < 26 then 0x41 + k.val else 0x18 + k.val)

/-- The alphabet at 0x1000 and the source at 0x2000, as section 2 of 95_test_vectors.md has them. -/
def memoryWith (source : List Byte) : Memory := Memory.writeBytes (Memory.writeBytes [] 0x1000 std.toList) 0x2000 source

/-- A command just issued, with its operands. -/
def job (cmd src srcLen dst dstLen : Word) : Engine :=
  { cmd := cmd, srcAddr := src, srcLen := srcLen, dstAddr := dst, dstLen := dstLen, acc := 0, cnt := 0, i := 0, o := 0,
    padAt := none, phase := .reading5BitSymbols }

/-- A block just after reset with a command in progress. -/
def blank (source : List Byte) (e : Engine) : State := { State.reset with mem := memoryWith source, engine := some e }

/-- A std-pad or std-nopad bundle (95_test_vectors.md) with a command in progress. -/
def bundle (padEn : Bool) (source : List Byte) (e : Engine) : State :=
  { blank source e with
    encAlpha := std, encPadEn := padEn, encPad := if padEn then 0x3D else 0, encValid := true
    decInv := inverse std, decPadEn := padEn, decPad := if padEn then 0x3D else 0, decValid := true }

/-- A command of a bundle on the source at 0x2000, its destination at 0x3000. -/
def demo (padEn : Bool) (cmd : Word) (source : List Byte) (dstLen : Word) : State :=
  bundle padEn source (job cmd 0x2000 (BitVec.ofNat 32 source.length) 0x3000 dstLen)

/-- The outcome is a next state of which `p` holds. -/
def next (o : Host.Outcome State Fault Refusal) (p : State → Bool) : Bool :=
  match o with
  | .next t => p t
  | .fault _ => false
  | .refused _ => false

theorem next_elim {o : Host.Outcome State Fault Refusal} {p : State → Bool} (h : next o p = true) :
    ∃ t, o = .next t ∧ p t = true := by
  cases o with
  | next t => exact ⟨t, rfl, h⟩
  | fault r => cases h
  | refused r => cases h

/-- "JA======" (4A 41 3D 3D 3D 3D 3D 3D). -/
def padded : List Byte := [0x4A, 0x41, 0x3D, 0x3D, 0x3D, 0x3D, 0x3D, 0x3D]

/-! ### WellFormed refuses each ill-formed term (R104, R106) -/

theorem test_wellFormed_refuses_encCfg_pad_without_padEn : Instr.wellFormed (.encCfg false 0x41) = false := by decide
theorem test_wellFormed_refuses_decCfg_pad_without_padEn : Instr.wellFormed (.decCfg false 0x41) = false := by decide

/-! ### Decoding: words written out from R101, R102 and 95_test_vectors.md section 2.1 -/

theorem test_decode_words_of_every_command :
    [0b00000000001111010000000100000001, 0b00000000001111010000000100000010, 0b11, 0b100, 0b101, 0b110, 0b111].map
        (decodeTableWord 32)
      = [some (.encCfg true 0x3D), some (.decCfg true 0x3D), some .encSize, some .encode, some .decSizeUb,
          some .decSizeSlice, some .decode] := by decide

theorem test_decode_ignores_pad_without_padEn :
    [0x00410001, 0x00410002].map (decodeTableWord 32) = [some (.encCfg false 0), some (.decCfg false 0)] := by decide

theorem test_decode_refuses_illegal_words :
    ([0x00000000, 0x00000008, 0x0000000F, 0x00000011, 0x00000201, 0x01000001, 0x00000013, 0x00000103, 0x00410003,
        0x80000007].all fun w => (decodeTableWord 32 w).isNone) = true := by decide

theorem test_encode_is_the_word_of_the_table :
    [Instr.encCfg true 0x3D, .decCfg true 0x3D, .encSize, .encode, .decSizeUb, .decSizeSlice, .decode].map encodeInstr
      = [0x003D0101, 0x003D0102, 3, 4, 5, 6, 7] := by decide

/-! ### One step of each command -/

/-- CF1: ENC_CFG pad '=' from reset; STATUS 0x00000002, CFGSTAT 0x00003D03. -/
theorem test_encCfg_pad : next (step (blank [] (job 0x003D0101 0x1000 32 0 0))) (fun t =>
    t.statusWord == 2 && t.cfgstatWord == 0x00003D03 && t.encAlpha == std) = true := by decide +kernel

/-- CF5: the pad 'A' is in the alphabet; STATUS 0x00000A06, CFGSTAT 0. -/
theorem test_encCfg_pad_collision : next (step (blank [] (job 0x00410101 0x1000 32 0 0))) (fun t =>
    t.statusWord == 0x00000A06 && t.cfgstatWord == 0) = true := by decide +kernel

/-- CF2: DEC_CFG pad '='; CFGSTAT 0x3D030000, 'J' is 9, '7' is 31, '=' is no symbol. -/
theorem test_decCfg_pad : next (step (blank [] (job 0x003D0102 0x1000 32 0 0))) (fun t =>
    t.statusWord == 2 && t.cfgstatWord == 0x3D030000 && t.decInv.get 0x4A == some 9 && t.decInv.get 0x37 == some 31
      && t.decInv.get 0x3D == none) = true := by decide +kernel

/-- CF9, with DEC_CFG: a region that wraps; STATUS 0x00000B06. -/
theorem test_decCfg_wrapping_region : next (step (blank [] (job 0x00000002 0xFFFFFFF0 32 0 0))) (fun t =>
    t.statusWord == 0x00000B06 && t.cfgstatWord == 0) = true := by decide +kernel

/-- Section 2.3: 2684354555 padded gives 4294967288. -/
theorem test_encSize_largest_padded : next (step (bundle true [] (job 3 0 2684354555 0 0))) (fun t =>
    t.statusWord == 2 && t.result == 4294967288) = true := by decide +kernel

/-- Section 2.3: 2684354556 padded overflows; STATUS 0x00000C06. -/
theorem test_encSize_overflow : next (step (bundle true [] (job 3 0 2684354556 0 0))) (fun t =>
    t.statusWord == 0x00000C06 && t.result == 0) = true := by decide +kernel

/-- S5: "H" is "JA======"; a destination one byte long stays past the encoding (section 2.4). -/
theorem test_encode_H_padded : next (step (demo true 4 [0x48] 9)) (fun t =>
    t.statusWord == 2 && t.result == 8 && t.mem.bytes 0x3000 9 == padded ++ [0]) = true := by decide +kernel

/-- S2: "He" is "JBSQ", unpadded: three carried bits and a leftover. -/
theorem test_encode_He_unpadded : next (step (demo false 4 [0x48, 0x65] 4)) (fun t =>
    t.result == 4 && t.mem.bytes 0x3000 5 == [0x4A, 0x42, 0x53, 0x51, 0]) = true := by decide +kernel

/-- Section 2.5: 15 unpadded gives 9. -/
theorem test_decSizeUb_unpadded : next (step (bundle false [] (job 5 0 15 0 0))) (fun t =>
    t.statusWord == 2 && t.result == 9) = true := by decide +kernel

/-- Section 2.5: 15 padded gives INVALID_PADDING. -/
theorem test_decSizeUb_padded : next (step (bundle true [] (job 5 0 15 0 0))) (fun t =>
    t.statusWord == 0x00000202) = true := by decide +kernel

/-- Section 2.6: "JA======" has size 1. -/
theorem test_decSizeSlice_padded : next (step (demo true 6 padded 0)) (fun t =>
    t.statusWord == 2 && t.result == 1) = true := by decide +kernel

/-- Section 2.6: "AAAAAA==" (k = 2) gives INVALID_PADDING. -/
theorem test_decSizeSlice_two_pads : next (step (demo true 6 [0x41, 0x41, 0x41, 0x41, 0x41, 0x41, 0x3D, 0x3D] 0)) (fun t =>
    t.statusWord == 0x00000202) = true := by decide +kernel

/-- S6: "JA======" decodes to "H". -/
theorem test_decode_H_padded : next (step (demo true 7 padded 1)) (fun t =>
    t.statusWord == 2 && t.result == 1 && t.mem.bytes 0x3000 2 == [0x48, 0]) = true := by decide +kernel

/-- Section 2.7: "JB" unpadded leaves nonzero bits; INVALID_PADDING. -/
theorem test_decode_nonzero_leftover : next (step (demo false 7 [0x4A, 0x42] 1)) (fun t =>
    t.statusWord == 0x00000202 && t.result == 0) = true := by decide +kernel

/-! ### The host's side -/

/-- Section 2.1: word 0 on a block just after reset. -/
theorem test_step_illegal_word : next (step (blank [] (job 0 0 0 0 0))) (fun t => t.statusWord == 0x00000806) = true := by
  decide +kernel

/-- HZ5: SRC_LEN is written while busy; STATUS then reads 0x00000009. -/
theorem test_write_while_busy : next (step { demo true 7 padded 1 with inputs := [.access ⟨0x10, 4, some 5⟩] }) (fun t =>
    t.statusWord == 9 && t.srcLen == 0) = true := by decide +kernel

/-- R39: the halfword at STATUS is no access the window has. -/
theorem test_narrow_register_access :
    (match step { State.reset with inputs := [.access ⟨0x4, 2, none⟩] } with
      | .fault r => r == .registerAccess
      | _ => false) = true := by decide +kernel

/-- R75, R277 case 3: a CMD write that issues DEC_SIZE_SLICE over a device byte. -/
theorem test_issue_over_a_device :
    (match step { State.reset with
        srcAddr := 0x2000, srcLen := 8, platform := { regBase := 0, notOrdinary := [⟨0x2007, 1⟩] }
        inputs := [.access ⟨0, 4, some 6⟩] } with
      | .fault r => r == .notOrdinary
      | _ => false) = true := by decide +kernel

/-- R277 case 1: `region(DST_ADDR, DST_LEN)` is closed whatever the command, here ENC_SIZE. -/
theorem test_host_load_in_the_destination_of_encSize :
    (match step { bundle true [] (job 3 0 1 0x3000 8) with inputs := [.memory .host 0x3007 none] } with
      | .fault r => r == .hostInRegion
      | _ => false) = true := by decide +kernel

/-- R109, P1: `BUNDLE pad=0x3D` is two CMD writes at +0x00, each with its poll. -/
theorem test_expand_bundle :
    HostLine.expand { regBase := 0x40000000, notOrdinary := [] } (.bundle true 0x3D 2 0)
      = [.access ⟨0x40000000, 4, some 0x003D0101⟩, .poll 2, .access ⟨0x40000000, 4, some 0x003D0102⟩, .poll 0] := by decide

/-- `withFetchWord` makes the placed word the next step's command: ENC_SIZE on an unconfigured block (section 2.1). -/
theorem test_withFetchWord_runs_the_word : next (step (State.reset.withFetchWord 32 3)) (fun t =>
    t.statusWord == 0x00000906) = true := by decide +kernel

/-! ### Facts of the small states, used by the witnesses -/

theorem std_symbol : ∀ i : Index, (inverse std).get (std.get i.toFin).toFin = some i := by
  simp only [inverse_get]
  decide +kernel

theorem std_of_entry : ∀ b : Byte, ((inverse std).get b.toFin).all (fun i => std.get i.toFin == b) = true := by
  simp only [inverse_get]
  decide +kernel

/-- An entry of the table is a symbol of STD. -/
theorem std_entry (b : Byte) (i : Index) : (inverse std).get b.toFin = some i ↔ std.get i.toFin = b := by
  constructor
  · intro h
    simpa [h] using std_of_entry b
  · rintro rfl
    exact std_symbol i

theorem bundle_decodesAlphabet (padEn : Bool) (source : List Byte) (e : Engine) :
    (bundle padEn source e).decodesAlphabet std := by
  refine ⟨std_entry, fun h i => ?_⟩
  obtain rfl : padEn = true := h
  have hp : ∀ i : Index, std.get i.toFin ≠ (0x3D : Byte) := by decide +kernel
  exact hp i

theorem bundle_decoderInv (padEn : Bool) (source : List Byte) (e : Engine) : (bundle padEn source e).decoderInv := by
  refine ⟨fun _ => ⟨fun i => ⟨std.get i.toFin, (std_entry _ _).2 rfl, fun b h => ((std_entry _ _).1 h).symm⟩, ?_, ?_⟩, ?_⟩
  · show (inverse std).toList.countP Option.isNone = 224
    decide +kernel
  · intro h
    obtain rfl : padEn = true := h
    show (inverse std).get (0x3D : Byte).toFin = none
    decide +kernel
  · intro h
    obtain rfl : padEn = false := h
    rfl

theorem bundle_encoderInv (padEn : Bool) (source : List Byte) (e : Engine) : (bundle padEn source e).encoderInv := by
  refine ⟨fun _ => ⟨?_, ?_⟩, ?_⟩
  · show std.toList.Nodup
    decide +kernel
  · intro h
    obtain rfl : padEn = true := h
    show (0x3D : Byte) ∉ std.toList
    decide +kernel
  · intro h
    obtain rfl : padEn = false := h
    rfl

/-- Every address of the reset platform is ordinary memory. -/
theorem ordinary_everywhere (r : Region) : State.reset.platform.ordinaryOn r := fun _ _ _ => rfl

theorem job_fresh (cmd a n b m : Word) : (job cmd a n b m).fresh := ⟨rfl, rfl, rfl, rfl, rfl, rfl⟩

theorem demo_buffersOrdinary (padEn : Bool) (cmd : Word) (source : List Byte) (n : Word) (e : Engine) :
    (demo padEn cmd source n).buffersOrdinary e := ⟨ordinary_everywhere _, ordinary_everywhere _⟩

/-- The state with one thing left for the outside to do. -/
def facing (x : Input) (s : State) : State := { s with inputs := [x] }

/-! ### Witnesses: each statement's hypotheses are met, clause by clause -/

theorem witness_StepRunsTheLatchedCommand :
    let s := demo true 7 padded 1
    ∃ e, s.engine = some e ∧ decodeWord e.cmd = .ok .decode ∧ s.inputs = [] ∧ (facing .complete s).inputs = [.complete]
      ∧ (facing (.poll 0) s).inputs = [.poll 0] ∧ (facing (.poll 0) s).inReset = false
      ∧ State.advance .decode { e with phase := .done } s = none := ⟨_, rfl, by decide +kernel⟩

theorem witness_PlacedWordRunsNext_DecodeOfEncode :
    (Instr.encCfg true 0x3D).wellFormed = true ∧ (Instr.encCfg false 0).wellFormed = true
      ∧ (Instr.decCfg true 0xFF).wellFormed = true ∧ Instr.decode.wellFormed = true := by decide

theorem witness_IllegalWordsFault :
    (0x00000000 : Word).extractLsb' 0 4 = (0 : BitVec 4) ∧ (8 : BitVec 4) ≤ (0x0000000F : Word).extractLsb' 0 4
      ∧ (8 : BitVec 4) ≤ (0x00000008 : Word).extractLsb' 0 4
      ∧ ((0x00000013 : Word) &&& 0xFF00FEFF ≠ 0x00000001 ∧ (0x00000013 : Word) &&& 0xFF00FEFF ≠ 0x00000002)
      ∧ (blank [] (job 0x13 0 0 0 0)).engine = some (job 0x13 0 0 0 0) ∧ (blank [] (job 0x13 0 0 0 0)).inputs = [] := by
  decide +kernel

theorem witness_PadFieldIgnoredWithoutPadEn :
    let v : Word := 0x00410001
    let w : Word := 0x00FF0001
    v.extractLsb' 0 4 = (1 : BitVec 4) ∧ v.getLsbD 8 = false ∧ v &&& 0xFF00FFFF = w &&& 0xFF00FFFF
      ∧ (v + 1).extractLsb' 0 4 = (2 : BitVec 4) ∧ (v + 1).getLsbD 8 = false := by decide

/-- CF8 and CF9, CF10's boundary, CF1, CF4 and CF5, for both CFG commands. -/
theorem witness_CfgCommands :
    let j (a n : Word) := job 1 a n 0 0
    let A := (memoryWith []).alphabet 0x1000
    let B := Vector.set std 31 0x41
    (blank [] (j 0x1000 31)).engine = some (j 0x1000 31) ∧ (j 0x1000 31).srcLen ≠ 32
      ∧ 4294967296 < (j 0xFFFFFFE1 32).srcAddr.toNat + 32 ∧ (j 0xFFFFFFE0 32).srcAddr.toNat + 32 ≤ 4294967296
      ∧ (∀ k : Fin 32, A.get k = (memoryWith []).read ((j 0x1000 32).srcAddr.toNat + k.val))
      ∧ (∀ j k : Fin 32, A.get j = A.get k → j = k) ∧ (∀ k : Fin 32, A.get k ≠ 0x3D)
      ∧ ¬(∀ k : Fin 32, A.get k ≠ 0x41) ∧ ¬(∀ j k : Fin 32, B.get j = B.get k → j = k) := by decide +kernel

theorem witness_CfgCommands_ordinary : (blank [] (job 1 0x1000 32 0 0)).platform.ordinaryOn ⟨0x1000, 32⟩ :=
  ordinary_everywhere _

theorem witness_InverseTableOfAnAlphabet : ∀ j k : Fin 32, std.get j = std.get k → j = k := by decide +kernel

theorem witness_UnconfiguredUnitsFault :
    let s := blank [] (job 4 0x2000 1 0x3000 8)
    s.engine.isSome = true ∧ s.encValid = false ∧ s.decValid = false
      ∧ s.platform.ordinaryOn ((job 4 0x2000 1 0x3000 8).sourceOf .encode)
      ∧ s.platform.ordinaryOn ((job 4 0x2000 1 0x3000 8).destinationOf .encode) :=
  ⟨rfl, rfl, rfl, ordinary_everywhere _, ordinary_everywhere _⟩

theorem witness_EncSizeResult :
    let s := bundle true [] (job 3 0 2684354555 0 0)
    let t := bundle false [] (job 3 0 2684354559 0 0)
    s.encValid = true ∧ s.encPadEn = true ∧ (2684354555 : Word).toNat ≤ 2684354555 ∧ 2684354555 < (2684354556 : Word).toNat
      ∧ t.encValid = true ∧ t.encPadEn = false ∧ (2684354559 : Word).toNat ≤ 2684354559
      ∧ 2684354559 < (2684354560 : Word).toNat := ⟨rfl, rfl, by decide, by decide, rfl, rfl, by decide, by decide⟩

theorem witness_EncodeWritesTheEncoding :
    let s := demo true 4 [0x48] 8
    ∃ e, s.engine = some e ∧ e.fresh ∧ s.buffersOrdinary e ∧ s.encValid = true ∧ e.buffersOk
      ∧ encSize e.srcLen.toNat s.encPadEn ≤ 4294967295 ∧ encSize e.srcLen.toNat s.encPadEn ≤ e.dstLen.toNat :=
  ⟨_, rfl, job_fresh _ _ _ _ _, demo_buffersOrdinary _ _ _ _ _, rfl, (Engine.regionsOk_iff _).1 (by decide), by decide, by decide⟩

/-- The overlap and wrap of section 2.4, and a destination one byte short. -/
theorem witness_EncodeFaultsInOrder :
    let wraps := job 4 0x2000 5 0xFFFFFFF9 8
    let overlaps := job 4 0x2000 5 0x2004 8
    ¬wraps.buffersOk ∧ ¬overlaps.buffersOk ∧ (job 4 0x2000 1 0x3000 7).dstLen.toNat < encSize 1 true
      ∧ 4294967295 < encSize 2684354556 true := by
  simp only [← Engine.regionsOk_iff]
  decide

theorem witness_EncodeLengthLaw :
    let p : Pipe := ⟨job 4 0x2000 1 0x3000 8, memoryWith [0x48]⟩
    p.eng.fresh ∧ encSize p.eng.srcLen.toNat true ≤ 4294967295 := ⟨job_fresh _ _ _ _ _, by decide⟩

theorem witness_EncodingLengthsByRemainder :
    let bytes : List Byte := [1, 2, 3, 4, 5, 6, 7, 8, 9]
    bytes.length = 5 * 1 + 4 ∧ ([] : List Byte).length = 5 * 0 + 0 ∧ (bytes.take 6).length = 5 * 1 + 1
      ∧ (bytes.take 7).length = 5 * 1 + 2 ∧ (bytes.take 3).length = 5 * 0 + 3 := by decide

theorem witness_DecSizeUbResult :
    let s := bundle true [] (job 5 0 4294967288 0 0)
    let t := bundle false [] (job 5 0 4294967295 0 0)
    s.decValid = true ∧ s.decPadEn = true ∧ (4294967288 : Word).toNat % 8 = 0 ∧ (4294967295 : Word).toNat % 8 ≠ 0
      ∧ t.decValid = true ∧ t.decPadEn = false
      ∧ ((4294967295 : Word).toNat % 8, 4) ∈ [(0, 0), (2, 1), (4, 2), (5, 3), (7, 4)]
      ∧ (6 : Word).toNat % 8 ∈ [1, 3, 6] ∧ (blank [] (job 5 0 0 0 0)).decValid = false :=
  ⟨rfl, rfl, by decide, by decide, rfl, rfl, by decide, by decide, rfl⟩

/-- "JA======" has six trailing pads; a source that wraps. -/
theorem witness_DecSizeSliceResult :
    let s := demo true 6 padded 0
    let e := job 6 0x2000 8 0x3000 0
    s.engine = some e ∧ s.decValid = true ∧ s.decPadEn = true ∧ e.srcAddr.toNat + e.srcLen.toNat ≤ 4294967296
      ∧ e.srcLen.toNat % 8 = 0 ∧ (∀ j < 6, s.mem.read (e.srcAddr.toNat + (e.srcLen.toNat - 1 - j)) = s.decPad)
      ∧ s.mem.read (e.srcAddr.toNat + (e.srcLen.toNat - 1 - 6)) ≠ s.decPad
      ∧ 4294967296 < (job 6 0xFFFFFFFF 2 0 0).srcAddr.toNat + (job 6 0xFFFFFFFF 2 0 0).srcLen.toNat
      ∧ (demo false 6 [0x4A, 0x41] 0).decPadEn = false ∧ (2 % 8, 1) ∈ [(0, 0), (2, 1), (4, 2), (5, 3), (7, 4)]
      ∧ 6 % 8 ∈ [1, 3, 6] := by decide +kernel

theorem witness_UnpaddedSizesAgree :
    let s := demo false 6 padded 0
    ∃ e, s.engine = some e ∧ s.platform.ordinaryOn ⟨e.srcAddr.toNat, e.srcLen.toNat⟩
      ∧ e.srcAddr.toNat + e.srcLen.toNat ≤ 4294967296 ∧ s.decPadEn = false :=
  ⟨_, rfl, ordinary_everywhere _, by decide, rfl⟩

theorem witness_RejectedRemainders :
    let s := demo true 7 (padded.take 7) 0
    let t := demo false 7 [0x41] 0
    ∃ e f, s.engine = some e ∧ s.buffersOrdinary e ∧ s.decValid = true ∧ e.buffersOk ∧ s.decPadEn = true
      ∧ e.srcLen.toNat % 8 ≠ 0 ∧ t.engine = some f ∧ t.decPadEn = false ∧ f.srcLen.toNat % 8 ∈ [1, 3, 6] :=
  ⟨_, _, rfl, demo_buffersOrdinary _ _ _ _ _, rfl, (Engine.regionsOk_iff _).1 (by decide), rfl, by decide, rfl, rfl, by decide⟩

theorem witness_DecodeOfAnEncoding :
    let s := demo true 7 padded 1
    ∃ e, s.engine = some e ∧ e.fresh ∧ s.buffersOrdinary e ∧ s.decValid = true ∧ e.buffersOk ∧ s.decodesAlphabet std
      ∧ s.mem.bytes e.srcAddr.toNat e.srcLen.toNat = encodingOf std s.decPadEn s.decPad [0x48]
      ∧ e.dstLen.toNat = [(0x48 : Byte)].length :=
  ⟨_, rfl, job_fresh _ _ _ _ _, demo_buffersOrdinary _ _ _ _ _, rfl, (Engine.regionsOk_iff _).1 (by decide),
    bundle_decodesAlphabet _ _ _, by decide +kernel, by decide⟩

theorem witness_DecodeAcceptsOnlyEncodings :
    let s := demo true 7 padded 1
    ∃ e t, s.engine = some e ∧ e.fresh ∧ s.decodesAlphabet std ∧ exec .decode s = .next t ∧ t.err = .none := by
  obtain ⟨t, h, k⟩ := next_elim (p := fun t => t.err == .none)
    (show next (exec .decode (demo true 7 padded 1)) _ = true by decide +kernel)
  exact ⟨_, t, rfl, job_fresh _ _ _ _ _, bundle_decodesAlphabet _ _ _, h, by simpa using k⟩

/-- "H" encoded to 0x3000 and decoded back to 0x4000. -/
theorem witness_RoundTrip :
    let s := demo true 4 [0x48] 8
    let f := job 7 0x3000 8 0x4000 1
    ∃ e t, s.mem.wf = true ∧ s.engine = some e ∧ e.fresh ∧ s.decValid = true ∧ s.decPadEn = s.encPadEn ∧ s.decPad = s.encPad
      ∧ s.decodesAlphabet s.encAlpha ∧ exec .encode s = .next t ∧ t.err = .none ∧ f.fresh ∧ f.srcAddr = e.dstAddr
      ∧ f.srcLen = t.result ∧ f.dstLen = e.srcLen ∧ f.buffersOk ∧ t.buffersOrdinary f := by
  obtain ⟨t, h, k⟩ := next_elim (p := fun t => t.err == .none && t.result == 8 && t.platform == State.reset.platform)
    (show next (exec .encode (demo true 4 [0x48] 8)) _ = true by decide +kernel)
  simp only [Bool.and_eq_true, beq_iff_eq] at k
  refine ⟨_, t, by decide +kernel, rfl, job_fresh _ _ _ _ _, rfl, rfl, rfl, bundle_decodesAlphabet _ _ _, h, k.1.1,
    job_fresh _ _ _ _ _, rfl, k.1.2.symm, rfl, (Engine.regionsOk_iff _).1 (by decide), ?_⟩
  constructor <;> rw [k.2] <;> exact ordinary_everywhere _

/-- The size checks of section 2.7: DST_LEN 2 for a size of 1, "AAAAAA==" (k = 2), and an overlap. -/
theorem witness_DecodeChecksInOrder :
    let s := demo true 7 padded 2
    s.decValid = true ∧ (job 7 0x2000 8 0x3000 2).regionsOk = true ∧ (job 7 0x2000 8 0x2004 5).regionsOk = false
      ∧ s.mem.decSlice 0x2000 8 s.decPadEn s.decPad = .ok 1
      ∧ (memoryWith [0x41, 0x41, 0x41, 0x41, 0x41, 0x41, 0x3D, 0x3D]).decSlice 0x2000 8 s.decPadEn s.decPad
          = .error .invalidPadding := by decide +kernel

/-- "JBSQ!===" (section 2.7): '!' at index 4. -/
theorem witness_BadByteBeforeAnyPad :
    let s := demo true 7 [0x4A, 0x42, 0x53, 0x51, 0x21, 0x3D, 0x3D, 0x3D] 3
    ∃ e, s.engine = some e ∧ e.fresh ∧ s.buffersOrdinary e ∧ s.decValid = true ∧ s.decoderInv ∧ e.buffersOk
      ∧ s.mem.decSlice e.srcAddr e.srcLen.toNat s.decPadEn s.decPad = .ok e.dstLen.toNat ∧ 4 < e.srcLen.toNat
      ∧ (∀ k < 4, (s.decInv.get (s.mem.read (e.srcAddr.toNat + k)).toFin).isSome = true)
      ∧ s.decInv.get (s.mem.read (e.srcAddr.toNat + 4)).toFin = none
      ∧ s.mem.read (e.srcAddr.toNat + 4) ≠ s.decPad :=
  ⟨_, rfl, job_fresh _ _ _ _ _, demo_buffersOrdinary _ _ _ _ _, rfl, bundle_decoderInv _ _ _,
    (Engine.regionsOk_iff _).1 (by decide), by decide +kernel, by decide, by decide +kernel, by decide +kernel, by decide +kernel⟩

/-- "JA=A====" (section 2.7): the tail's 'A' at index 3. -/
theorem witness_FirstBadByteOfTheTail :
    let s := demo true 7 [0x4A, 0x41, 0x3D, 0x41, 0x3D, 0x3D, 0x3D, 0x3D] 2
    ∃ e, s.engine = some e ∧ e.fresh ∧ s.buffersOrdinary e ∧ s.decValid = true ∧ s.decPadEn = true ∧ e.buffersOk
      ∧ s.decodesAlphabet std ∧ s.mem.decSlice e.srcAddr e.srcLen.toNat s.decPadEn s.decPad = .ok e.dstLen.toNat
      ∧ 3 < e.srcLen.toNat ∧ s.mem.bytes e.srcAddr.toNat 2 = symbolsOf std [0x48]
      ∧ (∀ k < 3, 2 ≤ k → s.mem.read (e.srcAddr.toNat + k) = s.decPad) ∧ s.mem.read (e.srcAddr.toNat + 3) ≠ s.decPad :=
  ⟨_, rfl, job_fresh _ _ _ _ _, demo_buffersOrdinary _ _ _ _ _, rfl, rfl, (Engine.regionsOk_iff _).1 (by decide),
    bundle_decodesAlphabet _ _ _, by decide +kernel, by decide, by decide +kernel, by decide +kernel, by decide +kernel⟩

/-- "JB" unpadded (section 2.7) leaves 01; "AAA=AAAA" padded leaves 7 bits at its pad byte. -/
theorem witness_LeftoverBitsAreRejected :
    let s := demo false 7 [0x4A, 0x42] 1
    let u := demo true 7 [0x41, 0x41, 0x41, 0x3D, 0x41, 0x41, 0x41, 0x41] 5
    (∃ e, s.engine = some e ∧ e.fresh ∧ s.buffersOrdinary e ∧ s.decValid = true ∧ e.buffersOk ∧ s.decodesAlphabet std
        ∧ s.mem.decSlice e.srcAddr e.srcLen.toNat s.decPadEn s.decPad = .ok e.dstLen.toNat
        ∧ s.mem.bytes e.srcAddr.toNat 2 = [(9 : Index), 1].map (fun x => std.get x.toFin) ∧ 2 = e.srcLen.toNat
        ∧ true ∈ leftoverBits [9, 1])
      ∧ ∃ e, u.engine = some e ∧ e.fresh ∧ u.buffersOrdinary e ∧ u.decValid = true ∧ e.buffersOk ∧ u.decodesAlphabet std
        ∧ u.mem.decSlice e.srcAddr e.srcLen.toNat u.decPadEn u.decPad = .ok e.dstLen.toNat
        ∧ u.mem.bytes e.srcAddr.toNat 3 = [(0 : Index), 0, 0].map (fun x => std.get x.toFin) ∧ 3 < e.srcLen.toNat
        ∧ u.decPadEn = true ∧ u.mem.read (e.srcAddr.toNat + 3) = u.decPad ∧ 4 < (leftoverBits [0, 0, 0]).length :=
  ⟨⟨_, rfl, job_fresh _ _ _ _ _, demo_buffersOrdinary _ _ _ _ _, rfl, (Engine.regionsOk_iff _).1 (by decide),
      bundle_decodesAlphabet _ _ _, by decide +kernel, by decide +kernel, by decide, by decide⟩,
    ⟨_, rfl, job_fresh _ _ _ _ _, demo_buffersOrdinary _ _ _ _ _, rfl, (Engine.regionsOk_iff _).1 (by decide),
      bundle_decodesAlphabet _ _ _, by decide +kernel, by decide +kernel, by decide, rfl, by decide +kernel, by decide⟩⟩

/-- "=AAAAAAA" (section 2.7). -/
theorem witness_PadByteAtABlockStart :
    let s := demo true 7 [0x3D, 0x41, 0x41, 0x41, 0x41, 0x41, 0x41, 0x41] 5
    ∃ e, s.engine = some e ∧ e.fresh ∧ s.buffersOrdinary e ∧ s.decValid = true ∧ s.decPadEn = true ∧ e.buffersOk
      ∧ s.decodesAlphabet std ∧ s.mem.decSlice e.srcAddr e.srcLen.toNat s.decPadEn s.decPad = .ok e.dstLen.toNat
      ∧ ([] : List Index).length < e.srcLen.toNat ∧ ([] : List Index).length % 8 = 0
      ∧ s.mem.bytes e.srcAddr.toNat 0 = ([] : List Index).map (fun x => std.get x.toFin)
      ∧ s.mem.read (e.srcAddr.toNat + 0) = s.decPad :=
  ⟨_, rfl, job_fresh _ _ _ _ _, demo_buffersOrdinary _ _ _ _ _, rfl, rfl, (Engine.regionsOk_iff _).1 (by decide),
    bundle_decodesAlphabet _ _ _, by decide +kernel, by decide, by decide, rfl, by decide +kernel⟩

/-- "JA======" has the six pads its two leftover bits need; of its first seven bytes the tail is one short. -/
theorem witness_UnpackChecksTheTailCount :
    let e := job 7 0x2000 8 0x3000 1
    let f := job 7 0x2000 7 0x3000 1
    e.fresh ∧ f.fresh ∧ e.buffersOk ∧ f.buffersOk
      ∧ ((∀ (b : Byte) (i : Index), (inverse std).get b.toFin = some i ↔ std.get i.toFin = b)
        ∧ ∀ i : Index, std.get i.toFin ≠ 0x3D)
      ∧ 2 < f.srcLen.toNat ∧ 5 * 2 / 8 ≤ f.dstLen.toNat
      ∧ (memoryWith padded).bytes e.srcAddr.toNat 2 = [(9 : Index), 0].map (fun x => std.get x.toFin)
      ∧ (5 * 2 % 8, 6) ∈ [(2, 6), (4, 4), (1, 3), (3, 1)] ∧ true ∉ leftoverBits [9, 0]
      ∧ (∀ k < 8, 2 ≤ k → (memoryWith padded).read (e.srcAddr.toNat + k) = 0x3D)
      ∧ e.srcLen.toNat - 2 = 6 ∧ f.srcLen.toNat - 2 ≠ 6 :=
  ⟨job_fresh _ _ _ _ _, job_fresh _ _ _ _ _, (Engine.regionsOk_iff _).1 (by decide), (Engine.regionsOk_iff _).1 (by decide),
    ⟨std_entry, (bundle_decodesAlphabet true [] (job 7 0 0 0 0)).2 rfl⟩, by decide, by decide, by decide +kernel, by decide,
    by decide, by decide +kernel, by decide, by decide⟩

/-- "JB======" (section 2.7) ends inside `unpack`; "JA======" with DST_LEN 2 ends before it. -/
theorem witness_DestinationAfterADecodeError :
    let s := demo true 7 [0x4A, 0x42, 0x3D, 0x3D, 0x3D, 0x3D, 0x3D, 0x3D] 1
    let u := demo true 7 padded 2
    (∃ e t, s.mem.wf = true ∧ s.engine = some e ∧ exec .decode s = .next t ∧ t.err ≠ .none
        ∧ s.decodeChecks e = .ok e.dstLen.toNat)
      ∧ ∃ e t, u.mem.wf = true ∧ u.engine = some e ∧ exec .decode u = .next t ∧ t.err ≠ .none
        ∧ u.decodeChecks e ≠ .ok e.dstLen.toNat := by
  obtain ⟨t, h, k⟩ := next_elim (p := fun t => t.err == .invalidPadding)
    (show next (exec .decode (demo true 7 [0x4A, 0x42, 0x3D, 0x3D, 0x3D, 0x3D, 0x3D, 0x3D] 1)) _ = true by decide +kernel)
  obtain ⟨v, h', k'⟩ := next_elim (p := fun t => t.err == .contract)
    (show next (exec .decode (demo true 7 padded 2)) _ = true by decide +kernel)
  refine ⟨⟨_, t, by decide +kernel, rfl, h, ?_, by decide +kernel⟩, ⟨_, v, by decide +kernel, rfl, h', ?_, by decide +kernel⟩⟩
  · rw [beq_iff_eq.1 k]; decide
  · rw [beq_iff_eq.1 k']; decide

theorem witness_UnpackWritesAreBounded :
    let s := demo true 7 padded 1
    ∃ e q, s.engine = some e ∧ e.fresh ∧ e.buffersOk ∧ s.decValid = true ∧ s.decoderInv
      ∧ s.mem.decSlice e.srcAddr e.srcLen.toNat s.decPadEn s.decPad = .ok 1 ∧ e.dstLen.toNat = 1
      ∧ (State.advances .decode 2 s).engine.isSome = true
      ∧ Pipe.unpackRest s.decInv s.decPadEn s.decPad ⟨e, s.mem⟩ = .ok q := by
  have h : ∃ q, Pipe.unpackRest (inverse std) true 0x3D ⟨job 7 0x2000 8 0x3000 1, memoryWith padded⟩ = .ok q := by
    have hk : (Pipe.unpackRest (inverse std) true 0x3D ⟨job 7 0x2000 8 0x3000 1, memoryWith padded⟩).toOption.isSome = true := by
      decide +kernel
    cases hq : Pipe.unpackRest (inverse std) true 0x3D ⟨job 7 0x2000 8 0x3000 1, memoryWith padded⟩ with
    | error k => rw [hq] at hk; cases hk
    | ok q => exact ⟨q, rfl⟩
  obtain ⟨q, hq⟩ := h
  exact ⟨_, q, rfl, job_fresh _ _ _ _ _, (Engine.regionsOk_iff _).1 (by decide), rfl, bundle_decoderInv _ _ _,
    by decide +kernel, by decide, by decide +kernel, hq⟩

theorem witness_EveryCommandCompletes :
    let s := demo true 7 padded 1
    ∃ e, s.engine = some e ∧ s.inputs = [] ∧ ∀ i, decodeWord e.cmd = .ok i →
      s.platform.ordinaryOn (e.sourceOf i) ∧ s.platform.ordinaryOn (e.destinationOf i) :=
  ⟨_, rfl, rfl, fun _ _ => ⟨ordinary_everywhere _, ordinary_everywhere _⟩⟩

/-- A next state of each class: a success, CONFIG_INVALID (CF5), another fault, a typed error. -/
theorem witness_exec_answers_next :
    next (exec .encode (demo true 4 [0x48] 8)) (fun t => t.err == .none)
      && next (exec (.encCfg true 0x41) (blank [] (job 0x00410101 0x1000 32 0 0))) (fun t => t.err == .configInvalid)
      && next (exec (.decCfg true 0x41) (blank [] (job 0x00410102 0x1000 32 0 0))) (fun t => t.err == .configInvalid)
      && next (exec .decSizeUb (blank [] (job 5 0 0 0 0))) (fun t => t.err == .notConfigured)
      && next (exec .decSizeSlice (demo true 6 [0x41] 0)) (fun t => t.err == .invalidPadding)
      && next (exec .encSize (bundle true [] (job 3 0 1 0 0))) (fun t => t.err == .none) = true := by decide +kernel

/-- WritesAreConfined, IterationsMakeOneTransition and IterationsEnd. -/
theorem witness_iterations :
    let s := demo true 4 [0x48] 8
    ∃ e, s.mem.wf = true ∧ s.decoderInv ∧ s.engine = some e ∧ e.fresh
      ∧ next (exec .encode s) (fun _ => true) = true :=
  ⟨_, by decide +kernel, bundle_decoderInv _ _ _, rfl, job_fresh _ _ _ _ _, by decide +kernel⟩

/-- The statements about register accesses: idle, busy and under reset, at the lowest and the highest window. -/
theorem witness_register_accesses :
    let idle := facing (State.reset.platform.wr .cmd 3) State.reset
    let busy := facing (State.reset.platform.wr .srcLen 5) (demo true 7 padded 1)
    let muted := facing .releaseReset { State.reset with inReset := true }
    idle.platform.windowFits ∧ ({ idle.platform with regBase := 0xFFFFFFDC } : Platform).windowFits ∧ idle.inReset = false
      ∧ idle.engine = none ∧ idle.inputs = [State.reset.platform.wr .cmd 3]
      ∧ busy.engine ≠ none ∧ busy.inReset = false ∧ Reg.srcLen ∈ [Reg.cmd, .srcAddr, .srcLen, .dstAddr, .dstLen]
      ∧ Reg.reserved ∈ [Reg.status, .result, .cfgstat, .reserved] ∧ muted.inReset = true ∧ muted.inputs = [.releaseReset] := by
  unfold Platform.windowFits
  decide +kernel

theorem witness_ResultIsStaleWhileBusy :
    let s := facing .advance (demo true 7 padded 1)
    ∃ t, step s = .next t ∧ t.engine ≠ none ∧ s.statusInv := by
  obtain ⟨t, h, k⟩ := next_elim (p := fun t => t.engine.isSome)
    (show next (step (facing .advance (demo true 7 padded 1))) _ = true by decide +kernel)
  refine ⟨t, h, fun hn => ?_, ⟨fun _ => ⟨rfl, rfl⟩, fun hf => ?_, fun hr => ?_⟩⟩
  · rw [hn] at k; cases k
  · exact absurd hf (by decide)
  · cases hr

/-- The last byte of a source, the first of a destination and the last of ENC_SIZE's; a halfword, a misaligned word and a word at
the window's end; a source byte that is not ordinary memory, for the CMD write and for `exec`. -/
theorem witness_OutOfContractActionsFault :
    let e := job 7 0x2000 8 0x3000 1
    let odd : Platform := { regBase := 0, notOrdinary := [⟨0x2007, 1⟩] }
    let half : BusAccess := ⟨4, 2, none⟩
    let skew : BusAccess := ⟨6, 4, none⟩
    let past : BusAccess := ⟨34, 4, some 1⟩
    (demo true 7 padded 1).engine = some e ∧ decodeWord e.cmd = .ok .decode
      ∧ ((e.sourceOf .decode).base ≤ 0x2007 ∧ 0x2007 < (e.sourceOf .decode).base + (e.sourceOf .decode).len)
      ∧ (e.dstAddr.toNat ≤ 0x3000 ∧ 0x3000 < e.dstAddr.toNat + e.dstLen.toNat)
      ∧ ((job 3 0 1 0x3000 8).dstAddr.toNat ≤ 0x3007
        ∧ 0x3007 < (job 3 0 1 0x3000 8).dstAddr.toNat + (job 3 0 1 0x3000 8).dstLen.toNat)
      ∧ half.bytes ≠ 4 ∧ (skew.addr.toNat - 0) % 4 ≠ 0 ∧ 0 + 36 < past.addr.toNat + 4
      ∧ past.addr.toNat < 0 + 36 ∧ odd.ordinaryAt 0x2007 = false := by decide +kernel

/-- CmdWriteIssues and OutOfContractActionsFault: a DECODE whose last source byte is a device's, and one over ordinary memory. -/
theorem witness_issue_ordinary_or_not :
    let s : State := { State.reset with srcAddr := 0x2000, srcLen := 8, dstAddr := 0x3000, dstLen := 1 }
    let u : State := { s with platform := { regBase := 0, notOrdinary := [⟨0x2007, 1⟩] } }
    s.engine = none ∧ u.engine = none ∧ u.inReset = false ∧ u.platform.windowFits ∧ decodeWord 7 = .ok .decode
      ∧ (s.platform.ordinaryOn ((s.latch 7).sourceOf .decode) ∧ s.platform.ordinaryOn ((s.latch 7).destinationOf .decode))
      ∧ ¬u.platform.ordinaryOn ((u.latch 7).sourceOf .decode) :=
  ⟨rfl, rfl, rfl, by unfold Platform.windowFits; decide, by decide, ⟨ordinary_everywhere _, ordinary_everywhere _⟩,
    (Platform.not_ordinary_iff _ _).1 (by decide)⟩

theorem witness_PollReadsUntilIdle :
    let s := demo true 7 padded 1
    (facing (.poll 0) State.reset).engine = none ∧ (facing (.poll 3) s).engine ≠ none ∧ (facing (.poll 3) s).inReset = false
      ∧ next (step (facing (.poll 0) s)) (fun _ => true) = true := by decide +kernel

theorem witness_HostLoadsAndStores :
    let s := facing (.memory .host 0x4000 (some 7)) (demo true 7 padded 1)
    s.inCommandRegion (0x4000 : Word).toNat = false ∧ s.platform.ordinaryAt (0x4000 : Word).toNat = true
      ∧ s.mem.wf = true := by decide +kernel

/-- ResetAbandonsTheCommand: an ENCODE, an ENC_SIZE whose region ends at the top of memory, and no command. -/
theorem witness_ResetAbandonsTheCommand :
    let s := facing .assertReset (demo true 4 [0x48] 8)
    s.inputs = [.assertReset] ∧ s.engine = some (job 4 0x2000 1 0x3000 8) ∧ decodeWord 4 = .ok .encode
      ∧ s.mem.wf = true ∧ 0 < (job 3 0 1 0xFFFFFFFF 1).dstLen.toNat
      ∧ (job 3 0 1 0xFFFFFFFF 1).dstAddr.toNat + 0 < 4294967296 ∧ (facing .assertReset State.reset).engine = none := by
  decide +kernel

/-- The invariants hold, and a step answers next, in a state with a command in progress whose FAULT and OVR are set. -/
theorem witness_invariants :
    let s := { demo true 4 [0x48] 8 with fault := true, ovr := true }
    s.mem.wf = true ∧ s.encoderInv ∧ s.decoderInv ∧ s.statusInv ∧ s.runningOrdinary ∧ s.inputs ≠ [.releaseReset]
      ∧ decodeWord 4 ≠ .ok (.encCfg true 0) ∧ next (step s) (fun _ => true) = true :=
  ⟨by decide +kernel, bundle_encoderInv true [0x48] (job 4 0x2000 1 0x3000 8),
    bundle_decoderInv true [0x48] (job 4 0x2000 1 0x3000 8), ⟨fun _ => ⟨rfl, rfl⟩, fun _ => rfl, fun h => nomatch h⟩,
    fun _ _ _ _ => ⟨ordinary_everywhere _, ordinary_everywhere _⟩, by decide, by decide, by decide +kernel⟩

end Sys2Proof.Tests
end

section
/-! What a command and a step can do: one inductive relation each, whose constructors are the cases every invariant and frame
proof below goes through. -/
namespace Sys2Proof.Machine

/-! ### How a command ends -/

/-- Every way the command `i` run from `s` can end (60_exceptions.md R240): it raises a code or completes, and beside STATUS and
RESULT only a CFG command touches its unit's configuration and only ENCODE and DECODE the memory. -/
inductive State.Ends (s : State) : Instr → State → Prop
  | raised (i : Instr) (k : Err) : s.Ends i (s.raise k)
  | completed (i : Instr) (v : Word) : s.Ends i (s.complete v)
  | encoderCleared (padEn : Bool) (pad : Byte) : s.Ends (.encCfg padEn pad) (s.clearEncoder.raise .configInvalid)
  | encoderSet {padEn : Bool} {pad : Byte} {A : Alphabet} (hA : alphabetOk A padEn (padOperand padEn pad) = true) :
      s.Ends (.encCfg padEn pad) ((s.setEncoder A padEn (padOperand padEn pad)).complete 0)
  | decoderCleared (padEn : Bool) (pad : Byte) : s.Ends (.decCfg padEn pad) (s.clearDecoder.raise .configInvalid)
  | decoderSet {padEn : Bool} {pad : Byte} {A : Alphabet} (hA : alphabetOk A padEn (padOperand padEn pad) = true) :
      s.Ends (.decCfg padEn pad) ((s.setDecoder A padEn (padOperand padEn pad)).complete 0)
  | encoded (v : Word) (m : Memory) : s.Ends .encode (State.complete v { s with mem := m })
  | decoded (v : Word) (m : Memory) : s.Ends .decode (State.complete v { s with mem := m })
  | decodeAborted (r : Region) (k : Err) : s.Ends .decode ((s.scramble r).raise k)

/-- A command that answers a next state has ended in one of these ways. -/
theorem exec_ends {i : Instr} {s t : State} (h : exec i s = .next t) : s.Ends i t := by
  cases i with
  | encCfg padEn pad =>
    obtain rfl | rfl | ⟨hA, rfl⟩ := execEncCfg_cases h
    · exact .raised _ _
    · exact .encoderCleared padEn pad
    · exact .encoderSet hA
  | decCfg padEn pad =>
    obtain rfl | rfl | ⟨hA, rfl⟩ := execDecCfg_cases h
    · exact .raised _ _
    · exact .decoderCleared padEn pad
    · exact .decoderSet hA
  | encSize =>
    obtain rfl | rfl | ⟨-, -, rfl⟩ := execEncSize_cases h
    · exact .raised _ _
    · exact .raised _ _
    · exact .completed _ _
  | encode =>
    obtain ⟨k, -, rfl⟩ | ⟨len, -, rfl⟩ := execEncode_cases h
    · exact .raised _ k
    · exact .encoded _ _
  | decSizeUb =>
    obtain rfl | rfl | ⟨u, -, rfl⟩ := execDecSizeUb_cases h
    · exact .raised _ _
    · exact .raised _ _
    · exact .completed _ _
  | decSizeSlice =>
    obtain rfl | rfl | rfl | ⟨m, -, rfl⟩ := execDecSizeSlice_cases h
    · exact .raised _ _
    · exact .raised _ _
    · exact .raised _ _
    · exact .completed _ _
  | decode =>
    obtain ⟨k, -, rfl⟩ | ⟨m, k, -, -, rfl⟩ | ⟨m, p, -, -, rfl⟩ := execDecode_cases h
    · exact .raised _ k
    · exact .decodeAborted _ k
    · exact .decoded _ _

/-- No command is in progress any more when one has ended, and STATUS shows DONE. -/
theorem State.Ends.idle {i : Instr} {s t : State} (h : s.Ends i t) : t.engine = none ∧ t.done = true := by
  cases h <;> simp

/-- NONE is not of the fault class (60_exceptions.md R241). -/
@[simp] theorem Err.isFault_none : Err.none.isFault = false := rfl

/-- FAULT is what it was, or set by a fault-class code (60_exceptions.md R244). -/
theorem State.Ends.fault_eq {i : Instr} {s t : State} (h : s.Ends i t) : t.fault = (s.fault || t.err.isFault) := by
  cases h <;> simp

/-- Only a CFG command writes its unit's configuration. -/
theorem State.Ends.encoder_eq {i : Instr} {s t : State} (h : s.Ends i t) (hi : ∀ pe p, i ≠ .encCfg pe p) :
    t.encAlpha = s.encAlpha ∧ t.encPadEn = s.encPadEn ∧ t.encPad = s.encPad ∧ t.encValid = s.encValid := by
  cases h
  case encoderCleared padEn pad => exact absurd rfl (hi padEn pad)
  case encoderSet padEn pad A hA => exact absurd rfl (hi padEn pad)
  all_goals simp

theorem State.Ends.decoder_eq {i : Instr} {s t : State} (h : s.Ends i t) (hi : ∀ pe p, i ≠ .decCfg pe p) :
    t.decInv = s.decInv ∧ t.decPadEn = s.decPadEn ∧ t.decPad = s.decPad ∧ t.decValid = s.decValid := by
  cases h
  case decoderCleared padEn pad => exact absurd rfl (hi padEn pad)
  case decoderSet padEn pad A hA => exact absurd rfl (hi padEn pad)
  all_goals simp

/-- Only ENCODE and DECODE write memory. -/
theorem State.Ends.mem_eq {i : Instr} {s t : State} (h : s.Ends i t) (he : i ≠ .encode) (hd : i ≠ .decode) : t.mem = s.mem := by
  cases h
  case encoded => exact absurd rfl he
  case decoded => exact absurd rfl hd
  case decodeAborted => exact absurd rfl hd
  all_goals simp

/-- Settles O35: each part is read off the way the command ended. -/
theorem frameOfEveryCommand : Obligations.FrameOfEveryCommand := by
  intro i s t h
  have hends := exec_ends h
  have hregs : t.srcAddr = s.srcAddr ∧ t.srcLen = s.srcLen ∧ t.dstAddr = s.dstAddr ∧ t.dstLen = s.dstLen ∧ t.ovr = s.ovr
      ∧ t.inReset = s.inReset ∧ t.platform = s.platform ∧ t.inputs = s.inputs ∧ t.seen = s.seen := by
    cases hends <;> simp
  obtain ⟨hsa, hsl, hda, hdl, hovr, hrst, hplat, hin, hseen⟩ := hregs
  exact ⟨hsa, hsl, hda, hdl, hovr, hrst, hplat, hin, hseen, fun hf => by simp [hends.fault_eq, hf],
    hends.encoder_eq, hends.decoder_eq, hends.mem_eq⟩

/-! ### What a step does -/

/-- Every way a step can go on (00_scope.md R19): `ins` are the inputs it leaves. -/
inductive State.Moves (s : State) : State → Prop
  /-- The command in progress ends. -/
  | ends (ins : List Input) {e : Engine} {i : Instr} {t : State} (he : s.engine = some e) (hi : decodeWord e.cmd = .ok i)
      (ht : exec i { s with inputs := ins } = .next t) : s.Moves t
  /-- The word in progress is illegal (30_encoding.md R105). -/
  | illegal (ins : List Input) {e : Engine} {r : Illegal} (he : s.engine = some e) (hr : decodeWord e.cmd = .error r) :
      s.Moves (State.raise .illegalCommand { s with inputs := ins })
  /-- The command in progress runs one iteration. -/
  | iterates (ins : List Input) {e : Engine} {i : Instr} {q : Pipe} (he : s.engine = some e) (hi : decodeWord e.cmd = .ok i)
      (hq : (Pipe.mk e s.mem).keeps q) : s.Moves (State.withPipe q { s with inputs := ins })
  /-- Nothing happens but that the host may have read something. -/
  | observes (ins : List Input) (seen : List Seen) : s.Moves { s with inputs := ins, seen := seen }
  /-- A store from outside, to no byte of a running command's regions (70_reset_and_hazards.md R277). -/
  | stores (ins : List Input) {a : Word} (v : Byte) (ha : s.inCommandRegion a.toNat = false) :
      s.Moves { s with inputs := ins, mem := s.mem.write a.toNat v }
  /-- The host writes a register. -/
  | writes (ins : List Input) {r : Reg} {v : Word} (hr : s.issuesNotOrdinary r (some v) = false) :
      s.Moves (State.writeReg r v { s with inputs := ins })
  /-- Reset is asserted. -/
  | asserts (ins : List Input) : s.Moves (State.assertReset { s with inputs := ins })
  /-- Reset is released. -/
  | releases {ins : List Input} (hin : s.inputs = .releaseReset :: ins) (hr : s.inReset = true) :
      s.Moves (State.releaseReset { s with inputs := ins })

theorem State.completeTurn_moves {s t : State} (ins : List Input) (h : State.completeTurn { s with inputs := ins } = .next t) :
    s.Moves t := by
  obtain ⟨-, rfl⟩ | ⟨e, he, ⟨r, hr, rfl⟩ | ⟨i, hi, ht⟩⟩ := State.completeTurn_cases h
  · exact .observes ins s.seen
  · exact .illegal ins he hr
  · exact .ends ins he hi ht

theorem State.advanceTurn_moves {s t : State} (ins : List Input) (h : State.advanceTurn { s with inputs := ins } = .next t) :
    s.Moves t := by
  obtain h | ⟨e, i, q, he, hi, rfl, hq⟩ := State.advanceTurn_cases h
  · exact State.completeTurn_moves ins h
  · exact .iterates ins he hi hq

theorem State.hostAccess_moves {s t : State} (ins : List Input) {a : BusAccess}
    (h : State.hostAccess a { s with inputs := ins } = .next t) : s.Moves t := by
  obtain rfl | ⟨-, hord, rfl⟩ := State.hostAccess_cases h
  · exact .observes ins s.seen
  · cases hw : a.write with
    | none => exact .observes ins _
    | some v => exact .writes ins (by rw [hw] at hord; exact hord)

theorem State.memoryAccess_moves {s t : State} (ins : List Input) {who : Master} {a : Word} {write : Option Byte}
    (h : State.memoryAccess who a write { s with inputs := ins } = .next t) : s.Moves t := by
  unfold State.memoryAccess at h
  split_ifs at h with hreg hord
  cases write with
  | some v =>
    obtain rfl := Host.Outcome.next.inj h
    exact .stores ins v (Bool.eq_false_of_not_eq_true hreg)
  | none =>
    obtain rfl := Host.Outcome.next.inj h
    cases who
    · exact .observes ins _
    · exact .observes ins s.seen

theorem State.pollTurn_moves {s t : State} {k : Nat} {rest : List Input} (h : s.pollTurn k rest = .next t) : s.Moves t := by
  unfold State.pollTurn at h
  dsimp only at h
  split_ifs at h with hbusy
  · cases k with
    | zero => exact State.completeTurn_moves s.inputs h
    | succ k =>
      obtain rfl := Host.Outcome.next.inj h
      exact .observes _ _
  · obtain rfl := Host.Outcome.next.inj h
    exact .observes _ _

/-- Every step that goes on is one of these moves; invariants of the machine are proved by cases on it. -/
theorem step_moves {s t : State} (h : step s = .next t) : s.Moves t := by
  unfold step at h
  cases hin : s.inputs with
  | nil =>
    rw [hin] at h
    exact State.completeTurn_moves s.inputs h
  | cons x rest =>
    rw [hin] at h
    cases x with
    | access a => exact State.hostAccess_moves rest h
    | poll k => exact State.pollTurn_moves h
    | memory who a write => exact State.memoryAccess_moves rest h
    | advance => exact State.advanceTurn_moves rest h
    | complete => exact State.completeTurn_moves rest h
    | assertReset =>
      obtain rfl := Host.Outcome.next.inj h
      exact .asserts rest
    | releaseReset =>
      obtain rfl := Host.Outcome.next.inj h
      split_ifs with hr
      · exact .releases hin hr
      · exact .observes rest s.seen

end Sys2Proof.Machine
end

section
/-! The inverse table of an alphabet (40_configuration.md R132), and both configuration invariants. -/
namespace Sys2Proof.Machine

/-- An alphabet without repeats has a different byte at each index. -/
theorem Alphabet.get_injective {A : Alphabet} (hA : A.toList.Nodup) : Function.Injective A.get := by
  intro j k h
  rw [Vector.get_eq_getElem, Vector.get_eq_getElem] at h
  have := (List.Nodup.getElem_inj_iff hA (i := j.val) (j := k.val) (hi := by simp) (hj := by simp)).1 (by simpa using h)
  exact Fin.ext this

/-- R132: index `i` stands at the byte `A[i]`, and nowhere else. -/
theorem inverse_get_eq_some_iff {A : Alphabet} (hA : Function.Injective A.get) (b : Byte) (i : Index) :
    (inverse A).get b.toFin = some i ↔ A.get i.toFin = b := by
  have hat : ∀ k : Fin 32, A.toList.findIdx? (· == b) = some k.val ↔ A.get k = b := by
    intro k
    simp only [List.findIdx?_eq_some_iff_getElem, Vector.length_toList, Vector.getElem_toList, beq_iff_eq]
    refine ⟨fun ⟨_, hk, _⟩ => hk, fun hk => ⟨k.isLt, hk, fun j hj hjb => ?_⟩⟩
    have hjk := hA (a₁ := ⟨j, by omega⟩) (a₂ := k) (hjb.trans hk.symm)
    exact hj.ne (congrArg Fin.val hjk)
  have hb : BitVec.ofNat 8 b.toFin.val = b := by simp
  rw [inverse_get, hb, Option.map_eq_some_iff, ← hat i.toFin]
  constructor
  · rintro ⟨k, hk, rfl⟩
    obtain ⟨hlt, -⟩ := List.findIdx?_eq_some_iff_getElem.1 hk
    have : k < 32 := by simpa using hlt
    simpa [Nat.mod_eq_of_lt this] using hk
  · intro h
    exact ⟨_, h, by simp⟩

/-- R132: `none` stands at every byte that is not in the alphabet. -/
theorem inverse_get_eq_none_iff {A : Alphabet} (hA : Function.Injective A.get) (b : Byte) :
    (inverse A).get b.toFin = none ↔ ∀ k : Fin 32, A.get k ≠ b := by
  rw [Option.eq_none_iff_forall_ne_some]
  simp only [ne_eq, inverse_get_eq_some_iff hA]
  exact ⟨fun h k => h ⟨k⟩, fun h i => h i.toFin⟩

/-- The entries of a table that answer `p`, as a set of bytes. -/
theorem Inverse.countP_toList (T : Inverse) (p : Option Index → Bool) :
    T.toList.countP p = (Finset.univ.filter fun b => p (T.get b) = true).card := by
  have hmap : T.toList = (List.finRange 256).map T.get := by
    apply List.ext_getElem <;> simp [Vector.get_eq_getElem]
  rw [hmap, List.countP_map, List.countP_eq_length_filter]
  simp [Finset.card, Fin.univ_def, Function.comp_def]

/-- R132: the 32 bytes of the alphabet have an entry, the other 224 none. -/
theorem inverse_countP_isNone {A : Alphabet} (hA : Function.Injective A.get) :
    (inverse A).toList.countP Option.isNone = 224 := by
  have hset : (Finset.univ.filter fun b => ((inverse A).get b).isNone = true)
      = (Finset.univ.image fun k => (A.get k).toFin)ᶜ := by
    ext b
    have := inverse_get_eq_none_iff hA ⟨b⟩
    simp only [Finset.mem_filter, Finset.mem_univ, true_and, Finset.mem_compl, Finset.mem_image, not_exists,
      Option.isNone_iff_eq_none, this]
    exact forall_congr' fun k => not_congr ⟨congrArg BitVec.toFin, fun h => congrArg BitVec.ofFin h⟩
  have hinj : Function.Injective fun k => (A.get k).toFin := fun j k h => hA (congrArg BitVec.ofFin h)
  rw [Inverse.countP_toList, hset, Finset.card_compl, Finset.card_image_of_injective _ hinj]
  simp

/-- What both CFG commands check of the alphabet and the pad (R130). -/
theorem alphabetOk_iff (A : Alphabet) (padEn : Bool) (pad : Byte) :
    alphabetOk A padEn pad = true ↔ A.toList.Nodup ∧ (padEn = true → pad ∉ A.toList) := by
  cases padEn <;> simp [alphabetOk]

end Sys2Proof.Machine
end

section
/-! What every step keeps: STATUS, the sticky flags and both configurations. -/
namespace Sys2Proof.Machine

/-! ### STATUS -/

/-- A state with no command in progress shows a consistent STATUS if a fault-class code comes with FAULT. -/
theorem State.statusInv_of_idle {s : State} (he : s.engine = none) (hf : s.err.isFault = true → s.fault = true) :
    s.statusInv :=
  ⟨fun h => by simp [he] at h, hf, fun _ => he⟩

/-- A register write keeps STATUS consistent: only one to CMD, of an idle block out of reset, starts a command. -/
theorem State.writeReg_statusInv {s : State} (hs : s.statusInv) (r : Reg) (v : Word) : (s.writeReg r v).statusInv := by
  obtain heq | ⟨-, heq⟩ | ⟨-, hrst, heq | heq | heq | heq | heq⟩ := State.writeReg_cases r v s
  case inr.inr.inl =>
    rw [heq]
    exact ⟨fun _ => ⟨rfl, rfl⟩, fun h => by simp at h, fun h => by simp [hrst] at h⟩
  all_goals
    rw [heq]
    exact hs

/-- Settles O53, by cases on what the step does. -/
theorem statusStaysConsistent : Obligations.StatusStaysConsistent := by
  intro s t hs h
  have ⟨hbusy, hfault, hreset⟩ := hs
  cases step_moves h with
  | ends ins he hi ht =>
    have hends := exec_ends ht
    exact State.statusInv_of_idle hends.idle.1 fun hk => by simp [hends.fault_eq, hk]
  | illegal ins he hr => exact State.statusInv_of_idle (by simp) fun hk => by simp at hk; simp [hk]
  | iterates ins he hi hq =>
    exact ⟨fun _ => hbusy (by simp [he]), hfault, fun hr => by simp [hreset hr] at he⟩
  | observes ins seen => exact hs
  | stores ins v ha => exact hs
  | writes ins hr => exact State.writeReg_statusInv (s := { s with inputs := ins }) hs _ _
  | asserts ins => exact State.statusInv_of_idle rfl hfault
  | releases hin hr => exact State.statusInv_of_idle rfl fun hk : Err.none.isFault = true => by simp at hk

/-- A write to a register of the host clears neither sticky flag. -/
theorem State.writeReg_sticky (r : Reg) (v : Word) (s : State) :
    (s.writeReg r v).fault = s.fault ∧ (s.ovr = true → (s.writeReg r v).ovr = true) := by
  obtain heq | ⟨-, heq⟩ | ⟨-, -, heq | heq | heq | heq | heq⟩ := State.writeReg_cases r v s <;> simp [heq]

/-- Settles O56, by cases on what the step does. -/
theorem faultAndOvrAreSticky : Obligations.FaultAndOvrAreSticky := by
  intro s t h hrel
  cases step_moves h with
  | ends ins he hi ht =>
    obtain ⟨-, -, -, -, hovr, -, -, -, -, hfault, -⟩ := frameOfEveryCommand _ _ _ ht
    exact ⟨hfault, fun ho => hovr.trans ho⟩
  | illegal ins he hr => exact ⟨fun hf => by simp [hf], fun ho => by simp [ho]⟩
  | iterates ins he hi hq => exact ⟨id, id⟩
  | observes ins seen => exact ⟨id, id⟩
  | stores ins v ha => exact ⟨id, id⟩
  | writes ins hr =>
    obtain ⟨hfault, hovr⟩ := State.writeReg_sticky _ _ _
    exact ⟨fun hf => hfault.trans hf, hovr⟩
  | asserts ins => exact ⟨id, id⟩
  | releases hin hr => exact absurd hin (hrel _)

/-! ### The configurations -/

/-- The encoder's configuration is the same in both states (10_state.md R40). -/
def State.sameEncoder (s t : State) : Prop :=
  t.encAlpha = s.encAlpha ∧ t.encPadEn = s.encPadEn ∧ t.encPad = s.encPad ∧ t.encValid = s.encValid

/-- The decoder's configuration is the same in both states (10_state.md R41). -/
def State.sameDecoder (s t : State) : Prop :=
  t.decInv = s.decInv ∧ t.decPadEn = s.decPadEn ∧ t.decPad = s.decPad ∧ t.decValid = s.decValid

theorem State.writeReg_sameUnits (r : Reg) (v : Word) (s : State) :
    s.sameEncoder (s.writeReg r v) ∧ s.sameDecoder (s.writeReg r v) := by
  obtain heq | ⟨-, heq⟩ | ⟨-, -, heq | heq | heq | heq | heq⟩ := State.writeReg_cases r v s <;>
    simp [heq, State.sameEncoder, State.sameDecoder]

/-- Apart from a command that ends and the release of reset, a step keeps both configurations: no store does it either
(20_memory.md R84). -/
theorem State.Moves.sameUnits_or {s t : State} (h : s.Moves t) :
    (s.sameEncoder t ∧ s.sameDecoder t)
      ∨ (∃ ins e i, s.engine = some e ∧ decodeWord e.cmd = .ok i ∧ State.Ends { s with inputs := ins } i t)
      ∨ ∃ ins, s.inputs = .releaseReset :: ins ∧ t = State.releaseReset { s with inputs := ins } := by
  cases h
  case ends ins e i he hi ht => exact .inr (.inl ⟨ins, e, i, he, hi, exec_ends ht⟩)
  case writes ins r v hr => exact .inl (State.writeReg_sameUnits r v { s with inputs := ins })
  case releases ins hin hr => exact .inr (.inr ⟨ins, hin, rfl⟩)
  all_goals exact .inl (by simp [State.sameEncoder, State.sameDecoder])

/-- Settles O57: the command that ends is the latched one, and it is no CFG command of the unit. -/
theorem onlyCfgChangesTheTables : Obligations.OnlyCfgChangesTheTables := by
  intro s t h hrel
  obtain ⟨henc, hdec⟩ | ⟨ins, e, i, he, hi, hends⟩ | ⟨ins, hin, -⟩ := (step_moves h).sameUnits_or
  · exact ⟨fun _ => henc, fun _ => hdec⟩
  · exact ⟨fun hno => hends.encoder_eq fun pe p hip => hno e pe p he (hip ▸ hi),
      fun hno => hends.decoder_eq fun pe p hip => hno e pe p he (hip ▸ hi)⟩
  · exact absurd hin (hrel ins)

theorem State.encoderInv_of_same {s t : State} (h : s.sameEncoder t) (hs : s.encoderInv) : t.encoderInv := by
  obtain ⟨halpha, hpadEn, hpad, hvalid⟩ := h
  simpa only [State.encoderInv, halpha, hpadEn, hpad, hvalid] using hs

theorem State.decoderInv_of_same {s t : State} (h : s.sameDecoder t) (hs : s.decoderInv) : t.decoderInv := by
  obtain ⟨hinv, hpadEn, hpad, hvalid⟩ := h
  simpa only [State.decoderInv, hinv, hpadEn, hpad, hvalid] using hs

/-- An unconfigured encoder without a pad meets its invariant, whatever its table. -/
theorem State.encoderInv_of_unconfigured {s : State} (hv : s.encValid = false) (hp : s.encPad = 0) : s.encoderInv :=
  ⟨fun h => by simp [hv] at h, fun _ => hp⟩

theorem State.decoderInv_of_unconfigured {s : State} (hv : s.decValid = false) (hp : s.decPad = 0) : s.decoderInv :=
  ⟨fun h => by simp [hv] at h, fun _ => hp⟩

/-- The alphabet and pad an ENC_CFG accepts meet the invariant (40_configuration.md R130, R133). -/
theorem State.setEncoder_encoderInv {A : Alphabet} {padEn : Bool} {pad : Byte}
    (hA : alphabetOk A padEn (padOperand padEn pad) = true) (s : State) :
    (s.setEncoder A padEn (padOperand padEn pad)).encoderInv :=
  ⟨fun _ => (alphabetOk_iff _ _ _).1 hA, fun h => by simp_all [padOperand]⟩

/-- The inverse table and pad a DEC_CFG loads meet the invariant (R132, R134). -/
theorem State.setDecoder_decoderInv {A : Alphabet} {padEn : Bool} {pad : Byte}
    (hA : alphabetOk A padEn (padOperand padEn pad) = true) (s : State) :
    (s.setDecoder A padEn (padOperand padEn pad)).decoderInv := by
  obtain ⟨hnodup, hpad⟩ := (alphabetOk_iff _ _ _).1 hA
  have hinj := Alphabet.get_injective hnodup
  have hentry := inverse_get_eq_some_iff hinj
  refine ⟨fun _ => ⟨fun i => ⟨A.get i.toFin, (hentry _ i).2 rfl, fun b hb => ((hentry b i).1 hb).symm⟩,
    inverse_countP_isNone hinj, fun hpe => ?_⟩, fun h => by simp_all [padOperand]⟩
  have hnone : ∀ k : Fin 32, A.get k ≠ padOperand padEn pad := by
    intro k hk
    exact hpad hpe (hk ▸ by simp [Vector.get_eq_getElem])
  exact (inverse_get_eq_none_iff hinj _).2 hnone

/-- A command keeps its unit's configuration valid, however it ends. -/
theorem State.Ends.encoderInv {i : Instr} {s t : State} (h : s.Ends i t) (hs : s.encoderInv) : t.encoderInv := by
  cases h
  case encoderCleared => exact State.encoderInv_of_unconfigured (by simp) (by simp)
  case encoderSet hA => exact State.setEncoder_encoderInv hA s
  all_goals exact State.encoderInv_of_same (by simp [State.sameEncoder]) hs

theorem State.Ends.decoderInv {i : Instr} {s t : State} (h : s.Ends i t) (hs : s.decoderInv) : t.decoderInv := by
  cases h
  case decoderCleared => exact State.decoderInv_of_unconfigured (by simp) (by simp)
  case decoderSet hA => exact State.setDecoder_decoderInv hA s
  all_goals exact State.decoderInv_of_same (by simp [State.sameDecoder]) hs

/-- Settles O52: a step keeps the configurations, ends a command, or resets both. -/
theorem configurationStaysValid : Obligations.ConfigurationStaysValid := by
  intro s t henc hdec h
  obtain ⟨hse, hsd⟩ | ⟨ins, e, i, -, -, hends⟩ | ⟨ins, -, rfl⟩ := (step_moves h).sameUnits_or
  · exact ⟨State.encoderInv_of_same hse henc, State.decoderInv_of_same hsd hdec⟩
  · exact ⟨hends.encoderInv henc, hends.decoderInv hdec⟩
  · exact ⟨State.encoderInv_of_unconfigured rfl rfl, State.decoderInv_of_unconfigured rfl rfl⟩

/-! ### The reset state -/

/-- Settles O50, field by field. -/
theorem resetValues : Obligations.ResetValues := by
  unfold Obligations.ResetValues
  decide

/-- Settles O55: the reset state is idle and unconfigured. -/
theorem resetMeetsTheInvariants : Obligations.ResetMeetsTheInvariants :=
  ⟨reset_mem_wf, State.encoderInv_of_unconfigured rfl rfl, State.decoderInv_of_unconfigured rfl rfl,
    State.statusInv_of_idle (s := State.reset) rfl (by decide), fun e i he => nomatch he⟩

end Sys2Proof.Machine
end

section
/-! What a command reads (10_state.md R36, R43). Changing what it does not read, by `g` before it runs, shows after it as a
change `h` of the next state: each meaning is followed once for all such `g` and `h`. -/
namespace Sys2Proof.Machine

/-- The outcome with its next state changed by `h`. -/
def mapNext (h : State → State) : Host.Outcome State Fault Refusal → Host.Outcome State Fault Refusal
  | .next t => .next (h t)
  | .fault r => .fault r
  | .refused r => .refused r

/-- `g` changes nothing that both units' commands read, and an ending turns it into `h`. -/
structure EndsCarry (g h : State → State) : Prop where
  running (s : State) : (g s).running = s.running
  platform (s : State) : (g s).platform = s.platform
  mem (s : State) : (g s).mem = s.mem
  raise (k : Err) (s : State) : (g s).raise k = h (s.raise k)
  complete (v : Word) (s : State) : (g s).complete v = h (s.complete v)
  completeMem (v : Word) (m : Memory) (s : State) :
    State.complete v { g s with mem := m } = h (State.complete v { s with mem := m })

/-- `g` changes nothing that the encoder's commands read, and stands beside what ENC_CFG writes. -/
structure EncoderCarries (g : State → State) : Prop where
  same (s : State) : s.sameEncoder (g s)
  clear (s : State) : (g s).clearEncoder = g s.clearEncoder
  set (A : Alphabet) (padEn : Bool) (pad : Byte) (s : State) : (g s).setEncoder A padEn pad = g (s.setEncoder A padEn pad)

/-- `g` changes nothing that the decoder's commands read, and stands beside what DEC_CFG and a failed DECODE write. -/
structure DecoderCarries (g : State → State) : Prop where
  same (s : State) : s.sameDecoder (g s)
  clear (s : State) : (g s).clearDecoder = g s.clearDecoder
  set (A : Alphabet) (padEn : Bool) (pad : Byte) (s : State) : (g s).setDecoder A padEn pad = g (s.setDecoder A padEn pad)
  scramble (r : Region) (s : State) : (g s).scramble r = g (s.scramble r)

section Carry
variable {g h : State → State}

theorem EndsCarry.regionsOrdinary (hg : EndsCarry g h) (i : Instr) (s : State) :
    (g s).regionsOrdinary i = s.regionsOrdinary i := by
  simp only [State.regionsOrdinary, hg.running, hg.platform]

theorem EndsCarry.execEncCfg (hg : EndsCarry g h) (he : EncoderCarries g) (padEn : Bool) (pad : Byte) (s : State) :
    execEncCfg padEn pad (g s) = mapNext h (execEncCfg padEn pad s) := by
  simp only [Machine.execEncCfg, hg.regionsOrdinary, hg.running, hg.mem, he.clear, he.set, hg.raise, hg.complete]
  split_ifs <;> rfl

theorem EndsCarry.execDecCfg (hg : EndsCarry g h) (hd : DecoderCarries g) (padEn : Bool) (pad : Byte) (s : State) :
    execDecCfg padEn pad (g s) = mapNext h (execDecCfg padEn pad s) := by
  simp only [Machine.execDecCfg, hg.regionsOrdinary, hg.running, hg.mem, hd.clear, hd.set, hg.raise, hg.complete]
  split_ifs <;> rfl

theorem EndsCarry.execEncSize (hg : EndsCarry g h) (he : EncoderCarries g) (s : State) :
    execEncSize (g s) = mapNext h (execEncSize s) := by
  obtain ⟨-, hpadEn, -, hvalid⟩ := he.same s
  simp only [Machine.execEncSize, hg.running, hpadEn, hvalid, hg.raise, hg.complete]
  split_ifs <;> rfl

theorem EndsCarry.execEncode (hg : EndsCarry g h) (he : EncoderCarries g) (s : State) :
    execEncode (g s) = mapNext h (execEncode s) := by
  obtain ⟨halpha, hpadEn, hpad, hvalid⟩ := he.same s
  have hchecks : ∀ e, (g s).encodeChecks e = s.encodeChecks e := fun e => by
    simp only [State.encodeChecks, hpadEn, hvalid]
  have hrest : ∀ len p, Pipe.encodeRest (g s).encAlpha (g s).encPadEn (g s).encPad len p
      = Pipe.encodeRest s.encAlpha s.encPadEn s.encPad len p := fun len p => by rw [halpha, hpadEn, hpad]
  simp only [Machine.execEncode, hg.regionsOrdinary, hg.running, hg.mem, hchecks, hrest, hg.raise]
  split_ifs
  · rfl
  · cases s.encodeChecks s.running with
    | error k => rfl
    | ok len => exact congrArg _ (hg.completeMem _ _ s)

theorem EndsCarry.execDecSizeUb (hg : EndsCarry g h) (hd : DecoderCarries g) (s : State) :
    execDecSizeUb (g s) = mapNext h (execDecSizeUb s) := by
  obtain ⟨-, hpadEn, -, hvalid⟩ := hd.same s
  simp only [Machine.execDecSizeUb, hg.running, hpadEn, hvalid, hg.raise, hg.complete]
  split_ifs
  · rfl
  · cases decUb s.running.srcLen.toNat s.decPadEn <;> rfl

theorem EndsCarry.execDecSizeSlice (hg : EndsCarry g h) (hd : DecoderCarries g) (s : State) :
    execDecSizeSlice (g s) = mapNext h (execDecSizeSlice s) := by
  obtain ⟨-, hpadEn, hpad, hvalid⟩ := hd.same s
  simp only [Machine.execDecSizeSlice, hg.regionsOrdinary, hg.running, hg.mem, hpadEn, hpad, hvalid, hg.raise, hg.complete]
  split_ifs
  · rfl
  · rfl
  · rfl
  · cases s.mem.decSlice s.running.srcAddr s.running.srcLen.toNat s.decPadEn s.decPad <;> rfl

theorem EndsCarry.execDecode (hg : EndsCarry g h) (hd : DecoderCarries g) (s : State) :
    execDecode (g s) = mapNext h (execDecode s) := by
  obtain ⟨hinv, hpadEn, hpad, hvalid⟩ := hd.same s
  have hchecks : ∀ e, (g s).decodeChecks e = s.decodeChecks e := fun e => by
    simp only [State.decodeChecks, hg.mem, hpadEn, hpad, hvalid]
  have hunpack : ∀ p, Pipe.unpackRest (g s).decInv (g s).decPadEn (g s).decPad p
      = Pipe.unpackRest s.decInv s.decPadEn s.decPad p := fun p => by rw [hinv, hpadEn, hpad]
  simp only [Machine.execDecode, hg.regionsOrdinary, hg.running, hg.mem, hchecks, hunpack, hd.scramble, hg.raise]
  split_ifs
  · rfl
  · cases s.decodeChecks s.running with
    | error k => rfl
    | ok m =>
      cases Pipe.unpackRest s.decInv s.decPadEn s.decPad ⟨s.running, s.mem⟩ with
      | error k => rfl
      | ok p => exact congrArg _ (hg.completeMem _ _ s)

/-- Every command of the encoder carries the change. -/
theorem EndsCarry.exec_encoder (hg : EndsCarry g h) (he : EncoderCarries g) {i : Instr}
    (hi : i ∈ [Instr.encSize, Instr.encode] ∨ ∃ pe p, i = .encCfg pe p) {s t : State} (ht : exec i s = .next t) :
    exec i (g s) = .next (h t) := by
  have hmap : exec i (g s) = mapNext h (exec i s) := by
    obtain hi | ⟨pe, p, rfl⟩ := hi
    · simp only [List.mem_cons, List.not_mem_nil, or_false] at hi
      obtain rfl | rfl := hi
      · exact hg.execEncSize he s
      · exact hg.execEncode he s
    · exact hg.execEncCfg he pe p s
  rw [hmap, ht]
  rfl

/-- Every command of the decoder carries the change. -/
theorem EndsCarry.exec_decoder (hg : EndsCarry g h) (hd : DecoderCarries g) {i : Instr}
    (hi : i ∈ [Instr.decSizeUb, Instr.decSizeSlice, Instr.decode] ∨ ∃ pe p, i = .decCfg pe p) {s t : State}
    (ht : exec i s = .next t) : exec i (g s) = .next (h t) := by
  have hmap : exec i (g s) = mapNext h (exec i s) := by
    obtain hi | ⟨pe, p, rfl⟩ := hi
    · simp only [List.mem_cons, List.not_mem_nil, or_false] at hi
      obtain rfl | rfl | rfl := hi
      · exact hg.execDecSizeUb hd s
      · exact hg.execDecSizeSlice hd s
      · exact hg.execDecode hd s
    · exact hg.execDecCfg hd pe p s
  rw [hmap, ht]
  rfl

end Carry

/-! ### The three changes -/

/-- Another configuration of the encoder. -/
def State.withEncoder (A : Alphabet) (padEn : Bool) (pad : Byte) (valid : Bool) (s : State) : State :=
  { s with encAlpha := A, encPadEn := padEn, encPad := pad, encValid := valid }

/-- Another configuration of the decoder. -/
def State.withDecoder (T : Inverse) (padEn : Bool) (pad : Byte) (valid : Bool) (s : State) : State :=
  { s with decInv := T, decPadEn := padEn, decPad := pad, decValid := valid }

/-- Another RESULT and STATUS. -/
def State.withStatus (r : Word) (k : Err) (d o f : Bool) (s : State) : State :=
  { s with result := r, err := k, done := d, ovr := o, fault := f }

/-- What shows of another OVR and FAULT after a command: OVR as it was, FAULT sticky (10_state.md R36). -/
def State.afterStatus (o f : Bool) (t : State) : State := { t with ovr := o, fault := f || t.err.isFault }

theorem withEncoder_endsCarry (A : Alphabet) (padEn : Bool) (pad : Byte) (valid : Bool) :
    EndsCarry (State.withEncoder A padEn pad valid) (State.withEncoder A padEn pad valid) where
  running _ := rfl
  platform _ := rfl
  mem _ := rfl
  raise k s := by unfold State.raise; cases k.isFault <;> rfl
  complete _ _ := rfl
  completeMem _ _ _ := rfl

theorem withDecoder_endsCarry (T : Inverse) (padEn : Bool) (pad : Byte) (valid : Bool) :
    EndsCarry (State.withDecoder T padEn pad valid) (State.withDecoder T padEn pad valid) where
  running _ := rfl
  platform _ := rfl
  mem _ := rfl
  raise k s := by unfold State.raise; cases k.isFault <;> rfl
  complete _ _ := rfl
  completeMem _ _ _ := rfl

theorem withStatus_endsCarry (r : Word) (k : Err) (d o f : Bool) :
    EndsCarry (State.withStatus r k d o f) (State.afterStatus o f) where
  running _ := rfl
  platform _ := rfl
  mem _ := rfl
  raise j s := by
    cases hj : j.isFault <;>
      simp [State.raise, hj, State.raiseFault, State.raiseError, State.withStatus, State.afterStatus]
  complete _ _ := by simp [State.complete, State.withStatus, State.afterStatus]
  completeMem _ _ _ := by simp [State.complete, State.withStatus, State.afterStatus]

theorem withDecoder_encoderCarries (T : Inverse) (padEn : Bool) (pad : Byte) (valid : Bool) :
    EncoderCarries (State.withDecoder T padEn pad valid) :=
  ⟨fun _ => ⟨rfl, rfl, rfl, rfl⟩, fun _ => rfl, fun _ _ _ _ => rfl⟩

theorem withEncoder_decoderCarries (A : Alphabet) (padEn : Bool) (pad : Byte) (valid : Bool) :
    DecoderCarries (State.withEncoder A padEn pad valid) :=
  ⟨fun _ => ⟨rfl, rfl, rfl, rfl⟩, fun _ => rfl, fun _ _ _ _ => rfl, fun _ _ => rfl⟩

theorem withStatus_encoderCarries (r : Word) (k : Err) (d o f : Bool) : EncoderCarries (State.withStatus r k d o f) :=
  ⟨fun _ => ⟨rfl, rfl, rfl, rfl⟩, fun _ => rfl, fun _ _ _ _ => rfl⟩

theorem withStatus_decoderCarries (r : Word) (k : Err) (d o f : Bool) : DecoderCarries (State.withStatus r k d o f) :=
  ⟨fun _ => ⟨rfl, rfl, rfl, rfl⟩, fun _ => rfl, fun _ _ _ _ => rfl, fun _ _ => rfl⟩

/-- A command is one of the encoder's or one of the decoder's. -/
theorem encoder_or_decoder (i : Instr) :
    (i ∈ [Instr.encSize, Instr.encode] ∨ ∃ pe p, i = .encCfg pe p)
      ∨ i ∈ [Instr.decSizeUb, Instr.decSizeSlice, Instr.decode] ∨ ∃ pe p, i = .decCfg pe p := by
  cases i <;> simp

/-- Settles O37: each unit's commands carry a change of the other unit, and all commands one of RESULT and STATUS. -/
theorem commandsReadOnlyTheirOwnUnit : Obligations.CommandsReadOnlyTheirOwnUnit := by
  intro i s t e _ ht
  refine ⟨fun hi T pe p v => ?_, fun hi A pe p v => ?_, fun r k d o f => ?_⟩
  · exact (withDecoder_endsCarry T pe p v).exec_encoder (withDecoder_encoderCarries T pe p v) hi ht
  · exact (withEncoder_endsCarry A pe p v).exec_decoder (withEncoder_decoderCarries A pe p v) hi ht
  · obtain hi | hi := encoder_or_decoder i
    · exact (withStatus_endsCarry r k d o f).exec_encoder (withStatus_encoderCarries r k d o f) hi ht
    · exact (withStatus_endsCarry r k d o f).exec_decoder (withStatus_decoderCarries r k d o f) hi ht

end Sys2Proof.Machine
end

section
/-! The host's reads and writes of registers (10_state.md R31 to R39): one equation for a read, one for a write, and the fields
of the two words that are computed. -/
namespace Sys2Proof.Machine

/-! ### One access -/

/-- Only a CMD write can stop over regions that are not ordinary memory. -/
theorem State.issuesNotOrdinary_of_read (r : Reg) (s : State) : s.issuesNotOrdinary r none = false := by
  rw [← Bool.not_eq_true, State.issuesNotOrdinary_iff]
  rintro ⟨-, w, i, hw, -⟩
  exact nomatch hw

theorem State.issuesNotOrdinary_of_ne_cmd {r : Reg} (hr : r ≠ .cmd) (v : Word) (s : State) :
    s.issuesNotOrdinary r (some v) = false := by
  rw [← Bool.not_eq_true, State.issuesNotOrdinary_iff]
  exact fun h => hr h.1

/-- A CMD write that is dropped stops over nothing. -/
theorem State.issuesNotOrdinary_of_busy {s : State} (he : s.engine ≠ none) (r : Reg) (v : Word) :
    s.issuesNotOrdinary r (some v) = false := by
  rw [← Bool.not_eq_true, State.issuesNotOrdinary_iff]
  rintro ⟨-, w, i, -, -, -, hidle, -⟩
  exact he hidle

/-- A read of a register records what the register answers. -/
theorem step_of_rd {s : State} {r : Reg} {rest : List Input} (hw : s.platform.windowFits)
    (hin : s.inputs = s.platform.rd r :: rest) :
    step s = .next (State.see (.reg r (s.readReg r)) { s with inputs := rest }) := by
  simp only [step, hin, Platform.rd, State.inputTurn, State.hostAccess, Platform.allows_regAddr hw, Platform.regAt_regAddr hw,
    State.issuesNotOrdinary_of_read]
  rfl

/-- A write reaches its register, unless it is the CMD write that the machine stops at (20_memory.md R75). -/
theorem step_of_wr {s : State} {r : Reg} {v : Word} {rest : List Input} (hw : s.platform.windowFits)
    (hin : s.inputs = s.platform.wr r v :: rest) :
    step s = if s.issuesNotOrdinary r (some v) then .fault .notOrdinary
      else .next (State.writeReg r v { s with inputs := rest }) := by
  simp only [step, hin, Platform.wr, State.inputTurn, State.hostAccess, Platform.allows_regAddr hw, Platform.regAt_regAddr hw]
  rfl

/-- A write that the machine does not stop at goes through. -/
theorem step_of_wr_next {s : State} {r : Reg} {v : Word} {rest : List Input} (hw : s.platform.windowFits)
    (hin : s.inputs = s.platform.wr r v :: rest) (hno : s.issuesNotOrdinary r (some v) = false) :
    step s = .next (State.writeReg r v { s with inputs := rest }) := by
  rw [step_of_wr hw hin, hno]
  rfl

/-- Out of reset and with no command in progress a write to CMD issues the word (R34). -/
theorem State.writeReg_cmd_of_idle {s : State} (hrst : s.inReset = false) (he : s.engine = none) (w : Word) :
    s.writeReg .cmd w = s.issue w := by
  simp [State.writeReg, hrst, State.unlessBusy, State.busy, he]

/-- With one in progress it is dropped and sets OVR (R34, 70_reset_and_hazards.md R276). -/
theorem State.writeReg_cmd_of_busy {s : State} (hrst : s.inReset = false) (he : s.engine ≠ none) (w : Word) :
    s.writeReg .cmd w = { s with ovr := true } := by
  simp [State.writeReg, hrst, State.unlessBusy, State.busy, Option.isSome_iff_ne_none, he]

/-- Settles O40: the CMD write by whether a command is in progress and whether its regions are ordinary, and the CMD read. -/
theorem cmdWriteIssues : Obligations.CmdWriteIssues := by
  intro s w rest hw hrst
  refine ⟨fun hin he hord => ?_, fun i hin he hi hnot => ?_, fun hin he => ?_, fun hin => ?_⟩
  · have hno : s.issuesNotOrdinary .cmd (some w) = false := by
      rw [← Bool.not_eq_true, State.issuesNotOrdinary_iff]
      rintro ⟨-, _, i, ⟨rfl⟩, hi, -, -, hnot⟩
      exact hnot (hord i hi)
    rw [step_of_wr_next hw hin hno]
    exact congrArg _ (State.writeReg_cmd_of_idle (s := { s with inputs := rest }) hrst he w)
  · have hno : s.issuesNotOrdinary .cmd (some w) = true :=
      (State.issuesNotOrdinary_iff _ _ _).2 ⟨rfl, w, i, rfl, hi, hrst, he, not_and_or.2 hnot⟩
    rw [step_of_wr hw hin, if_pos hno]
  · rw [step_of_wr_next hw hin (State.issuesNotOrdinary_of_busy he _ _)]
    exact congrArg _ (State.writeReg_cmd_of_busy (s := { s with inputs := rest }) hrst he w)
  · rw [step_of_rd hw hin]
    simp [State.readReg, State.see]

/-- Settles O41: each operand register by the equation of its access. -/
theorem operandRegistersHoldWhatIsWritten : Obligations.OperandRegistersHoldWhatIsWritten := by
  intro s v rest hw hrst he
  refine ⟨fun hin => ?_, fun hin => ?_, fun hin => ?_, fun hin => ?_, fun hin => ?_, fun hin => ?_, fun hin => ?_,
    fun hin => ?_⟩
  iterate 4
    · rw [step_of_wr_next hw hin (State.issuesNotOrdinary_of_ne_cmd (by decide) v s)]
      simp [State.writeReg, hrst, State.unlessBusy, State.busy, he]
  iterate 4
    · rw [step_of_rd hw hin]
      simp [State.readReg, hrst, State.see]

/-! ### STATUS and CFGSTAT by field -/

/-- The bits of a one-bit field. -/
theorem bitAt_getLsbD (b : Bool) {k : Nat} (hk : k < 32) (j : Nat) : (bitAt b k).getLsbD j = (b && decide (j = k)) := by
  cases b
  · simp [bitAt]
  · have hone : (1 : Word).getLsbD (j - k) = decide (j - k = 0) := by simp [BitVec.getLsbD_one]
    rw [bitAt, if_pos rfl, BitVec.getLsbD_shiftLeft, hone, Bool.eq_iff_iff]
    simp
    omega

/-- The bits of a wider field. -/
theorem field_getLsbD {n k : Nat} (x : BitVec n) (hk : k + n ≤ 32) (j : Nat) :
    (x.setWidth 32 <<< k).getLsbD j = (decide (k ≤ j) && x.getLsbD (j - k)) := by
  by_cases hj : j - k < n
  · by_cases hkj : k ≤ j
    · simp [show j < 32 by omega, hkj]
    · simp [hkj]
  · simp [BitVec.getLsbD_of_ge x (j - k) (by omega)]

/-- The bits of STATUS (R35). -/
theorem State.statusWord_getLsbD (s : State) (j : Nat) :
    s.statusWord.getLsbD j = (s.busy && decide (j = 0) || s.done && decide (j = 1) || s.fault && decide (j = 2)
      || s.ovr && decide (j = 3) || decide (8 ≤ j) && s.err.code.getLsbD (j - 8)) := by
  simp [-BitVec.getLsbD_shiftLeft, State.statusWord, bitAt_getLsbD, field_getLsbD]

/-- The bits of CFGSTAT (R37). -/
theorem State.cfgstatWord_getLsbD (s : State) (j : Nat) :
    s.cfgstatWord.getLsbD j = (s.encValid && decide (j = 0) || s.encPadEn && decide (j = 1)
      || decide (8 ≤ j) && s.encPad.getLsbD (j - 8) || s.decValid && decide (j = 16) || s.decPadEn && decide (j = 17)
      || decide (24 ≤ j) && s.decPad.getLsbD (j - 24)) := by
  simp [-BitVec.getLsbD_shiftLeft, State.cfgstatWord, bitAt_getLsbD, field_getLsbD]

/-- A slice of a word, bit by bit. -/
theorem extractLsb'_eq_iff {n m : Nat} (w : Word) (x : BitVec m) :
    w.extractLsb' n m = x ↔ ∀ j < m, w.getLsbD (n + j) = x.getLsbD j := by
  rw [BitVec.eq_of_getLsbD_eq_iff]
  refine forall₂_congr fun j hj => ?_
  rw [BitVec.getLsbD_extractLsb', decide_eq_true hj, Bool.true_and]

/-- Each field of STATUS stands in its bits and the rest is 0 (R35). -/
theorem State.statusWord_fields (s : State) :
    s.statusWord.getLsbD 0 = s.busy ∧ s.statusWord.getLsbD 1 = s.done ∧ s.statusWord.getLsbD 2 = s.fault
      ∧ s.statusWord.getLsbD 3 = s.ovr ∧ s.statusWord.extractLsb' 4 4 = (0 : BitVec 4)
      ∧ s.statusWord.extractLsb' 8 4 = s.err.code ∧ s.statusWord.extractLsb' 12 20 = (0 : BitVec 20) := by
  simp only [extractLsb'_eq_iff, State.statusWord_getLsbD]
  refine ⟨?_, ?_, ?_, ?_, ?_, ?_, ?_⟩
  iterate 4 · simp
  iterate 3 · grind

/-- Each field of CFGSTAT stands in its bits and the rest is 0 (R37). -/
theorem State.cfgstatWord_fields (s : State) :
    s.cfgstatWord.getLsbD 0 = s.encValid ∧ s.cfgstatWord.getLsbD 1 = s.encPadEn
      ∧ s.cfgstatWord.extractLsb' 2 6 = (0 : BitVec 6) ∧ s.cfgstatWord.extractLsb' 8 8 = s.encPad
      ∧ s.cfgstatWord.getLsbD 16 = s.decValid ∧ s.cfgstatWord.getLsbD 17 = s.decPadEn
      ∧ s.cfgstatWord.extractLsb' 18 6 = (0 : BitVec 6) ∧ s.cfgstatWord.extractLsb' 24 8 = s.decPad := by
  simp only [extractLsb'_eq_iff, State.cfgstatWord_getLsbD]
  refine ⟨?_, ?_, ?_, ?_, ?_, ?_, ?_, ?_⟩
  iterate 2 · simp
  iterate 2 · grind
  iterate 2 · simp
  iterate 2 · grind

/-- A write to a read-only or reserved word is ignored, with or without a command in progress (R32, R35, R37, R39). -/
theorem State.writeReg_readOnly {r : Reg} (hr : r ∈ [Reg.status, Reg.result, Reg.cfgstat, Reg.reserved]) (v : Word) (s : State) :
    s.writeReg r v = s := by
  cases r <;> simp [State.writeReg] at hr ⊢

/-- Settles O43: the two computed words by their fields, the others by the equations of their accesses. -/
theorem statusAndCfgstatFields : Obligations.StatusAndCfgstatFields := by
  intro s rest hw hrst
  refine ⟨fun hin => ⟨s.statusWord, ?_, s.statusWord_fields⟩, fun hin => ⟨s.cfgstatWord, ?_, s.cfgstatWord_fields⟩,
    fun hin => ?_, fun hin => ?_, fun r w hr hin => ?_⟩
  iterate 4
    · rw [step_of_rd hw hin]
      simp [State.readReg, hrst, State.see]
  · have hcmd : r ≠ .cmd := by rintro rfl; simp at hr
    rw [step_of_wr_next hw hin (State.issuesNotOrdinary_of_ne_cmd hcmd w s), State.writeReg_readOnly hr]

end Sys2Proof.Machine
end

section
/-! What a step does to memory: the canonical form, the regions of the command in progress, and the host's own accesses. -/
namespace Sys2Proof.Machine

/-! ### The canonical form -/

/-- What a command leaves of the memory: as it was, as its pipeline leaves it, or the destination unspecified after an error
inside `unpack` (42_decoder.md R199). -/
theorem exec_mem_cases {i : Instr} {s t : State} (h : exec i s = .next t) :
    t.mem = s.mem ∨ (∃ q : Pipe, (Pipe.mk s.running s.mem).keeps q ∧ t.mem = q.mem)
      ∨ t.mem = (s.scramble s.running.destination).mem := by
  cases i with
  | encode =>
    obtain ⟨k, -, rfl⟩ | ⟨len, -, rfl⟩ := execEncode_cases h
    · exact .inl (State.raise_mem k s)
    · exact .inr (.inl ⟨_, Pipe.keeps_encodeRest _ _ _ len _, rfl⟩)
  | decode =>
    obtain ⟨k, -, rfl⟩ | ⟨m, k, -, -, rfl⟩ | ⟨m, p, -, hp, rfl⟩ := execDecode_cases h
    · exact .inl (State.raise_mem k s)
    · exact .inr (.inr (State.raise_mem k _))
    · exact .inr (.inl ⟨p, Pipe.keeps_unpackRest hp, rfl⟩)
  | _ => exact .inl ((exec_ends h).mem_eq (by simp) (by simp))

/-- A command keeps the memory canonical. -/
theorem exec_mem_wf {i : Instr} {s t : State} (hs : s.mem.wf = true) (h : exec i s = .next t) : t.mem.wf = true := by
  obtain hm | ⟨q, hq, hm⟩ | hm := exec_mem_cases h <;> rw [hm]
  · exact hs
  · exact hq.2 hs
  · exact s.scramble_wf (word_lt_addrSpace _).le hs

/-- The region that a reset leaves unspecified starts in the address space. -/
theorem State.abandonedRegion_base_le (s : State) : s.abandonedRegion.base ≤ Config.addrSpace := by
  unfold State.abandonedRegion
  cases s.engine with
  | none => exact Nat.zero_le _
  | some e => exact (word_lt_addrSpace e.dstAddr).le

/-- A register write touches neither the memory nor the platform. -/
theorem State.writeReg_mem_platform (r : Reg) (v : Word) (s : State) :
    (s.writeReg r v).mem = s.mem ∧ (s.writeReg r v).platform = s.platform := by
  obtain heq | ⟨-, heq⟩ | ⟨-, -, heq | heq | heq | heq | heq⟩ := State.writeReg_cases r v s <;> simp [heq]

/-- Settles O51, by cases on what the step does. -/
theorem memoryStaysCanonical : Obligations.MemoryStaysCanonical := by
  intro s t hs h
  cases step_moves h with
  | ends ins he hi ht => exact exec_mem_wf (s := { s with inputs := ins }) hs ht
  | illegal ins he hr => simpa using hs
  | iterates ins he hi hq => exact hq.2 hs
  | observes ins seen => exact hs
  | stores ins v ha => exact Memory.write_wf hs (word_lt_addrSpace _) v
  | writes ins hr => simpa [(State.writeReg_mem_platform _ _ _).1] using hs
  | asserts ins => exact State.scramble_wf { s with inputs := ins } (State.abandonedRegion_base_le _) hs
  | releases hin hr => exact hs

/-! ### The regions of the command in progress -/

theorem State.runningOrdinary_of_idle {s : State} (he : s.engine = none) : s.runningOrdinary :=
  fun e i h => by simp [he] at h

/-- The regions are those of the latched word and operands (10_state.md R44). -/
theorem Engine.regions_of_sameOperands {e f : Engine} (h : f.sameOperands e) (i : Instr) :
    f.sourceOf i = e.sourceOf i ∧ f.destinationOf i = e.destinationOf i := by
  obtain ⟨-, hsa, hsl, hda, hdl⟩ := h
  cases i <;>
    simp [Engine.sourceOf, Engine.destinationOf, Engine.source, Engine.destination, Engine.alphabetRegion, hsa, hsl, hda, hdl]

/-- A write to a register keeps the command in progress, if it does so where the block is idle. -/
theorem State.unlessBusy_engine {s t : State} (h : t.engine = s.engine) : (s.unlessBusy t).engine = s.engine := by
  unfold State.unlessBusy
  split
  · rfl
  · exact h

/-- Only a write to CMD starts a command. -/
theorem State.writeReg_engine_of_ne_cmd {r : Reg} (hr : r ≠ .cmd) (v : Word) (s : State) :
    (s.writeReg r v).engine = s.engine := by
  unfold State.writeReg
  split
  · rfl
  · cases r with
    | cmd => exact absurd rfl hr
    | srcAddr | srcLen | dstAddr | dstLen => exact State.unlessBusy_engine rfl
    | status | result | cfgstat | reserved => rfl

/-- A CMD write that issues a command over memory that is not ordinary stops the machine, so one that goes through keeps the
invariant (20_memory.md R75, 70_reset_and_hazards.md R277). -/
theorem State.writeReg_runningOrdinary {s : State} (hs : s.runningOrdinary) {r : Reg} {v : Word}
    (hr : s.issuesNotOrdinary r (some v) = false) : (s.writeReg r v).runningOrdinary := by
  by_cases hissue : r = .cmd ∧ s.inReset = false ∧ s.engine = none
  · obtain ⟨rfl, hrst, he⟩ := hissue
    rw [State.writeReg_cmd_of_idle hrst he]
    rintro _ i ⟨rfl⟩ hi
    by_contra hnot
    exact Bool.eq_false_iff.1 hr ((State.issuesNotOrdinary_iff _ _ _).2 ⟨rfl, v, i, rfl, hi, hrst, he, hnot⟩)
  · have hsame : (s.writeReg r v).engine = s.engine := by
      by_cases hcmd : r = .cmd
      · subst hcmd
        cases hrst : s.inReset with
        | true => simp [State.writeReg, hrst]
        | false => rw [State.writeReg_cmd_of_busy hrst fun he => hissue ⟨rfl, hrst, he⟩]
      · exact State.writeReg_engine_of_ne_cmd hcmd v s
    rw [State.runningOrdinary, hsame, (State.writeReg_mem_platform r v s).2]
    exact hs

/-- Settles O54: a step ends the command, keeps its operands, or issues one that the CMD write has found ordinary. -/
theorem runningRegionsStayOrdinary : Obligations.RunningRegionsStayOrdinary := by
  intro s t hs h
  cases step_moves h with
  | ends ins he hi ht => exact State.runningOrdinary_of_idle (exec_ends ht).idle.1
  | illegal ins he hr => exact State.runningOrdinary_of_idle (by simp)
  | @iterates ins e i q he hi hq =>
    rintro _ j ⟨rfl⟩ hj
    obtain ⟨hsrc, hdst⟩ := Engine.regions_of_sameOperands hq.1 j
    rw [hsrc, hdst]
    exact hs e j he (hq.1.1 ▸ hj)
  | observes ins seen => exact hs
  | stores ins v ha => exact hs
  | writes ins hr => exact State.writeReg_runningOrdinary (s := { s with inputs := ins }) hs hr
  | asserts ins => exact State.runningOrdinary_of_idle rfl
  | releases hin hr => exact State.runningOrdinary_of_idle rfl

/-! ### Loads and stores of the host -/

/-- A load of ordinary memory outside a running command's regions records the byte (70_reset_and_hazards.md R277). -/
theorem step_of_load {s : State} {who : Master} {a : Word} {rest : List Input} (hreg : s.inCommandRegion a.toNat = false)
    (hord : s.platform.ordinaryAt a.toNat = true) (hin : s.inputs = .memory who a none :: rest) :
    step s = .next (State.load who a { s with inputs := rest }) := by
  have hreg' : State.inCommandRegion { s with inputs := rest } a.toNat = false := hreg
  simp [step, hin, State.inputTurn, State.memoryAccess, hreg', hord]

/-- A store there writes the byte. -/
theorem step_of_store {s : State} {who : Master} {a : Word} {v : Byte} {rest : List Input}
    (hreg : s.inCommandRegion a.toNat = false) (hord : s.platform.ordinaryAt a.toNat = true)
    (hin : s.inputs = .memory who a (some v) :: rest) :
    step s = .next { s with inputs := rest, mem := s.mem.write a.toNat v } := by
  have hreg' : State.inCommandRegion { s with inputs := rest } a.toNat = false := hreg
  simp [step, hin, State.inputTurn, State.memoryAccess, hreg', hord]

/-- Settles O47: the access is made, and a write changes the byte at its address only. -/
theorem hostLoadsAndStores : Obligations.HostLoadsAndStores := by
  intro s a rest hreg hord
  exact ⟨step_of_load hreg hord, fun v hwf hin => ⟨s.mem.write a.toNat v, step_of_store hreg hord hin,
    Memory.read_write_self hwf _ v, fun b hb => Memory.read_write_of_ne hb v s.mem⟩⟩

end Sys2Proof.Machine
end

section
/-! Where the pipelines write (20_memory.md R78): each counts the bits it has read and written, which bounds `o`, and every
write is at `DST_ADDR + o`. -/
namespace Sys2Proof.Machine

/-! ### Writes inside the first bytes of the destination -/

/-- From `p` to `q` the operands stay and no byte changes outside the first `len` bytes from DST_ADDR. -/
structure Pipe.Confined (len : Nat) (p q : Pipe) : Prop where
  operands : q.eng.sameOperands p.eng
  frame (a : Nat) (ha : a < p.eng.dstAddr.toNat ∨ p.eng.dstAddr.toNat + len ≤ a) : q.mem.read a = p.mem.read a

theorem Pipe.Confined.of_mem_eq {len : Nat} {p q : Pipe} (ho : q.eng.sameOperands p.eng) (hm : q.mem = p.mem) :
    p.Confined len q :=
  ⟨ho, fun a _ => by rw [hm]⟩

theorem Pipe.Confined.refl (len : Nat) (p : Pipe) : p.Confined len p := .of_mem_eq p.eng.sameOperands_refl rfl

theorem Pipe.Confined.trans {len : Nat} {p q r : Pipe} (h : p.Confined len q) (k : q.Confined len r) : p.Confined len r where
  operands := Engine.sameOperands_trans k.operands h.operands
  frame a ha := by
    obtain ⟨-, -, -, hdst, -⟩ := h.operands
    rw [k.frame a (by rwa [hdst]), h.frame a ha]

/-- `len` bytes from DST_ADDR exist, and `o` can count them. -/
def Engine.room (len : Nat) (e : Engine) : Prop := e.dstAddr.toNat + len ≤ 4294967296 ∧ len < 4294967296

theorem Engine.room_of_sameOperands {len : Nat} {e f : Engine} (h : f.sameOperands e) (he : e.room len) : f.room len := by
  obtain ⟨-, -, -, hdst, -⟩ := h
  rwa [Engine.room, hdst]

/-- An index with room above it counts on without wrap. -/
theorem Word.succ_toNat {i : Word} (h : i.toNat + 1 < 4294967296) : (i + 1).toNat = i.toNat + 1 :=
  Word.add_toNat_of_le i 1 h

/-- A write at an index below `len` is one of the first `len` bytes. -/
theorem Pipe.confined_put {len : Nat} {p : Pipe} (hroom : p.eng.room len) (ho : p.eng.o.toNat < len) (v : Byte) :
    p.Confined len (p.put v) := by
  obtain ⟨hfits, -⟩ := hroom
  refine ⟨⟨rfl, rfl, rfl, rfl, rfl⟩, fun a ha => Memory.read_write_of_ne ?_ v p.mem⟩
  rw [Word.add_toNat_of_le _ _ (by omega)]
  omega

/-- Another count of valid bits. -/
def Pipe.withCnt (c : Count) (p : Pipe) : Pipe := { p with eng := { p.eng with cnt := c } }

theorem Pipe.confined_withCnt_put {len : Nat} {p : Pipe} (hroom : p.eng.room len) (ho : p.eng.o.toNat < len) (c : Count)
    (v : Byte) : p.Confined len ((p.withCnt c).put v) :=
  .trans (q := p.withCnt c) (.of_mem_eq ⟨rfl, rfl, rfl, rfl, rfl⟩ rfl) (Pipe.confined_put (p := p.withCnt c) hroom ho v)

/-! ### ENCODE -/

/-- Symbols are written from bits already read: each takes 5 of the bits counted by `cnt` (41_encoder.md R162). -/
structure Pipe.Emits (len : Nat) (p q : Pipe) : Prop where
  confined : p.Confined len q
  bits : 5 * q.eng.o.toNat + q.eng.cnt.toNat = 5 * p.eng.o.toNat + p.eng.cnt.toNat

/-- One round of `emitGroups`: the top 5 bits are taken and their symbol written. -/
def Pipe.takeGroup (A : Alphabet) (p : Pipe) : Pipe :=
  (p.withCnt (p.eng.cnt - 5)).put (A.get (topGroup p.eng.acc (p.eng.cnt - 5)).toFin)

theorem Pipe.emitGroups_succ (A : Alphabet) (k : Nat) (p : Pipe) :
    p.emitGroups A (k + 1) = if 5 ≤ p.eng.cnt.toNat then (p.takeGroup A).emitGroups A k else p := rfl

theorem Pipe.emits_takeGroup {len : Nat} {p : Pipe} (hroom : p.eng.room len) (hcnt : 5 ≤ p.eng.cnt.toNat)
    (hbits : 5 * p.eng.o.toNat + p.eng.cnt.toNat ≤ 5 * len) (A : Alphabet) : p.Emits len (p.takeGroup A) := by
  have ho : p.eng.o.toNat < len := by omega
  have hsucc : (p.eng.o + 1).toNat = p.eng.o.toNat + 1 := Word.succ_toNat (by have := hroom.2; omega)
  have hsub : (p.eng.cnt - 5).toNat = p.eng.cnt.toNat - 5 := BitVec.toNat_sub_of_le hcnt
  refine ⟨Pipe.confined_withCnt_put hroom ho _ _, ?_⟩
  show 5 * (p.eng.o + 1).toNat + (p.eng.cnt - 5).toNat = _
  omega

/-- No group taken moves the source index. -/
@[simp] theorem Pipe.emitGroups_i (A : Alphabet) : ∀ (k : Nat) (p : Pipe), (p.emitGroups A k).eng.i = p.eng.i
  | 0, _ => rfl
  | k + 1, p => by
    rw [Pipe.emitGroups_succ]
    split
    · exact Pipe.emitGroups_i A k (p.takeGroup A)
    · rfl

/-- Enough rounds leave fewer than 5 bits. -/
theorem Pipe.emits_emitGroups (A : Alphabet) {len : Nat} :
    ∀ (k : Nat) {p : Pipe}, p.eng.room len → p.eng.cnt.toNat < 5 * (k + 1) →
      5 * p.eng.o.toNat + p.eng.cnt.toNat ≤ 5 * len →
      p.Emits len (p.emitGroups A k) ∧ (p.emitGroups A k).eng.cnt.toNat < 5
  | 0, p, _, hcnt, _ => ⟨⟨.refl len p, rfl⟩, hcnt⟩
  | k + 1, p, hroom, hcnt, hbits => by
    rw [Pipe.emitGroups_succ]
    split
    case isFalse h => exact ⟨⟨.refl len p, rfl⟩, by omega⟩
    case isTrue h =>
      have htake := Pipe.emits_takeGroup hroom h hbits A
      have hsub : (p.takeGroup A).eng.cnt.toNat = p.eng.cnt.toNat - 5 := BitVec.toNat_sub_of_le h
      obtain ⟨hrest, hfew⟩ := Pipe.emits_emitGroups A k (Engine.room_of_sameOperands htake.confined.operands hroom)
        (by omega) (htake.bits.trans_le hbits)
      exact ⟨⟨htake.confined.trans hrest.confined, hrest.bits.trans htake.bits⟩, hfew⟩

/-- The next source byte, read into the accumulator. -/
def Pipe.loadByte (p : Pipe) : Pipe :=
  { p with eng := { p.eng with
      acc := (p.eng.acc <<< 8) ||| p.sourceByte.setWidth 12, cnt := p.eng.cnt + 8, i := p.eng.i + 1 } }

theorem Pipe.encodeByte_eq (A : Alphabet) (p : Pipe) : p.encodeByte A = p.loadByte.emitGroups A 3 := rfl

@[simp] theorem Pipe.encodeByte_i (A : Alphabet) (p : Pipe) : (p.encodeByte A).eng.i = p.eng.i + 1 :=
  Pipe.emitGroups_i A 3 p.loadByte

/-- ENCODE's pipeline, started as `p₀`, stands between two source bytes: of the bits read, fewer than 5 are not written yet. -/
structure Pipe.Packing (len : Nat) (p₀ p : Pipe) : Prop where
  confined : p₀.Confined len p
  bits : 5 * p.eng.o.toNat + p.eng.cnt.toNat = 8 * p.eng.i.toNat
  few : p.eng.cnt.toNat < 5

section Packing
variable {len : Nat} {p₀ p : Pipe}

theorem Pipe.Packing.encodeByte (h : Pipe.Packing len p₀ p) (hroom : p₀.eng.room len) (hi : p.eng.i.toNat + 1 < 4294967296)
    (hlen : 8 * (p.eng.i.toNat + 1) ≤ 5 * len) (A : Alphabet) : Pipe.Packing len p₀ (p.encodeByte A) := by
  obtain ⟨hconf, hbits, hfew⟩ := h
  have hload : p₀.Confined len p.loadByte := hconf.trans (.of_mem_eq ⟨rfl, rfl, rfl, rfl, rfl⟩ rfl)
  have ho : p.loadByte.eng.o = p.eng.o := rfl
  have hcnt : p.loadByte.eng.cnt.toNat = p.eng.cnt.toNat + 8 := by simp only [Pipe.loadByte]; bv_omega
  obtain ⟨hemit, hfew'⟩ := Pipe.emits_emitGroups A (len := len) 3 (Engine.room_of_sameOperands hload.operands hroom)
    (by omega) (by rw [ho]; omega)
  refine ⟨hload.trans hemit.confined, ?_, hfew'⟩
  rw [Pipe.encodeByte_i, Word.succ_toNat hi, Pipe.encodeByte_eq, hemit.bits, ho]
  omega

theorem Pipe.Packing.encodeBytes (hroom : p₀.eng.room len) (A : Alphabet) :
    ∀ (k : Nat) {p : Pipe}, Pipe.Packing len p₀ p → p.eng.i.toNat + k < 4294967296 → 8 * (p.eng.i.toNat + k) ≤ 5 * len →
      Pipe.Packing len p₀ (p.encodeBytes A k) ∧ (p.encodeBytes A k).eng.i.toNat = p.eng.i.toNat + k
  | 0, _, h, _, _ => ⟨h, rfl⟩
  | k + 1, p, h, hi, hlen => by
    have hnext : (p.encodeByte A).eng.i.toNat = p.eng.i.toNat + 1 := by
      rw [Pipe.encodeByte_i, Word.succ_toNat (by omega)]
    have hbyte := h.encodeByte hroom (by omega) (by omega) A
    obtain ⟨hrest, hend⟩ := Pipe.Packing.encodeBytes hroom A k hbyte (by omega) (by omega)
    exact ⟨hrest, by rw [Pipe.encodeBytes, hend]; omega⟩

/-- The leftover group, if there is one, still has its place (R163). -/
theorem Pipe.Packing.encodeLeftover (h : Pipe.Packing len p₀ p) (hroom : p₀.eng.room len) (hlen : 8 * p.eng.i.toNat ≤ 5 * len)
    (A : Alphabet) : p₀.Confined len (p.encodeLeftover A) ∧ (p.encodeLeftover A).eng.o.toNat ≤ len := by
  obtain ⟨hconf, hbits, hfew⟩ := h
  unfold Pipe.encodeLeftover
  split
  case isTrue => exact ⟨hconf, by omega⟩
  case isFalse hcnt =>
    have hpos : 0 < p.eng.cnt.toNat := by bv_omega
    have ho : p.eng.o.toNat < len := by omega
    refine ⟨hconf.trans (Pipe.confined_put (Engine.room_of_sameOperands hconf.operands hroom) ho _), ?_⟩
    rw [Pipe.put_eng, Word.succ_toNat (by have := hroom.2; omega)]
    exact ho

end Packing

/-- Pad fill up to `len` (R164). -/
theorem Pipe.confined_padFill {len : Nat} (pad : Byte) :
    ∀ (k : Nat) {p : Pipe}, p.eng.room len → p.eng.o.toNat + k ≤ len → p.Confined len (p.padFill pad k)
  | 0, p, _, _ => .refl len p
  | k + 1, p, hroom, hk => by
    have ho : (p.put pad).eng.o.toNat = p.eng.o.toNat + 1 := Word.succ_toNat (by have := hroom.2; omega)
    exact (Pipe.confined_put hroom (by omega) pad).trans (Pipe.confined_padFill pad k hroom (by omega))

/-- The whole of ENCODE's pipeline writes the first `len` bytes of its destination only, if they hold the source's bits. -/
theorem Pipe.confined_encodeRest {len : Nat} {p : Pipe} (hfresh : p.eng.fresh) (hroom : p.eng.room len)
    (hlen : 8 * p.eng.srcLen.toNat ≤ 5 * len) (A : Alphabet) (padEn : Bool) (pad : Byte) :
    p.Confined len (p.encodeRest A padEn pad len) := by
  obtain ⟨-, hcnt, hi, ho, -, -⟩ := hfresh
  have hstart : Pipe.Packing len p p := ⟨.refl len p, by simp [hcnt, hi, ho], by simp [hcnt]⟩
  have hi0 : p.eng.i.toNat = 0 := by simp [hi]
  have hn := p.eng.srcLen.isLt
  obtain ⟨hbytes, hend⟩ := Pipe.Packing.encodeBytes hroom A (p.eng.srcLen.toNat - p.eng.i.toNat) hstart (by omega) (by omega)
  obtain ⟨hleft, hoLe⟩ := hbytes.encodeLeftover hroom (by omega) A
  unfold Pipe.encodeRest
  cases padEn with
  | false => exact hleft
  | true => exact hleft.trans (Pipe.confined_padFill pad _ (Engine.room_of_sameOperands hleft.operands hroom) (by omega))

/-- The output holds the source's bits (R160). -/
theorem encSize_holds_bits (n : Nat) (padEn : Bool) : 8 * n ≤ 5 * encSize n padEn := by
  cases padEn <;> simp [encSize] <;> omega

/-! ### DECODE -/

/-- The next symbol, read into the accumulator. -/
def Pipe.loadSymbol (x : Index) (p : Pipe) : Pipe :=
  { p with eng := { p.eng with acc := (p.eng.acc <<< 5) ||| x.setWidth 12, cnt := p.eng.cnt + 5, i := p.eng.i + 1 } }

/-- The top 8 bits are taken and their byte written. -/
def Pipe.takeByte (p : Pipe) : Pipe :=
  (p.withCnt (p.eng.cnt - 8)).put (topByte p.eng.acc (p.eng.cnt - 8))

theorem Pipe.foldSymbol_eq (x : Index) (p : Pipe) :
    p.foldSymbol x = if 8 ≤ (p.loadSymbol x).eng.cnt.toNat then (p.loadSymbol x).takeByte else p.loadSymbol x := rfl

/-- A symbol folded moves the source index by one and leaves the phase. -/
theorem Pipe.foldSymbol_index_phase (x : Index) (p : Pipe) :
    (p.foldSymbol x).eng.i = p.eng.i + 1 ∧ (p.foldSymbol x).eng.phase = p.eng.phase := by
  rw [Pipe.foldSymbol_eq]
  split <;> exact ⟨rfl, rfl⟩

/-- The source of `p` holds no symbol from index `limit` on, and those before it complete at most DST_LEN bytes. -/
structure Pipe.SymbolLimit (inv : Inverse) (limit : Nat) (p : Pipe) : Prop where
  le_srcLen : limit ≤ p.eng.srcLen.toNat
  bytes : 5 * limit / 8 ≤ p.eng.dstLen.toNat
  none_from (j : Nat) (hj : limit ≤ j) (hn : j < p.eng.srcLen.toNat) :
    inv.get (p.mem.read (p.eng.srcAddr.toNat + j)).toFin = none

/-- `unpack`, started as `p₀`, is reading symbols: of the bits read, fewer than 8 are not written yet (42_decoder.md R193). -/
structure Pipe.Unpacking (limit : Nat) (p₀ p : Pipe) : Prop where
  confined : p₀.Confined p₀.eng.dstLen.toNat p
  bits : 8 * p.eng.o.toNat + p.eng.cnt.toNat = 5 * p.eng.i.toNat
  few : p.eng.cnt.toNat < 8
  index : p.eng.i.toNat ≤ limit

/-- Writes to the destination leave the source as it was, since they share no address (20_memory.md R77). -/
theorem Pipe.Confined.read_source {p q : Pipe} (h : p.Confined p.eng.dstLen.toNat q) (hbuf : p.eng.buffersOk) {j : Nat}
    (hj : j < p.eng.srcLen.toNat) : q.mem.read (p.eng.srcAddr.toNat + j) = p.mem.read (p.eng.srcAddr.toNat + j) := by
  obtain ⟨-, -, hdisjoint⟩ := hbuf
  have := hdisjoint (p.eng.srcAddr.toNat + j)
  exact h.frame _ (by omega)

theorem Pipe.Confined.sourceByte_eq {p q : Pipe} (h : p.Confined p.eng.dstLen.toNat q) (hbuf : p.eng.buffersOk)
    (hi : q.eng.i.toNat < p.eng.srcLen.toNat) :
    q.sourceByte = p.mem.read (p.eng.srcAddr.toNat + q.eng.i.toNat) := by
  obtain ⟨-, hsrc, -⟩ := h.operands
  have hfits := hbuf.1
  rw [Pipe.sourceByte, hsrc, Word.add_toNat_of_le _ _ (by omega), h.read_source hbuf hi]

section Unpacking
variable {inv : Inverse} {limit : Nat} {p₀ : Pipe}

theorem Pipe.Unpacking.start (hfresh : p₀.eng.fresh) (limit : Nat) : Pipe.Unpacking limit p₀ p₀ := by
  obtain ⟨-, hcnt, hi, ho, -, -⟩ := hfresh
  exact ⟨.refl _ p₀, by simp [hcnt, hi, ho], by simp [hcnt], by simp [hi]⟩

/-- A symbol stands before the limit, so the byte it completes has its place in the destination (R200). -/
theorem Pipe.Unpacking.foldSymbol (hlim : p₀.SymbolLimit inv limit) (hbuf : p₀.eng.buffersOk) {p : Pipe}
    (h : Pipe.Unpacking limit p₀ p) (hi : p.eng.i.toNat < p₀.eng.srcLen.toNat) {x : Index}
    (hx : inv.get p.sourceByte.toFin = some x) : Pipe.Unpacking limit p₀ (p.foldSymbol x) := by
  have hbefore : p.eng.i.toNat < limit := by
    by_contra hge
    rw [h.confined.sourceByte_eq hbuf hi, hlim.none_from _ (not_lt.1 hge) hi] at hx
    exact nomatch hx
  obtain ⟨hconf, hbits, hfew, -⟩ := h
  obtain ⟨-, hfits, -⟩ := hbuf
  have hbytes := hlim.bytes
  have hsrc := p₀.eng.srcLen.isLt
  have hdst := p₀.eng.dstLen.isLt
  have hload : p₀.Confined p₀.eng.dstLen.toNat (p.loadSymbol x) :=
    hconf.trans (.of_mem_eq ⟨rfl, rfl, rfl, rfl, rfl⟩ rfl)
  have hnext : (p.eng.i + 1).toNat = p.eng.i.toNat + 1 := Word.succ_toNat (by omega)
  have hcnt : (p.loadSymbol x).eng.cnt.toNat = p.eng.cnt.toNat + 5 := by simp only [Pipe.loadSymbol]; bv_omega
  rw [Pipe.foldSymbol_eq]
  split
  case isFalse hlt =>
    refine ⟨hload, ?_, by omega, hnext.trans_le hbefore⟩
    show 8 * p.eng.o.toNat + (p.loadSymbol x).eng.cnt.toNat = 5 * (p.eng.i + 1).toNat
    omega
  case isTrue hle =>
    have ho : p.eng.o.toNat < p₀.eng.dstLen.toNat := by omega
    have hsub : ((p.loadSymbol x).eng.cnt - 8).toNat = (p.loadSymbol x).eng.cnt.toNat - 8 := BitVec.toNat_sub_of_le hle
    have hsucc : (p.eng.o + 1).toNat = p.eng.o.toNat + 1 := Word.succ_toNat (by omega)
    have hroom := Engine.room_of_sameOperands hload.operands ⟨hfits, hdst⟩
    refine ⟨hload.trans (Pipe.confined_withCnt_put hroom ho _ _), ?_, hsub.trans_lt (by omega), hnext.trans_le hbefore⟩
    show 8 * (p.eng.o + 1).toNat + ((p.loadSymbol x).eng.cnt - 8).toNat = 5 * (p.eng.i + 1).toNat
    omega

theorem Pipe.Unpacking.readSymbols (hlim : p₀.SymbolLimit inv limit) (hbuf : p₀.eng.buffersOk) {padEn : Bool} {pad : Byte} :
    ∀ (k : Nat) {p q : Pipe}, Pipe.Unpacking limit p₀ p → p.eng.i.toNat + k ≤ p₀.eng.srcLen.toNat →
      p.readSymbols inv padEn pad k = .ok q → p₀.Confined p₀.eng.dstLen.toNat q
  | 0, p, q, h, _, hq => by
    obtain rfl : p = q := Except.ok.inj hq
    exact h.confined
  | k + 1, p, q, h, hi, hq => by
    unfold Pipe.readSymbols at hq
    split at hq
    case h_1 x hx =>
      have hnext : (p.foldSymbol x).eng.i.toNat = p.eng.i.toNat + 1 := by
        rw [(p.foldSymbol_index_phase x).1, Word.succ_toNat (by have := p₀.eng.srcLen.isLt; omega)]
      exact (h.foldSymbol hlim hbuf (by omega) hx).readSymbols hlim hbuf k (by omega) hq
    case h_2 =>
      split at hq
      · obtain rfl := Except.ok.inj hq
        exact h.confined.trans (.of_mem_eq ⟨rfl, rfl, rfl, rfl, rfl⟩ rfl)
      · exact nomatch hq

/-- A just issued `unpack` that answers `Ok` has written its destination only (R200). -/
theorem Pipe.confined_unpackRest (hlim : p₀.SymbolLimit inv limit) (hbuf : p₀.eng.buffersOk) (hfresh : p₀.eng.fresh)
    {padEn : Bool} {pad : Byte} {q : Pipe} (hq : p₀.unpackRest inv padEn pad = .ok q) :
    p₀.Confined p₀.eng.dstLen.toNat q := by
  have hstart := Pipe.Unpacking.start hfresh limit
  obtain ⟨-, -, hi, -, -, hphase⟩ := hfresh
  rw [Pipe.unpackRest, hphase] at hq
  dsimp only at hq
  split at hq
  · exact nomatch hq
  · rename_i r hr
    obtain rfl := Pipe.checkTail_ok hq
    exact hstart.readSymbols hlim hbuf _ (by simp [hi]) hr

end Unpacking

/-! ### The limit that sizing finds -/

theorem decUb_unpadded {n u : Nat} (h : decUb n false = .ok u) : u = 5 * n / 8 := by
  simp only [decUb, Bool.false_eq_true, if_false] at h
  split at h <;> simp only [Except.ok.injEq, reduceCtorEq] at h <;> omega

theorem decUb_padded {n u : Nat} (h : decUb n true = .ok u) : n % 8 = 0 ∧ u = 5 * (n / 8) := by
  simp only [decUb, if_true] at h
  split at h <;> simp only [Except.ok.injEq, reduceCtorEq] at h
  exact ⟨‹_›, h.symm⟩

theorem padReduction_cases {k d : Nat} (h : padReduction k = some d) :
    (k, d) ∈ [(0, 0), (1, 1), (3, 2), (4, 3), (6, 4)] := by
  unfold padReduction at h
  split at h <;> simp_all

/-- The trailing pads are pads (42_decoder.md R192). -/
theorem Memory.read_trailingPads (m : Memory) (a : Word) (pad : Byte) :
    ∀ {n j : Nat}, n - m.trailingPads a pad n ≤ j → j < n → m.read (a + BitVec.ofNat 32 j).toNat = pad
  | n + 1, j, hj, hn => by
    unfold Memory.trailingPads at hj
    split at hj
    case isFalse => omega
    case isTrue hpad =>
      obtain hlt | rfl := Nat.lt_succ_iff_lt_or_eq.1 hn
      · exact Memory.read_trailingPads m a pad (by omega) hlt
      · exact hpad

/-- The exact size leaves room for the symbols before the trailing pads, all of them in the unpadded variant (R192). -/
theorem Memory.decSlice_limit {m : Memory} {a : Word} {n : Nat} {padEn : Bool} {pad : Byte} {size : Nat}
    (h : m.decSlice a n padEn pad = .ok size) :
    ∃ limit ≤ n, 5 * limit / 8 ≤ size
      ∧ ∀ j, limit ≤ j → j < n → padEn = true ∧ m.read (a + BitVec.ofNat 32 j).toNat = pad := by
  unfold Memory.decSlice at h
  split at h
  · exact nomatch h
  · rename_i u hu
    cases padEn with
    | false =>
      obtain rfl := Except.ok.inj h
      exact ⟨n, le_rfl, (decUb_unpadded hu).ge, fun j hj hn => absurd hn (not_lt.2 hj)⟩
    | true =>
      obtain ⟨hmod, rfl⟩ := decUb_padded hu
      rw [if_pos rfl] at h
      split at h
      case h_2 => exact nomatch h
      case h_1 d hd =>
        obtain rfl := Except.ok.inj h
        refine ⟨n - m.trailingPads a pad n, Nat.sub_le _ _, ?_, fun j hj hn => ⟨rfl, m.read_trailingPads a pad hj hn⟩⟩
        have hcases := padReduction_cases hd
        simp only [List.mem_cons, Prod.mk.injEq, List.not_mem_nil, or_false] at hcases
        omega

/-- DECODE's checks bound the symbols by the exact size: a pad byte is no symbol (R198, 10_state.md R42). -/
theorem State.symbolLimit_of_decodeChecks {s : State} {e : Engine} {m : Nat} (hinv : s.decoderInv)
    (h : s.decodeChecks e = .ok m) : e.buffersOk ∧ ∃ limit, (Pipe.mk e s.mem).SymbolLimit s.decInv limit := by
  obtain hk | hk | hk | ⟨-, hvalid, hok, hslice⟩ := s.decodeChecks_cases e
  iterate 3 · exact nomatch h.symm.trans hk
  have hbuf := (Engine.regionsOk_iff e).1 hok
  have ⟨hfits, _⟩ := hbuf
  obtain ⟨-, -, hpadNone⟩ := hinv.1 hvalid
  obtain ⟨limit, hle, hbytes, hpads⟩ := Memory.decSlice_limit hslice
  refine ⟨hbuf, limit, hle, hbytes, fun j hj hn => ?_⟩
  obtain ⟨hpadEn, hpad⟩ := hpads j hj hn
  have hj' : (BitVec.ofNat 32 j).toNat = j := Nat.mod_eq_of_lt (hn.trans e.srcLen.isLt)
  rw [Word.add_toNat_of_le _ _ (by rw [hj']; exact (Nat.add_lt_add_left hn _).trans_le hfits), hj'] at hpad
  rw [hpad, hpadNone hpadEn]

/-! ### Commands -/

/-- After an error inside `unpack` the destination alone is unspecified (42_decoder.md R199). -/
theorem State.scramble_read_outside (s : State) {r : Region} {a : Nat} (ha : a < r.base ∨ r.base + r.len ≤ a) :
    (s.scramble r).mem.read a = s.mem.read a :=
  Memory.read_scramble_outside _ _ _ _ _ (by have := r.clippedLen_le_len; omega)

/-- ENCODE writes at most the first `encSize` bytes of its destination, which has them. -/
theorem execEncode_frame {s t : State} {e : Engine} (he : s.engine = some e) (hfresh : e.fresh) (h : execEncode s = .next t)
    {a : Nat} (ha : a < e.dstAddr.toNat ∨ e.dstAddr.toNat + encSize e.srcLen.toNat s.encPadEn ≤ a
      ∨ e.dstAddr.toNat + e.dstLen.toNat ≤ a) : t.mem.read a = s.mem.read a := by
  obtain ⟨k, -, rfl⟩ | ⟨len, hlen, rfl⟩ := execEncode_cases h
  · rw [State.raise_mem]
  · rw [State.running_of_engine he] at hlen ⊢
    obtain hk | hk | hk | ⟨hk, -, hmax, hok, hle⟩ := s.encodeChecks_cases e <;> rw [hlen] at hk
    iterate 3 · exact nomatch hk
    obtain rfl := Except.ok.inj hk
    obtain ⟨-, hfits, -⟩ := (Engine.regionsOk_iff e).1 hok
    have hroom : e.room (encSize e.srcLen.toNat s.encPadEn) := ⟨by omega, Nat.lt_succ_of_le hmax⟩
    exact (Pipe.confined_encodeRest (p := ⟨e, s.mem⟩) hfresh hroom (encSize_holds_bits _ _) s.encAlpha s.encPadEn
      s.encPad).frame a (by dsimp only; omega)

/-- DECODE writes its destination only. -/
theorem execDecode_frame {s t : State} {e : Engine} (hinv : s.decoderInv) (he : s.engine = some e) (hfresh : e.fresh)
    (h : execDecode s = .next t) {a : Nat} (ha : a < e.dstAddr.toNat ∨ e.dstAddr.toNat + e.dstLen.toNat ≤ a) :
    t.mem.read a = s.mem.read a := by
  obtain ⟨k, -, rfl⟩ | ⟨m, k, -, -, rfl⟩ | ⟨m, p, hm, hp, rfl⟩ := execDecode_cases h
  · rw [State.raise_mem]
  · rw [State.raise_mem, State.running_of_engine he]
    exact s.scramble_read_outside ha
  · rw [State.running_of_engine he] at hm hp
    obtain ⟨hbuf, limit, hlim⟩ := State.symbolLimit_of_decodeChecks hinv hm
    exact (Pipe.confined_unpackRest hlim hbuf hfresh hp).frame a ha

/-- Settles O36: ENCODE and DECODE by where their pipelines write, the others by their frame. -/
theorem writesAreConfined : Obligations.WritesAreConfined := by
  intro i s t e hinv he hfresh h
  have hother := (exec_ends h).mem_eq
  refine ⟨hother, fun a ha => ?_, fun hi a ha => ?_⟩
  · by_cases henc : i = .encode
    · subst henc
      exact execEncode_frame he hfresh h (by omega)
    · by_cases hdec : i = .decode
      · subst hdec
        exact execDecode_frame hinv he hfresh h ha
      · rw [hother henc hdec]
  · subst hi
    exact execEncode_frame he hfresh h (by omega)

end Sys2Proof.Machine
end

section
/-! Running a command iteration by iteration (20_memory.md R76, R81): one iteration changes nothing of what completing the
command then answers. -/
namespace Sys2Proof.Machine

/-! ### What one iteration leaves to do -/

/-- Of the source bytes still to be read, one less is left. -/
theorem Word.remaining_succ {n i : Word} (h : i.toNat < n.toNat) : n.toNat - i.toNat = n.toNat - (i + 1).toNat + 1 := by
  rw [Word.succ_toNat (by have := n.isLt; omega)]
  omega

/-- ENCODE's pipeline is its next byte, then the rest (41_encoder.md R166). -/
theorem Pipe.encodeRest_encodeByte {p : Pipe} (hi : p.eng.i.toNat < p.eng.srcLen.toNat) (A : Alphabet) (padEn : Bool)
    (pad : Byte) (len : Nat) : (p.encodeByte A).encodeRest A padEn pad len = p.encodeRest A padEn pad len := by
  obtain ⟨-, -, hlen, -⟩ := (p.keeps_encodeByte A).1
  simp only [Pipe.encodeRest, hlen, Pipe.encodeByte_i, Word.remaining_succ hi, Pipe.encodeBytes]

/-- A pad byte read in the tail leaves the checks as they were (42_decoder.md R195). -/
theorem Pipe.checkTail_tailByte {inv : Inverse} {pad : Byte} {p : Pipe} (hi : p.eng.i.toNat < p.eng.srcLen.toNat)
    (hpad : p.sourceByte = pad) :
    (Pipe.checkTail inv pad { p with eng := { p.eng with i := p.eng.i + 1 } }).map Pipe.mem
      = (p.checkTail inv pad).map Pipe.mem := by
  have hbyte : p.mem.read (p.eng.srcAddr + p.eng.i).toNat = pad := hpad
  have htail : p.mem.tailCheck p.eng.srcAddr inv pad (p.eng.srcLen.toNat - p.eng.i.toNat) p.eng.i
      = p.mem.tailCheck p.eng.srcAddr inv pad (p.eng.srcLen.toNat - (p.eng.i + 1).toNat) (p.eng.i + 1) := by
    rw [Word.remaining_succ hi, Memory.tailCheck]
    simp only [hbyte, if_true]
  simp only [Pipe.checkTail, htail, Engine.leftoverOk]
  repeat' split
  all_goals rfl

/-- One iteration of `unpack` (42_decoder.md R193 to R195, 10_state.md R45). -/
inductive Pipe.UnpackStep (inv : Inverse) (padEn : Bool) (pad : Byte) (p : Pipe) : Pipe → Prop
  /-- A symbol is folded. -/
  | symbol {x : Index} (hphase : p.eng.phase = .reading5BitSymbols) (hi : p.eng.i.toNat < p.eng.srcLen.toNat)
      (hx : inv.get p.sourceByte.toFin = some x) : p.UnpackStep inv padEn pad (p.foldSymbol x)
  /-- The first pad byte is met. -/
  | padMet (hphase : p.eng.phase = .reading5BitSymbols) (hi : p.eng.i.toNat < p.eng.srcLen.toNat)
      (hx : inv.get p.sourceByte.toFin = none) (hpad : (padEn && p.sourceByte == pad) = true) :
      p.UnpackStep inv padEn pad p.enterTail
  /-- A byte of the tail is the pad. -/
  | tailByte (hphase : p.eng.phase = .validatingPaddingTail) (hi : p.eng.i.toNat < p.eng.srcLen.toNat)
      (hpad : p.sourceByte = pad) : p.UnpackStep inv padEn pad { p with eng := { p.eng with i := p.eng.i + 1 } }
  /-- The end of the input is reached and every check passes. -/
  | finished (hphase : p.eng.phase ≠ .done) (hi : p.eng.srcLen.toNat ≤ p.eng.i.toNat)
      (hok : p.checkTail inv pad = .ok p) : p.UnpackStep inv padEn pad { p with eng := { p.eng with phase := .done } }

/-- With no pad met, the check of the leftover is the only one (R194). -/
theorem Pipe.checkTail_of_noPad {inv : Inverse} {pad : Byte} {p : Pipe} (hleft : p.eng.leftoverOk = true)
    (hat : p.eng.padAt = none) : p.checkTail inv pad = .ok p := by
  simp [Pipe.checkTail, hleft, hat]

/-- An iteration of DECODE's loop is one of these. -/
theorem State.advanceUnpack_step {s t : State} {e : Engine} (h : s.advanceUnpack e = some t) :
    ∃ q, (Pipe.mk e s.mem).UnpackStep s.decInv s.decPadEn s.decPad q ∧ t = s.withPipe q := by
  unfold State.advanceUnpack at h
  dsimp only at h
  split at h
  case h_1 hphase =>
    split at h
    case isTrue hmore =>
      have hi := of_decide_eq_true hmore
      split at h
      case h_1 x hx => exact ⟨_, .symbol hphase hi hx, (Option.some.inj h).symm⟩
      case h_2 hx =>
        split at h
        case isTrue hpad => exact ⟨_, .padMet hphase hi hx hpad, (Option.some.inj h).symm⟩
        case isFalse => exact nomatch h
    case isFalse hmore =>
      have hi := not_lt.1 (mt decide_eq_true hmore)
      split at h
      case isTrue hchecks =>
        obtain ⟨hleft, hat⟩ := Bool.and_eq_true_iff.1 hchecks
        exact ⟨_, .finished (by simp [hphase]) hi (Pipe.checkTail_of_noPad hleft (Option.isNone_iff_eq_none.1 hat)),
          (Option.some.inj h).symm⟩
      case isFalse => exact nomatch h
  case h_2 hphase =>
    split at h
    case isTrue hmore =>
      split at h
      case isTrue hpad => exact ⟨_, .tailByte hphase (of_decide_eq_true hmore) hpad, (Option.some.inj h).symm⟩
      case isFalse => exact nomatch h
    case isFalse hmore =>
      split at h
      case h_1 => exact nomatch h
      case h_2 q hq =>
        obtain rfl := Pipe.checkTail_ok hq
        exact ⟨_, .finished (by simp [hphase]) (not_lt.1 (mt decide_eq_true hmore)) hq, (Option.some.inj h).symm⟩
  case h_3 => exact nomatch h

section UnpackStep
variable {inv : Inverse} {padEn : Bool} {pad : Byte} {p q : Pipe}

/-- `unpack` from the reading phase on. -/
theorem Pipe.unpackRest_of_reading (hphase : p.eng.phase = .reading5BitSymbols) :
    p.unpackRest inv padEn pad
      = (p.readSymbols inv padEn pad (p.eng.srcLen.toNat - p.eng.i.toNat)).bind (Pipe.checkTail inv pad) := by
  unfold Pipe.unpackRest
  rw [hphase]
  dsimp only
  split <;> rename_i h <;> rw [h] <;> rfl

/-- `unpack` from the tail on. -/
theorem Pipe.unpackRest_of_tail (hphase : p.eng.phase = .validatingPaddingTail) :
    p.unpackRest inv padEn pad = p.checkTail inv pad := by
  unfold Pipe.unpackRest
  rw [hphase]

/-- An iteration leaves what `unpack` answers from there: the same error, or the same memory. -/
theorem Pipe.UnpackStep.unpackRest_mem (h : p.UnpackStep inv padEn pad q) :
    (q.unpackRest inv padEn pad).map Pipe.mem = (p.unpackRest inv padEn pad).map Pipe.mem := by
  cases h with
  | @symbol x hphase hi hx =>
    obtain ⟨-, -, hlen, -⟩ := (p.keeps_foldSymbol x).1
    obtain ⟨hnext, hphase'⟩ := p.foldSymbol_index_phase x
    rw [Pipe.unpackRest_of_reading (hphase'.trans hphase), Pipe.unpackRest_of_reading hphase, Word.remaining_succ hi, hnext, hlen,
      Pipe.readSymbols, hx]
  | padMet hphase hi hx hpad =>
    rw [Pipe.unpackRest_of_tail rfl, Pipe.unpackRest_of_reading hphase, Word.remaining_succ hi, Pipe.readSymbols, hx]
    simp only [hpad, if_true]
    rfl
  | tailByte hphase hi hpad =>
    rw [Pipe.unpackRest_of_tail hphase,
      Pipe.unpackRest_of_tail (p := { p with eng := { p.eng with i := p.eng.i + 1 } }) hphase]
    exact Pipe.checkTail_tailByte hi hpad
  | finished hphase hi hok =>
    have hp : p.unpackRest inv padEn pad = .ok p := by
      cases hph : p.eng.phase with
      | reading5BitSymbols =>
        rw [Pipe.unpackRest_of_reading hph, Nat.sub_eq_zero_of_le hi]
        exact hok
      | validatingPaddingTail => rw [Pipe.unpackRest_of_tail hph, hok]
      | done => exact absurd hph hphase
    rw [hp]
    rfl

theorem Pipe.UnpackStep.unpackRest_cases (h : p.UnpackStep inv padEn pad q) :
    (∃ k, p.unpackRest inv padEn pad = .error k ∧ q.unpackRest inv padEn pad = .error k)
      ∨ ∃ r r', p.unpackRest inv padEn pad = .ok r ∧ q.unpackRest inv padEn pad = .ok r' ∧ r'.mem = r.mem := by
  have hmem := h.unpackRest_mem
  cases hp : p.unpackRest inv padEn pad with
  | error k =>
    cases hq : q.unpackRest inv padEn pad with
    | error j =>
      rw [hp, hq] at hmem
      exact .inl ⟨k, rfl, congrArg _ (Except.error.inj hmem)⟩
    | ok r =>
      rw [hp, hq] at hmem
      exact nomatch hmem
  | ok r =>
    cases hq : q.unpackRest inv padEn pad with
    | error j =>
      rw [hp, hq] at hmem
      exact nomatch hmem
    | ok r' =>
      rw [hp, hq] at hmem
      exact .inr ⟨r, r', rfl, rfl, Except.ok.inj hmem⟩

/-- Where `unpack`, started as `p₀` with a canonical memory, may stand between two iterations. -/
structure Pipe.UnpackReach (limit : Nat) (p₀ p : Pipe) : Prop where
  confined : p₀.Confined p₀.eng.dstLen.toNat p
  wf : p.mem.wf = true
  unpacking : p.eng.phase = .reading5BitSymbols → Pipe.Unpacking limit p₀ p

theorem Pipe.UnpackReach.step {limit : Nat} {p₀ : Pipe} (hlim : p₀.SymbolLimit inv limit) (hbuf : p₀.eng.buffersOk)
    (hp : Pipe.UnpackReach limit p₀ p) (h : p.UnpackStep inv padEn pad q) : Pipe.UnpackReach limit p₀ q := by
  obtain ⟨hconf, hwf, hread⟩ := hp
  cases h with
  | @symbol x hphase hi hx =>
    obtain ⟨-, -, hlen, -⟩ := hconf.operands
    have hfold := (hread hphase).foldSymbol hlim hbuf (by rwa [hlen] at hi) hx
    exact ⟨hfold.confined, (p.keeps_foldSymbol x).2 hwf, fun _ => hfold⟩
  | padMet hphase hi hx hpad =>
    exact ⟨hconf.trans (.of_mem_eq ⟨rfl, rfl, rfl, rfl, rfl⟩ rfl), hwf, nofun⟩
  | tailByte hphase hi hpad =>
    exact ⟨hconf.trans (.of_mem_eq ⟨rfl, rfl, rfl, rfl, rfl⟩ rfl), hwf, fun h => nomatch hphase.symm.trans h⟩
  | finished hphase hi hok =>
    exact ⟨hconf.trans (.of_mem_eq ⟨rfl, rfl, rfl, rfl, rfl⟩ rfl), hwf, nofun⟩

end UnpackStep

/-! ### The checks of a command read its operands and its source -/

theorem Memory.trailingPads_congr {m q : Memory} {a : Word} (pad : Byte) :
    ∀ {n : Nat}, a.toNat + n ≤ 4294967296 → (∀ j < n, q.read (a.toNat + j) = m.read (a.toNat + j)) →
      q.trailingPads a pad n = m.trailingPads a pad n
  | 0, _, _ => rfl
  | n + 1, hfits, h => by
    have hn : (BitVec.ofNat 32 n).toNat = n := Nat.mod_eq_of_lt (by omega)
    have hread : q.read (a + BitVec.ofNat 32 n).toNat = m.read (a + BitVec.ofNat 32 n).toNat := by
      rw [Word.add_toNat_of_le _ _ (by omega), hn]
      exact h n (Nat.lt_succ_self n)
    rw [Memory.trailingPads, Memory.trailingPads, hread,
      Memory.trailingPads_congr pad (by omega) fun j hj => h j (Nat.lt_succ_of_lt hj)]

theorem Engine.regionsOk_of_sameOperands {e f : Engine} (h : f.sameOperands e) : f.regionsOk = e.regionsOk := by
  obtain ⟨-, hsa, hsl, hda, hdl⟩ := h
  simp only [Engine.regionsOk, Engine.source, Engine.destination, hsa, hsl, hda, hdl]

theorem State.encodeChecks_withPipe {s : State} {e : Engine} {q : Pipe} (hq : q.eng.sameOperands e) :
    (s.withPipe q).encodeChecks q.eng = s.encodeChecks e := by
  have hregions := Engine.regionsOk_of_sameOperands hq
  obtain ⟨-, -, hsl, -, hdl⟩ := hq
  rw [State.encodeChecks, State.encodeChecks, hregions, hsl, hdl]
  rfl

/-- Writes to the destination change nothing of what DECODE's checks answer. -/
theorem State.decodeChecks_withPipe {s : State} {e : Engine} {q : Pipe} (hbuf : e.buffersOk)
    (hq : (Pipe.mk e s.mem).Confined e.dstLen.toNat q) : (s.withPipe q).decodeChecks q.eng = s.decodeChecks e := by
  have ⟨hfits, _⟩ := hbuf
  have hpads : q.mem.trailingPads e.srcAddr s.decPad e.srcLen.toNat = s.mem.trailingPads e.srcAddr s.decPad e.srcLen.toNat :=
    Memory.trailingPads_congr s.decPad hfits fun j hj =>
      Pipe.Confined.read_source (p := ⟨e, s.mem⟩) hq hbuf hj
  have hregions := Engine.regionsOk_of_sameOperands hq.operands
  obtain ⟨-, hsa, hsl, -, hdl⟩ := hq.operands
  have hslice : (s.withPipe q).mem.decSlice q.eng.srcAddr q.eng.srcLen.toNat s.decPadEn s.decPad
      = s.mem.decSlice e.srcAddr e.srcLen.toNat s.decPadEn s.decPad := by
    rw [hsa, hsl, Memory.decSlice, Memory.decSlice, State.withPipe_mem, hpads]
  rw [State.decodeChecks, State.decodeChecks, State.withPipe_decPadEn, State.withPipe_decPad, hslice, hregions, hsl, hdl]
  rfl

theorem State.regionsOrdinary_withPipe {s : State} {e : Engine} {q : Pipe} (he : s.engine = some e)
    (hq : q.eng.sameOperands e) (i : Instr) : (s.withPipe q).regionsOrdinary i = s.regionsOrdinary i := by
  obtain ⟨hsrc, hdst⟩ := Engine.regions_of_sameOperands hq i
  simp only [State.regionsOrdinary, State.running_of_engine he, State.running_of_engine (s.withPipe_engine q),
    State.withPipe_platform, hsrc, hdst]

theorem State.withPipe_withPipe (p q : Pipe) (s : State) : (s.withPipe p).withPipe q = s.withPipe q := rfl

/-! ### ENCODE -/

theorem execEncode_of_ok {s : State} {e : Engine} {len : Nat} (he : s.engine = some e)
    (hord : s.regionsOrdinary .encode = true) (hlen : s.encodeChecks e = .ok len) :
    execEncode s = .next (State.complete (BitVec.ofNat 32 len)
      { s with mem := (Pipe.encodeRest s.encAlpha s.encPadEn s.encPad len ⟨e, s.mem⟩).mem }) := by
  simp [execEncode, hord, State.running_of_engine he, hlen]

/-- An iteration of ENCODE leaves its outcome. -/
theorem execEncode_of_advanceEncode {s t : State} {e : Engine} (he : s.engine = some e) (h : s.advanceEncode e = some t) :
    execEncode t = execEncode s := by
  unfold State.advanceEncode at h
  split at h
  · exact nomatch h
  · rename_i len hlen
    split at h
    case isFalse => exact nomatch h
    case isTrue hmore =>
      obtain rfl := Option.some.inj h
      obtain ⟨hord, hi⟩ := Bool.and_eq_true_iff.1 hmore
      have hops := ((Pipe.mk e s.mem).keeps_encodeByte s.encAlpha).1
      rw [execEncode_of_ok he hord hlen, execEncode_of_ok (State.withPipe_engine _ s)
        ((State.regionsOrdinary_withPipe he hops _).trans hord) ((State.encodeChecks_withPipe hops).trans hlen)]
      simp only [State.withPipe_encAlpha, State.withPipe_encPadEn, State.withPipe_encPad, State.withPipe_mem,
        Pipe.encodeRest_encodeByte (p := ⟨e, s.mem⟩) (of_decide_eq_true hi)]
      rfl

/-! ### DECODE -/

theorem execDecode_of_error {s : State} {e : Engine} {m : Nat} {k : Err} (he : s.engine = some e)
    (hord : s.regionsOrdinary .decode = true) (hm : s.decodeChecks e = .ok m)
    (hk : Pipe.unpackRest s.decInv s.decPadEn s.decPad ⟨e, s.mem⟩ = .error k) :
    execDecode s = .next ((s.scramble e.destination).raise k) := by
  simp [execDecode, hord, State.running_of_engine he, hm, hk]

theorem execDecode_of_ok {s : State} {e : Engine} {m : Nat} {r : Pipe} (he : s.engine = some e)
    (hord : s.regionsOrdinary .decode = true) (hm : s.decodeChecks e = .ok m)
    (hr : Pipe.unpackRest s.decInv s.decPadEn s.decPad ⟨e, s.mem⟩ = .ok r) :
    execDecode s = .next (State.complete (BitVec.ofNat 32 m) { s with mem := r.mem }) := by
  simp [execDecode, hord, State.running_of_engine he, hm, hr]

/-- Of a region made unspecified nothing shows what it held before. -/
theorem Memory.scramble_congr {m q : Memory} (hm : m.wf = true) (hq : q.wf = true) {a n : Nat}
    (hfits : a + n ≤ Config.addrSpace) (h : ∀ b, (b < a ∨ a + n ≤ b) → q.read b = m.read b) (k : Nat) : q.scramble a k n = m.scramble a k n := by
  refine Memory.ext_of_read (Memory.scramble_wf hq a k n hfits) (Memory.scramble_wf hm a k n hfits) fun b => ?_
  by_cases hb : b < a ∨ a + n ≤ b
  · rw [Memory.read_scramble_outside _ _ _ _ _ hb, Memory.read_scramble_outside _ _ _ _ _ hb, h b hb]
  · obtain ⟨j, rfl⟩ := Nat.exists_eq_add_of_le (not_lt.1 fun hlt => hb (.inl hlt))
    rw [Memory.read_scramble_inside hq a k n hfits j (by omega), Memory.read_scramble_inside hm a k n hfits j (by omega)]

/-- The end in an error keeps nothing of the engine's record. -/
theorem State.raise_scramble_withPipe (s : State) (p : Pipe) (r : Region) (k : Err) :
    ((s.withPipe p).scramble r).raise k
      = State.raise k { s.scramble r with mem := p.mem.scramble r.base s.drawn r.clippedLen } := by
  unfold State.raise
  split <;> rfl

section Decode
variable {s : State} {e : Engine} {limit : Nat}

/-- Wherever `unpack` stands, an error inside it ends the command in the same state (42_decoder.md R199). -/
theorem Pipe.UnpackReach.raise_eq {p : Pipe} (hs : s.mem.wf = true) (hbuf : e.buffersOk)
    (hp : Pipe.UnpackReach limit ⟨e, s.mem⟩ p) (k : Err) :
    ((s.withPipe p).scramble p.eng.destination).raise k
      = State.raise k { s.scramble e.destination with
          mem := s.mem.scramble e.destination.base s.drawn e.destination.clippedLen } := by
  obtain ⟨hconf, hwf, -⟩ := hp
  have hdst : p.eng.destination = e.destination := (Engine.regions_of_sameOperands hconf.operands .decode).2
  obtain ⟨-, hfits, -⟩ := hbuf
  have hclip : e.destination.clippedLen = e.dstLen.toNat :=
    Region.clippedLen_of_wellformed ((Region.wellformed_iff e.destination).2 hfits)
  rw [State.raise_scramble_withPipe, hdst, hclip,
    Memory.scramble_congr hs hwf (a := e.destination.base) (n := e.dstLen.toNat) hfits hconf.frame]

/-- An iteration of DECODE leaves its outcome, and `unpack` where it may stand. -/
theorem Pipe.UnpackReach.advanceDecode {p : Pipe} {t : State} (hs : s.mem.wf = true) (he : s.engine = some e)
    (hbuf : e.buffersOk) (hlim : (Pipe.mk e s.mem).SymbolLimit s.decInv limit)
    (hp : Pipe.UnpackReach limit ⟨e, s.mem⟩ p) (h : (s.withPipe p).advanceDecode p.eng = some t) :
    ∃ q, t = s.withPipe q ∧ Pipe.UnpackReach limit ⟨e, s.mem⟩ q ∧ execDecode t = execDecode (s.withPipe p) := by
  unfold State.advanceDecode at h
  split at h
  · exact nomatch h
  · rename_i m hm
    split at h
    case isFalse => exact nomatch h
    case isTrue hord =>
      obtain ⟨q, hstep, rfl⟩ := State.advanceUnpack_step h
      have hq := hp.step hlim hbuf hstep
      refine ⟨q, rfl, hq, ?_⟩
      rw [State.withPipe_withPipe]
      have hm' : (s.withPipe q).decodeChecks q.eng = .ok m := by
        rw [State.decodeChecks_withPipe hbuf hq.confined, ← State.decodeChecks_withPipe hbuf hp.confined, hm]
      have hord' : (s.withPipe q).regionsOrdinary .decode = true := by
        rw [State.regionsOrdinary_withPipe he hq.confined.operands,
          ← State.regionsOrdinary_withPipe he hp.confined.operands, hord]
      obtain ⟨k, hpk, hqk⟩ | ⟨r, r', hpr, hqr, hmem⟩ := hstep.unpackRest_cases
      · rw [execDecode_of_error (s.withPipe_engine p) hord hm hpk, execDecode_of_error (s.withPipe_engine q) hord' hm' hqk,
          hp.raise_eq hs hbuf, hq.raise_eq hs hbuf]
      · rw [execDecode_of_ok (s.withPipe_engine p) hord hm hpr, execDecode_of_ok (s.withPipe_engine q) hord' hm' hqr, hmem]
        rfl

end Decode

/-! ### Any number of iterations -/

/-- If an iteration leaves the outcome and an invariant, so does any number of them. -/
theorem exec_advances {i : Instr} {P : State → Prop}
    (hstep : ∀ {s t : State} {e : Engine}, P s → s.engine = some e → s.advance i e = some t → P t ∧ exec i t = exec i s) :
    ∀ (k : Nat) {s : State}, P s → exec i (State.advances i k s) = exec i s
  | 0, _, _ => rfl
  | k + 1, s, hs => by
    unfold State.advances
    split
    · rfl
    · rename_i e he
      split
      · rfl
      · rename_i t ht
        obtain ⟨hPt, hexec⟩ := hstep hs he ht
        rw [exec_advances hstep k hPt, hexec]

/-- Iterations of DECODE leave its outcome; where its checks fail there are none. -/
theorem execDecode_advances {s : State} {e : Engine} (hs : s.mem.wf = true) (hinv : s.decoderInv) (he : s.engine = some e)
    (hfresh : e.fresh) (k : Nat) : exec .decode (State.advances .decode k s) = exec .decode s := by
  have hself : s.withPipe ⟨e, s.mem⟩ = s := by simp [State.withPipe, ← he]
  cases hm : s.decodeChecks e with
  | error kind =>
    refine exec_advances (P := fun t => t = s) (fun {t u f} ht hf hu => ?_) k rfl
    subst ht
    obtain rfl := Option.some.inj (he.symm.trans hf)
    simp [State.advance, State.advanceDecode, hm] at hu
  | ok m =>
    obtain ⟨hbuf, limit, hlim⟩ := State.symbolLimit_of_decodeChecks hinv hm
    refine exec_advances (P := fun t => ∃ p, t = s.withPipe p ∧ Pipe.UnpackReach limit ⟨e, s.mem⟩ p)
      (fun {t u f} ht hf hu => ?_) k ⟨_, hself.symm, .refl _ _, hs, fun _ => Pipe.Unpacking.start hfresh limit⟩
    obtain ⟨p, rfl, hp⟩ := ht
    obtain rfl := Option.some.inj hf
    obtain ⟨q, hq, hreach, hexec⟩ := hp.advanceDecode hs he hbuf hlim hu
    exact ⟨⟨q, hq, hreach⟩, hexec⟩

/-- Settles O38: an iteration of ENCODE or DECODE leaves the outcome, and the other commands have none. -/
theorem iterationsMakeOneTransition : Obligations.IterationsMakeOneTransition := by
  intro i s e k hs hinv he hfresh
  cases i with
  | encode =>
    exact exec_advances (i := .encode) (P := fun _ => True)
      (fun _ hf hu => ⟨trivial, execEncode_of_advanceEncode hf hu⟩) k trivial
  | decode => exact execDecode_advances hs hinv he hfresh k
  | _ =>
    refine exec_advances (P := fun _ => True) (fun _ _ hu => ?_) k trivial
    exact nomatch hu

end Sys2Proof.Machine
end

section
/-! The command word (30_encoding.md R101 to R107): the decoder's two arms and the table's rows say the same of a word, so that
the word of an instruction, an illegal word and an ignored field are all judged by one equivalence, `decodeWord_eq_ok_iff`. -/
namespace Sys2Proof

/-! ### A row of the table, by its fields -/

/-- The OP value of a command (R102). -/
def Instr.opcode : Instr → BitVec 4
  | .encCfg _ _ => 1
  | .decCfg _ _ => 2
  | .encSize => 3
  | .encode => 4
  | .decSizeUb => 5
  | .decSizeSlice => 6
  | .decode => 7

theorem Instr.opcode_ne_zero (i : Instr) : i.opcode ≠ 0 := by cases i <;> simp [Instr.opcode]

theorem Instr.not_eight_le_opcode (i : Instr) : ¬8 ≤ i.opcode := by cases i <;> simp [Instr.opcode]

/-- The bits of a command's word that must be 0 (R101). -/
def Instr.reserved : Instr → Word
  | .encCfg _ _ => cfgReserved
  | .decCfg _ _ => cfgReserved
  | _ => 0xFFFFFFF0

/-- The operands of an instruction are those its word carries (R104); only the CFG commands have any. -/
def Instr.operandsIn (w : Word) : Instr → Prop
  | .encCfg padEn pad => padEn = padEnField w ∧ pad = cfgPad w
  | .decCfg padEn pad => padEn = padEnField w ∧ pad = cfgPad w
  | _ => True

theorem opField_and (w m : Word) : opField (w &&& m) = opField w &&& opField m := BitVec.extractLsb'_and

theorem fifteen_getLsbD (j : Nat) : (0xF : Word).getLsbD j = decide (j < 4) := by
  have h : (0xF : Word) = (BitVec.allOnes 4).setWidth 32 := rfl
  rw [h, BitVec.getLsbD_setWidth, BitVec.getLsbD_allOnes]
  grind

/-- A word matches OP and a mask of reserved bits exactly when its OP is that one and its reserved bits are 0. -/
theorem and_mask_eq_opcode_iff {r : Word} (hr : r &&& 0xF = 0) (w : Word) (op : BitVec 4) :
    w &&& (r ||| 0xF) = op.setWidth 32 ↔ opField w = op ∧ w &&& r = 0 := by
  rw [opField, Machine.extractLsb'_eq_iff]
  simp only [BitVec.eq_of_getLsbD_eq_iff, BitVec.getLsbD_and, BitVec.getLsbD_or, fifteen_getLsbD,
    BitVec.getLsbD_setWidth] at hr ⊢
  grind

theorem Instr.reserved_and_fifteen (i : Instr) : i.reserved &&& 0xF = 0 := by
  cases i <;> simp [Instr.reserved, cfgReserved]

theorem Instr.tableRow_match (i : Instr) : (Laws.tableRow i).1 = i.opcode.setWidth 32 := by
  cases i <;> rfl

theorem Instr.tableRow_mask (i : Instr) : (Laws.tableRow i).2 = i.reserved ||| 0xF := by
  have hcfg : (0xFF00FEFF : Word) = cfgReserved ||| 0xF := rfl
  cases i with
  | encCfg | decCfg => exact hcfg
  | _ => rfl

/-- A word lies in the row of a command (R103) exactly when its OP is the command's and its reserved bits are 0 (R101, R102). -/
theorem Instr.inRow_iff (i : Instr) (w : Word) :
    w &&& (Laws.tableRow i).2 = (Laws.tableRow i).1 ↔ opField w = i.opcode ∧ w &&& i.reserved = 0 := by
  rw [i.tableRow_match, i.tableRow_mask]
  exact and_mask_eq_opcode_iff i.reserved_and_fifteen w i.opcode

/-! ### What the decoder answers -/

theorem decodeCfg_eq_ok_iff {op : Bool → Byte → Instr} {w : Word} {i : Instr} :
    decodeCfg op w = .ok i ↔ w &&& cfgReserved = 0 ∧ op (padEnField w) (cfgPad w) = i := by
  unfold decodeCfg
  split_ifs with h <;> simp_all

/-- The test on `w[31:4]` is one on reserved bits too. -/
theorem extractLsb'_four_eq_zero_iff (w : Word) : w.extractLsb' 4 28 = 0 ↔ w &&& 0xFFFFFFF0 = 0 := by
  have hmask : (0xFFFFFFF0 : Word) = ~~~0xF := rfl
  rw [Machine.extractLsb'_eq_iff, BitVec.eq_of_getLsbD_eq_iff, hmask]
  simp only [BitVec.getLsbD_and, BitVec.getLsbD_not, fifteen_getLsbD]
  constructor
  · intro h j hj
    by_cases hlow : j < 4
    · simp [hlow]
    · have := h (j - 4) (by omega)
      grind
  · intro h j hj
    have := h (4 + j) (by omega)
    grind

theorem decodePlain_eq_ok_iff {j : Instr} {w : Word} {i : Instr} :
    decodePlain j w = .ok i ↔ w &&& 0xFFFFFFF0 = 0 ∧ j = i := by
  unfold decodePlain
  rw [← extractLsb'_four_eq_zero_iff]
  split_ifs with h <;> simp_all

/-- The decoder answers a command exactly for the words of its row, with the operands they carry (R103, R104, R107). -/
theorem decodeWord_eq_ok_iff (w : Word) (i : Instr) :
    decodeWord w = .ok i ↔ w &&& (Laws.tableRow i).2 = (Laws.tableRow i).1 ∧ i.operandsIn w := by
  rw [i.inRow_iff]
  constructor
  · intro h
    unfold decodeWord at h
    split at h
    case h_1 hop | h_2 hop =>
      obtain ⟨hres, rfl⟩ := decodeCfg_eq_ok_iff.1 h
      exact ⟨⟨BitVec.eq_of_toNat_eq hop, hres⟩, rfl, rfl⟩
    case h_8 => exact nomatch h
    all_goals
      rename_i hop
      obtain ⟨hres, rfl⟩ := decodePlain_eq_ok_iff.1 h
      exact ⟨⟨BitVec.eq_of_toNat_eq hop, hres⟩, trivial⟩
  · rintro ⟨⟨hop, hres⟩, hargs⟩
    unfold decodeWord
    rw [hop]
    cases i with
    | encCfg padEn pad | decCfg padEn pad =>
      obtain ⟨rfl, rfl⟩ := hargs
      exact decodeCfg_eq_ok_iff.2 ⟨hres, rfl⟩
    | _ => exact decodePlain_eq_ok_iff.2 ⟨hres, rfl⟩

theorem opField_of_decodeWord {w : Word} {i : Instr} (h : decodeWord w = .ok i) : opField w = i.opcode :=
  ((i.inRow_iff w).1 ((decodeWord_eq_ok_iff w i).1 h).1).1

theorem decodeWord_of_opField_one {w : Word} (h : opField w = 1) : decodeWord w = decodeCfg .encCfg w := by
  simp [decodeWord, h]

theorem decodeWord_of_opField_two {w : Word} (h : opField w = 2) : decodeWord w = decodeCfg .decCfg w := by
  simp [decodeWord, h]

theorem cfgPad_of_not_padEn {w : Word} (h : padEnField w = false) : cfgPad w = 0 := by
  simp [cfgPad, h]

/-- A CFG word is judged by its reserved bits, PAD_EN and the pad it carries. -/
theorem decodeCfg_congr {v w : Word} (hres : v &&& cfgReserved = w &&& cfgReserved) (hen : padEnField v = padEnField w)
    (hpad : cfgPad v = cfgPad w) (op : Bool → Byte → Instr) : decodeCfg op v = decodeCfg op w := by
  rw [decodeCfg, decodeCfg, hres, hen, hpad]

/-! ### The word of an instruction -/

theorem Instr.wordInRow (i : Instr) : Laws.WordInRow.Statement i := by
  cases i with
  | encCfg padEn pad => exact Laws.WordInRow.encCfg padEn pad
  | decCfg padEn pad => exact Laws.WordInRow.decCfg padEn pad
  | encSize => exact Laws.WordInRow.encSize
  | encode => exact Laws.WordInRow.encode
  | decSizeUb => exact Laws.WordInRow.decSizeUb
  | decSizeSlice => exact Laws.WordInRow.decSizeSlice
  | decode => exact Laws.WordInRow.decode

/-- PAD_EN is read back from where it was put. -/
theorem padEnField_encodeCfg {op : Word} (hop : padEnField op = false) (padEn : Bool) (pad : Byte) :
    padEnField (encodeCfg op padEn pad) = padEn := by
  have hput : (pad.setWidth 32 <<< 16 : Word).getLsbD 8 = false := by simp
  have hen : (if padEn then 0x100 else 0 : Word).getLsbD 8 = padEn := by cases padEn <;> rfl
  simp only [padEnField, encodeCfg, BitVec.getLsbD_or, hput, hen] at hop ⊢
  rw [hop, Bool.false_or, Bool.or_false]

theorem padField_or (v w : Word) : padField (v ||| w) = padField v ||| padField w := BitVec.extractLsb'_or

/-- So is PAD. -/
theorem padField_encodeCfg {op : Word} (hop : padField op = 0) (padEn : Bool) (pad : Byte) :
    padField (encodeCfg op padEn pad) = pad := by
  have hput : padField (pad.setWidth 32 <<< 16) = pad := by
    refine (Machine.extractLsb'_eq_iff _ _).2 fun j _ => ?_
    rw [Machine.field_getLsbD pad (by omega)]
    simp
  have hen : padField (if padEn then 0x100 else 0) = 0 := by cases padEn <;> rfl
  rw [encodeCfg, padField_or, padField_or, hput, hen, hop]
  exact BitVec.or_zero.trans BitVec.or_zero

/-- The pad a CFG word carries is the one it was made from, where that is in the decoder's form. -/
theorem cfgPad_encodeCfg {op : Word} (hen : padEnField op = false) (hpad : padField op = 0) {padEn : Bool} {pad : Byte}
    (hwf : (padEn || pad == 0) = true) : cfgPad (encodeCfg op padEn pad) = pad := by
  rw [cfgPad, padEnField_encodeCfg hen, padField_encodeCfg hpad]
  cases padEn with
  | false => exact (beq_iff_eq.1 hwf).symm
  | true => rfl

theorem Instr.operandsIn_encodeInstr {i : Instr} (hwf : i.wellFormed = true) : i.operandsIn (encodeInstr i) := by
  cases i with
  | encCfg padEn pad | decCfg padEn pad =>
    exact ⟨(padEnField_encodeCfg rfl padEn pad).symm, (cfgPad_encodeCfg rfl rfl hwf).symm⟩
  | _ => trivial

/-- A whole word keeps all its bits in the table's numbering. -/
theorem tableWord_toNat (w : Word) : tableWord 32 w.toNat = w := by
  rw [tableWord, Nat.mod_eq_of_lt w.isLt, BitVec.ofNat_toNat, BitVec.setWidth_eq]

/-- Settles O4: the word of an instruction lies in its row and carries its operands. -/
theorem decodeOfEncode : Obligations.DecodeOfEncode := fun i hwf =>
  (decodeWord_eq_ok_iff _ i).2 ⟨i.wordInRow, Instr.operandsIn_encodeInstr hwf⟩

/-- Settles O5: each row is the equivalence at its command; a CFG command's operands are the word's by definition. -/
theorem decodeMatchesTheTable : Obligations.DecodeMatchesTheTable := by
  intro w
  have hcfg (i : Instr) (hi : i.operandsIn w) :
      w &&& (Laws.tableRow i).2 = (Laws.tableRow i).1 ↔ decodeWord w = .ok i := by
    rw [decodeWord_eq_ok_iff, and_iff_left hi]
  exact ⟨hcfg (.encCfg _ _) ⟨rfl, rfl⟩, hcfg (.decCfg _ _) ⟨rfl, rfl⟩, hcfg .encSize trivial, hcfg .encode trivial,
    hcfg .decSizeUb trivial, hcfg .decSizeSlice trivial, hcfg .decode trivial⟩

/-- Settles O7: the bits compared hold OP, PAD_EN and the reserved bits, and with PAD_EN = 0 the pad is 0x00. -/
theorem padFieldIgnoredWithoutPadEn : Obligations.PadFieldIgnoredWithoutPadEn := by
  intro v w hcfg hen hvw
  have hop : opField v = opField w := by
    have h := congrArg opField hvw
    rwa [opField_and, opField_and, show opField 0xFF00FFFF = BitVec.allOnes 4 from rfl, BitVec.and_allOnes,
      BitVec.and_allOnes] at h
  have henw : padEnField v = padEnField w := by simpa [padEnField] using congrArg padEnField hvw
  have hres : v &&& cfgReserved = w &&& cfgReserved := by
    have h := congrArg (· &&& cfgReserved) hvw
    simpa [BitVec.and_assoc, cfgReserved] using h
  have hpad : cfgPad v = cfgPad w := by
    rw [cfgPad_of_not_padEn hen, cfgPad_of_not_padEn (henw.symm.trans hen)]
  obtain h | h : opField v = 1 ∨ opField v = 2 := hcfg
  · rw [decodeWord_of_opField_one h, decodeWord_of_opField_one (hop ▸ h), decodeCfg_congr hres henw hpad]
  · rw [decodeWord_of_opField_two h, decodeWord_of_opField_two (hop ▸ h), decodeCfg_congr hres henw hpad]

/-- Settles O3: the decoder is evaluated on each word. -/
theorem wordsOfTheTableDecode : Obligations.WordsOfTheTableDecode := by
  unfold Obligations.WordsOfTheTableDecode
  decide

end Sys2Proof
end

section
/-! The engine's turn (30_encoding.md R105, R107, R109): what runs when a command is in progress, by whether its word is legal. -/
namespace Sys2Proof.Machine

/-- With a legal word latched the engine's turn is its command. -/
theorem State.completeTurn_of_ok {s : State} {e : Engine} {i : Instr} (he : s.engine = some e) (hi : decodeWord e.cmd = .ok i) :
    s.completeTurn = exec i s := by
  simp [State.completeTurn, State.fetch, State.runWord, he, hi]

/-- With an illegal one it is the fault ILLEGAL_COMMAND (R105). -/
theorem State.completeTurn_of_error {s : State} {e : Engine} {r : Illegal} (he : s.engine = some e)
    (hr : decodeWord e.cmd = .error r) : s.completeTurn = .next (s.raise .illegalCommand) := by
  simp [State.completeTurn, State.fetch, State.runWord, he, hr]

/-- Where no iteration is left, `advance` completes the command (10_state.md R44, log 5). -/
theorem State.advanceTurn_of_none {s : State} {e : Engine} {i : Instr} (he : s.engine = some e) (hi : decodeWord e.cmd = .ok i)
    (hnone : s.advance i e = none) : s.advanceTurn = s.completeTurn := by
  simp [State.advanceTurn, he, Engine.instr?, hi, Except.toOption, hnone]

theorem step_of_nil {s : State} (hin : s.inputs = []) : step s = s.completeTurn := by
  rw [step, hin]

theorem step_of_poll {s : State} {k : Nat} {rest : List Input} (hin : s.inputs = .poll k :: rest) :
    step s = s.pollTurn k rest := by
  rw [step, hin]
  rfl

theorem step_of_complete {s : State} {rest : List Input} (hin : s.inputs = .complete :: rest) :
    step s = State.completeTurn { s with inputs := rest } := by
  rw [step, hin]
  rfl

theorem step_of_advance {s : State} {rest : List Input} (hin : s.inputs = .advance :: rest) :
    step s = State.advanceTurn { s with inputs := rest } := by
  rw [step, hin]
  rfl

/-! ### `poll` -/

/-- The value a read of STATUS returns, out of reset, shows BUSY in bit 0 (10_state.md R35). -/
theorem State.readReg_status_bit {s : State} (hrst : s.inReset = false) : (s.readReg .status).getLsbD 0 = s.busy := by
  obtain ⟨hbusy, -⟩ := s.statusWord_fields
  simpa [State.readReg, hrst] using hbusy

theorem State.pollTurn_of_idle {s : State} (he : s.engine = none) (k : Nat) (rest : List Input) :
    s.pollTurn k rest = .next (State.see (.reg .status (s.readReg .status)) { s with inputs := rest }) := by
  simp [State.pollTurn, State.busy, he]

theorem State.pollTurn_zero {s : State} (hrst : s.inReset = false) (he : s.engine ≠ none) (rest : List Input) :
    s.pollTurn 0 rest = s.completeTurn := by
  simp [State.pollTurn, State.busy, Option.isSome_iff_ne_none, he, hrst]

theorem State.pollTurn_succ {s : State} (hrst : s.inReset = false) (he : s.engine ≠ none) (k : Nat) (rest : List Input) :
    s.pollTurn (k + 1) rest
      = .next (State.see (.reg .status (s.readReg .status)) { s with inputs := .poll k :: rest }) := by
  simp [State.pollTurn, State.busy, Option.isSome_iff_ne_none, he, hrst]

/-- The engine's turn ends the command in progress, and takes nothing off the list. -/
theorem State.completeTurn_idle {s t : State} (h : s.completeTurn = .next t) : t.engine = none ∧ t.inputs = s.inputs := by
  obtain ⟨he, rfl⟩ | ⟨e, -, ⟨r, -, rfl⟩ | ⟨i, -, ht⟩⟩ := State.completeTurn_cases h
  · exact ⟨he, rfl⟩
  · simp
  · obtain ⟨-, -, -, -, -, -, -, hin, -⟩ := frameOfEveryCommand i s t ht
    exact ⟨(exec_ends ht).idle.1, hin⟩

/-! ### The statements -/

/-- Settles O6: a word that decodes has one of the seven OP values and lies in a row. -/
theorem illegalWordsFault : Obligations.IllegalWordsFault := by
  intro s e he hin hill
  cases hdec : decodeWord e.cmd with
  | error r =>
    rw [step_of_nil hin, State.completeTurn_of_error he hdec]
    rfl
  | ok i =>
    exfalso
    have hop : e.cmd.extractLsb' 0 4 = i.opcode := opField_of_decodeWord hdec
    obtain ⟨hrow, -⟩ := (decodeWord_eq_ok_iff _ _).1 hdec
    have hplain (k : Word) (h : e.cmd &&& 0xFFFFFFFF = k) : e.cmd = k := BitVec.and_allOnes.symm.trans h
    rw [hop] at hill
    obtain hzero | hlarge | ⟨h1, h2, h3, h4, h5, h6, h7⟩ := hill
    · exact i.opcode_ne_zero hzero
    · exact i.not_eight_le_opcode hlarge
    · cases i with
      | encCfg => exact h1 hrow
      | decCfg => exact h2 hrow
      | encSize => exact h3 (hplain _ hrow)
      | encode => exact h4 (hplain _ hrow)
      | decSizeUb => exact h5 (hplain _ hrow)
      | decSizeSlice => exact h6 (hplain _ hrow)
      | decode => exact h7 (hplain _ hrow)

/-- Settles O1: each of the engine's turns comes to the completion of the command in progress. -/
theorem stepRunsTheLatchedCommand : Obligations.StepRunsTheLatchedCommand := by
  intro s e i he hi
  have hrun (ins : List Input) : State.completeTurn { s with inputs := ins } = exec i { s with inputs := ins } :=
    State.completeTurn_of_ok he hi
  refine ⟨fun hin => ?_, fun rest hin => ?_, fun rest hin hrst => ?_, fun rest hin hnone => ?_⟩
  · rw [step_of_nil hin, State.completeTurn_of_ok he hi]
  · rw [step_of_complete hin, hrun]
  · rw [step_of_poll hin, State.pollTurn_zero hrst (by simp [he]), State.completeTurn_of_ok he hi]
  · rw [step_of_advance hin, State.advanceTurn_of_none (s := { s with inputs := rest }) he hi hnone, hrun]

/-- Settles O2: the placed word is the instruction's own, and the machine faces `complete` with it latched. -/
theorem placedWordRunsNext : Obligations.PlacedWordRunsNext := by
  intro s i hwf
  have hword := tableWord_toNat (encodeInstr i)
  have hdec := decodeOfEncode i hwf
  refine ⟨by simp [decodeTableWord, hword, hdec, Except.toOption], ?_⟩
  rw [State.withFetchWord, hword]
  obtain ⟨-, hcomplete, -, -⟩ := stepRunsTheLatchedCommand (s.issuedNext (encodeInstr i)) _ i rfl hdec
  exact hcomplete s.inputs rfl

/-- A whole word keeps all its bits in the table's numbering. -/
theorem tableWord_toNat (w : Word) : tableWord 32 w.toNat = w := by
  rw [tableWord, Nat.mod_eq_of_lt w.isLt, BitVec.ofNat_toNat, BitVec.setWidth_eq]

/-- Settles O46: the read records STATUS, whose bit 0 is BUSY; with no busy read left the engine completes. -/
theorem pollReadsUntilIdle : Obligations.PollReadsUntilIdle := by
  intro s k rest hrst
  refine ⟨fun hin he => ⟨s.readReg .status, ?_, ?_⟩, fun hin he => ⟨s.readReg .status, ?_, ?_⟩, fun t hin he ht => ?_⟩
  · rw [State.readReg_status_bit hrst, s.not_busy_iff, he]
  · rw [step_of_poll hin, State.pollTurn_of_idle he]
    rfl
  · rw [State.readReg_status_bit hrst, State.busy, Option.isSome_iff_ne_none]
    exact he
  · rw [step_of_poll hin, State.pollTurn_succ hrst he]
    rfl
  · rw [step_of_poll hin, State.pollTurn_zero hrst he] at ht
    exact State.completeTurn_idle ht

end Sys2Proof.Machine
end

section
/-! The configuration commands (40_configuration.md R130 to R134): what their two checks say of the operands and the bytes read,
and how both commands end on an ordinary source region. -/
namespace Sys2Proof.Machine

/-! ### What the checks say -/

/-- The first check fails at another length than 32 or when the region wraps. -/
theorem Engine.not_cfgContractOk_iff (e : Engine) :
    e.cfgContractOk = false ↔ e.srcLen ≠ 32 ∨ 4294967296 < e.srcAddr.toNat + 32 := by
  rw [← Bool.not_eq_true, e.cfgContractOk_iff, not_and_or, not_le]

/-- A region that does not wrap is read in address order (R131). -/
theorem Memory.alphabet_eq {m : Memory} {a : Word} {A : Alphabet} (hfit : a.toNat + 32 ≤ 4294967296)
    (hA : ∀ k : Fin 32, A.get k = m.read (a.toNat + k.val)) : m.alphabet a = A := by
  refine Vector.ext fun k hk => ?_
  have hoff : (BitVec.ofNat 32 k).toNat = k := by simp; omega
  calc (m.alphabet a)[k]
    _ = m.read (a + BitVec.ofNat 32 k).toNat := m.alphabet_get a ⟨k, hk⟩
    _ = m.read (a.toNat + k) := by rw [Word.add_toNat_of_le a _ (by omega), hoff]
    _ = A[k] := (hA ⟨k, hk⟩).symm

/-- An alphabet's list holds its entries in index order. -/
theorem Alphabet.toList_eq_ofFn (A : Alphabet) : A.toList = List.ofFn A.get := by
  refine List.ext_getElem (by rw [Vector.length_toList, List.length_ofFn]) fun k _ _ => ?_
  rw [List.getElem_ofFn, Vector.get_eq_getElem, Vector.getElem_toList]

/-- The second check (R130), of the pad a CFG command loads (R104). -/
theorem alphabetOk_padOperand_iff (A : Alphabet) (padEn : Bool) (pad : Byte) :
    alphabetOk A padEn (padOperand padEn pad) = true ↔
      (∀ j k : Fin 32, A.get j = A.get k → j = k) ∧ (padEn = true → ∀ k : Fin 32, A.get k ≠ pad) := by
  rw [alphabetOk_iff, Alphabet.toList_eq_ofFn, List.nodup_ofFn]
  have hpad : padEn = true → padOperand padEn pad = pad := fun h => by rw [h]; rfl
  refine and_congr ⟨fun h j k => @h j k, fun h j k => h j k⟩ (forall_congr' fun h => ?_)
  rw [hpad h, List.mem_ofFn, not_exists]

/-! ### How a CFG command ends -/

/-- How a CFG command on ordinary memory ends (R133, R134): `load` is what it does with an accepted alphabet and pad, `clear`
how it leaves its unit after a failed construction. -/
def State.configure (load : Alphabet → Bool → Byte → State → State) (clear : State → State) (padEn : Bool) (pad : Byte)
    (s : State) : State :=
  if !s.running.cfgContractOk then s.raise .contract
  else if !alphabetOk (s.mem.alphabet s.running.srcAddr) padEn (padOperand padEn pad) then (clear s).raise .configInvalid
  else (load (s.mem.alphabet s.running.srcAddr) padEn (padOperand padEn pad) s).complete 0

section
variable {s : State} {e : Engine} (he : s.engine = some e)
include he

/-- ENC_CFG (R133): the alphabet's region is all the memory it touches (20_memory.md R71, R77). -/
theorem exec_encCfg (hord : s.platform.ordinaryOn e.alphabetRegion) (padEn : Bool) (pad : Byte) :
    exec (.encCfg padEn pad) s = .next (s.configure State.setEncoder State.clearEncoder padEn pad) := by
  have hreg := (State.regionsOrdinary_iff he (.encCfg padEn pad)).2 ⟨hord, s.platform.ordinaryOn_empty⟩
  simp [exec, execEncCfg, State.configure, hreg, apply_ite Host.Outcome.next]

/-- DEC_CFG (R134), likewise. -/
theorem exec_decCfg (hord : s.platform.ordinaryOn e.alphabetRegion) (padEn : Bool) (pad : Byte) :
    exec (.decCfg padEn pad) s = .next (s.configure State.setDecoder State.clearDecoder padEn pad) := by
  have hreg := (State.regionsOrdinary_iff he (.decCfg padEn pad)).2 ⟨hord, s.platform.ordinaryOn_empty⟩
  simp [exec, execDecCfg, State.configure, hreg, apply_ite Host.Outcome.next]

variable {load : Alphabet → Bool → Byte → State → State} {clear : State → State} {padEn : Bool} {pad : Byte}

/-- The first check fails: CONTRACT, whatever the unit. -/
theorem State.configure_of_contract (h : e.srcLen ≠ 32 ∨ 4294967296 < e.srcAddr.toNat + 32) :
    s.configure load clear padEn pad = s.raise .contract := by
  simp [State.configure, State.running_of_engine he, e.not_cfgContractOk_iff.2 h]

variable {A : Alphabet} (hlen : e.srcLen = 32) (hfit : e.srcAddr.toNat + 32 ≤ 4294967296)
  (hA : ∀ k : Fin 32, A.get k = s.mem.read (e.srcAddr.toNat + k.val))
include hlen hfit hA

/-- Both checks pass: the unit is loaded. -/
theorem State.configure_of_alphabet
    (h : (∀ j k : Fin 32, A.get j = A.get k → j = k) ∧ (padEn = true → ∀ k : Fin 32, A.get k ≠ pad)) :
    s.configure load clear padEn pad = (load A padEn (padOperand padEn pad) s).complete 0 := by
  simp [State.configure, State.running_of_engine he, e.cfgContractOk_iff.2 ⟨hlen, hfit⟩, Memory.alphabet_eq hfit hA,
    (alphabetOk_padOperand_iff A padEn pad).2 h]

/-- Only the second check fails: CONFIG_INVALID, with the unit cleared. -/
theorem State.configure_of_not_alphabet
    (h : ¬((∀ j k : Fin 32, A.get j = A.get k → j = k) ∧ (padEn = true → ∀ k : Fin 32, A.get k ≠ pad))) :
    s.configure load clear padEn pad = (clear s).raise .configInvalid := by
  have hbad := Bool.eq_false_iff.2 (mt (alphabetOk_padOperand_iff A padEn pad).1 h)
  simp [State.configure, State.running_of_engine he, e.cfgContractOk_iff.2 ⟨hlen, hfit⟩, Memory.alphabet_eq hfit hA, hbad]

end

/-! ### The statements -/

/-- Settles O10: the three facts of the inverse table. -/
theorem inverseTableOfAnAlphabet : Obligations.InverseTableOfAnAlphabet := by
  intro A hinj
  have hA : Function.Injective A.get := fun j k => hinj j k
  exact ⟨inverse_get_eq_some_iff hA, inverse_get_eq_none_iff hA, inverse_countP_isNone hA⟩

/-- Settles O8, by the three ends of a CFG command. -/
theorem encCfgBuildsTheForwardTable : Obligations.EncCfgBuildsTheForwardTable := by
  intro s e padEn pad he hord
  rw [exec_encCfg he hord]
  refine ⟨fun hbad => ?_, fun hlen hfit A hA => ⟨fun hok => ?_, fun hno => ⟨freeAlphabet s.drawn, s.drawn + 32, ?_⟩⟩⟩
  · rw [State.configure_of_contract he hbad]
    rfl
  · rw [State.configure_of_alphabet he hlen hfit hA hok]
    rfl
  · rw [State.configure_of_not_alphabet he hlen hfit hA hno]
    rfl

/-- Settles O9: as O8, with the inverse table of O10. -/
theorem decCfgBuildsTheInverseTable : Obligations.DecCfgBuildsTheInverseTable := by
  intro s e padEn pad he hord
  rw [exec_decCfg he hord]
  refine ⟨fun hbad => ?_, fun hlen hfit A hA => ⟨fun hok => ⟨inverse A, ?_, ?_⟩,
    fun hno => ⟨freeInverse s.drawn, s.drawn + 256, ?_⟩⟩⟩
  · rw [State.configure_of_contract he hbad]
    rfl
  · exact (inverseTableOfAnAlphabet A hok.1).1
  · rw [State.configure_of_alphabet he hlen hfit hA hok]
    rfl
  · rw [State.configure_of_not_alphabet he hlen hfit hA hno]
    rfl

end Sys2Proof.Machine
end

section
/-! ENC_SIZE and the encoder's lengths (41_encoder.md R160, R161, R165). -/
namespace Sys2Proof.Machine

/-! ### The lengths -/

theorem encSize_padded (n : Nat) : encSize n true = (n + 4) / 5 * 8 := rfl

theorem encSize_unpadded (n : Nat) : encSize n false = (n * 8 + 4) / 5 := rfl

/-- How many symbols the pipeline emits (R167): it is the unpadded size. -/
@[simp] theorem symbolsOf_length (A : Alphabet) (bytes : List Byte) :
    (symbolsOf A bytes).length = encSize bytes.length false := by
  rw [symbolsOf, List.length_map, List.length_range, encSize_unpadded, Nat.mul_comm]

/-- The pad fill up to a full block is the pad fill up to the padded size (R164). -/
theorem padFill_length (n : Nat) : (8 - encSize n false % 8) % 8 = encSize n true - encSize n false := by
  rw [encSize_padded, encSize_unpadded]
  omega

theorem encSize_false_le_true (n : Nat) : encSize n false ≤ encSize n true := by
  rw [encSize_padded, encSize_unpadded]
  omega

theorem encodingOf_unpadded (A : Alphabet) (pad : Byte) (bytes : List Byte) :
    encodingOf A false pad bytes = symbolsOf A bytes := rfl

theorem encodingOf_padded (A : Alphabet) (pad : Byte) (bytes : List Byte) :
    encodingOf A true pad bytes
      = symbolsOf A bytes ++ List.replicate (encSize bytes.length true - encSize bytes.length false) pad := by
  rw [← padFill_length, ← symbolsOf_length A]
  rfl

@[simp] theorem encodingOf_length (A : Alphabet) (padEn : Bool) (pad : Byte) (bytes : List Byte) :
    (encodingOf A padEn pad bytes).length = encSize bytes.length padEn := by
  cases padEn with
  | false => rw [encodingOf_unpadded, symbolsOf_length]
  | true =>
    rw [encodingOf_padded, List.length_append, symbolsOf_length, List.length_replicate,
      Nat.add_sub_cancel' (encSize_false_le_true _)]

/-- Both sizes, by the number of whole 5-byte blocks and the bytes after them (R161). -/
theorem encSize_blocks (q r : Nat) (padEn : Bool) : encSize (5 * q + r) padEn = 8 * q + encSize r padEn := by
  cases padEn <;> simp only [encSize_padded, encSize_unpadded] <;> omega

/-- The sizes of a part block, row by row of R161. -/
theorem encSize_partBlock {r symbols pads : Nat}
    (h : (r, symbols, pads) ∈ [(0, 0, 0), (1, 2, 6), (2, 4, 4), (3, 5, 3), (4, 7, 1)]) :
    encSize r false = symbols ∧ encSize r true = symbols + pads := by
  simp only [List.mem_cons, Prod.mk.injEq, List.not_mem_nil, or_false] at h
  obtain ⟨rfl, rfl, rfl⟩ | ⟨rfl, rfl, rfl⟩ | ⟨rfl, rfl, rfl⟩ | ⟨rfl, rfl, rfl⟩ | ⟨rfl, rfl, rfl⟩ := h <;> decide

/-- Settles O16: the sizes of `5q + r` bytes are those of `q` blocks and of `r` bytes, and the pads fill up the difference. -/
theorem encodingLengthsByRemainder : Obligations.EncodingLengthsByRemainder := by
  intro A pad bytes q r symbols pads hlen hrow
  obtain ⟨hsymbols, hpads⟩ := encSize_partBlock hrow
  have hunpadded : encSize bytes.length false = 8 * q + symbols := by rw [hlen, encSize_blocks, hsymbols]
  have hpadded : encSize bytes.length true = 8 * q + symbols + pads := by rw [hlen, encSize_blocks, hpads, Nat.add_assoc]
  refine ⟨by rw [symbolsOf_length, hunpadded], encodingOf_unpadded A pad bytes, ?_, hunpadded, hpadded⟩
  rw [encodingOf_padded, hunpadded, hpadded, Nat.add_sub_cancel_left]

/-! ### ENC_SIZE -/

/-- The lengths whose encoded size a register holds (R165). -/
theorem encSize_le_maxLen_iff (n : Nat) (padEn : Bool) :
    encSize n padEn ≤ Config.maxLen ↔ n ≤ if padEn then 2684354555 else 2684354559 := by
  cases padEn <;> simp only [encSize_padded, encSize_unpadded, Config.maxLen, Bool.false_eq_true, if_true, if_false] <;> omega

theorem maxLen_lt_encSize_iff (n : Nat) (padEn : Bool) :
    Config.maxLen < encSize n padEn ↔ (if padEn then 2684354555 else 2684354559) < n := by
  rw [← not_le, encSize_le_maxLen_iff, not_le]

theorem exec_encSize_of_unconfigured {s : State} (hv : s.encValid = false) :
    exec .encSize s = .next (s.raise .notConfigured) := by
  simp [exec, execEncSize, hv]

section
variable {s : State} {e : Engine} (he : s.engine = some e) (hv : s.encValid = true) {padEn : Bool} (hpe : s.encPadEn = padEn)
include he hv hpe

theorem exec_encSize_of_overflow (hn : Config.maxLen < encSize e.srcLen.toNat padEn) :
    exec .encSize s = .next (s.raise .sizeOverflow) := by
  simp [exec, execEncSize, State.running_of_engine he, hv, hpe, hn]

theorem exec_encSize_of_fits (hn : encSize e.srcLen.toNat padEn ≤ Config.maxLen) :
    ∃ v : Word, v.toNat = encSize e.srcLen.toNat padEn ∧ exec .encSize s = .next (s.complete v) :=
  ⟨BitVec.ofNat 32 (encSize e.srcLen.toNat padEn), Nat.mod_eq_of_lt (Nat.lt_succ_of_le hn),
    by simp [exec, execEncSize, State.running_of_engine he, hv, hpe, hn]⟩

end

/-- Settles O12: the two sizes fit a register exactly up to the two thresholds. -/
theorem encSizeResult : Obligations.EncSizeResult := by
  intro s e he
  refine ⟨exec_encSize_of_unconfigured, fun hv hlong => ?_, fun hv hpe hshort => ?_, fun hv hpe hshort => ?_⟩
  · obtain ⟨hpe, hlong⟩ | ⟨hpe, hlong⟩ := hlong
    · exact exec_encSize_of_overflow he hv hpe ((maxLen_lt_encSize_iff _ true).2 hlong)
    · exact exec_encSize_of_overflow he hv hpe ((maxLen_lt_encSize_iff _ false).2 hlong)
  · exact exec_encSize_of_fits he hv hpe ((encSize_le_maxLen_iff _ true).2 hshort)
  · exact exec_encSize_of_fits he hv hpe ((encSize_le_maxLen_iff _ false).2 hshort)

end Sys2Proof.Machine
end

section
/-! ENCODE's pipeline against the encoding of a bit string (41_encoder.md R162 to R168, 20_memory.md R73). -/
namespace Sys2Proof.Machine

/-! ### Bit strings and their groups -/

@[simp] theorem bitString_length (bytes : List Byte) : (bitString bytes).length = 8 * bytes.length := by
  simp [bitString, Nat.mul_comm]

/-- The bits read before a byte stay where they are. -/
theorem bitString_getD_append {bytes more : List Byte} {n : Nat} (hn : n < 8 * bytes.length) :
    (bitString (bytes ++ more)).getD n false = (bitString bytes).getD n false := by
  rw [bitString, List.flatMap_append]
  exact List.getD_append _ _ _ _ (by rwa [← bitString, bitString_length])

/-- The last byte's bits, the most significant first. -/
theorem bitString_getD_last (bytes : List Byte) (b : Byte) {i : Nat} (hi : i < 8) :
    (bitString (bytes ++ [b])).getD (8 * bytes.length + i) false = b.getMsbD i := by
  rw [bitString, List.flatMap_append, ← bitString, List.getD_append_right _ _ _ _ (by simp), bitString_length]
  simp [hi]

theorem bitString_getD_beyond {bytes : List Byte} {n : Nat} (hn : 8 * bytes.length ≤ n) :
    (bitString bytes).getD n false = false :=
  List.getD_eq_default _ _ (by rwa [bitString_length])

theorem group_getMsbD (bits : List Bool) (k : Nat) {i : Nat} (hi : i < 5) :
    (group bits k).getMsbD i = bits.getD (5 * k + i) false := by
  rw [group]
  refine BitVec.getMsbD_ofBoolListBE.trans ?_
  interval_cases i <;> rfl

/-- A group is known by its five bits. -/
theorem eq_group_of_getMsbD {x : Index} {bits : List Bool} {k : Nat}
    (h : ∀ i < 5, x.getMsbD i = bits.getD (5 * k + i) false) : x = group bits k :=
  BitVec.eq_of_getMsbD_eq fun i hi => (h i hi).trans (group_getMsbD bits k hi).symm

/-- The first `m` symbols of a byte sequence. -/
def firstSymbols (A : Alphabet) (bytes : List Byte) (m : Nat) : List Byte :=
  (List.range m).map fun k => A.get (group (bitString bytes) k).toFin

theorem symbolsOf_eq_firstSymbols (A : Alphabet) (bytes : List Byte) :
    symbolsOf A bytes = firstSymbols A bytes ((8 * bytes.length + 4) / 5) := rfl

theorem firstSymbols_succ (A : Alphabet) (bytes : List Byte) (m : Nat) :
    firstSymbols A bytes (m + 1) = firstSymbols A bytes m ++ [A.get (group (bitString bytes) m).toFin] := by
  simp [firstSymbols, List.range_succ]

/-- Symbols of bits already read do not depend on the bytes to come. -/
theorem firstSymbols_append (A : Alphabet) {bytes : List Byte} (more : List Byte) {m : Nat} (hm : 5 * m ≤ 8 * bytes.length) :
    firstSymbols A (bytes ++ more) m = firstSymbols A bytes m := by
  refine List.map_congr_left fun k hk => ?_
  have hkm := List.mem_range.1 hk
  have hgroup : group (bitString (bytes ++ more)) k = group (bitString bytes) k :=
    eq_group_of_getMsbD fun i hi => by rw [group_getMsbD _ _ hi, bitString_getD_append (by omega)]
  rw [hgroup]

/-! ### A run of writes -/

/-- The bytes written one after the other at `DST_ADDR + o`. -/
def Pipe.puts : List Byte → Pipe → Pipe
  | [], p => p
  | v :: rest, p => Pipe.puts rest (p.put v)

theorem Pipe.puts_append (vs ws : List Byte) (p : Pipe) : p.puts (vs ++ ws) = (p.puts vs).puts ws := by
  induction vs generalizing p with
  | nil => rfl
  | cons v rest ih => exact ih (p.put v)

theorem Pipe.padFill_eq_puts (pad : Byte) (k : Nat) (p : Pipe) : p.padFill pad k = p.puts (List.replicate k pad) := by
  induction k generalizing p with
  | zero => rfl
  | succ k ih => exact ih (p.put pad)

/-- The output index counts the writes. -/
theorem Pipe.puts_o (vs : List Byte) (p : Pipe) : (p.puts vs).eng.o = p.eng.o + BitVec.ofNat 32 vs.length := by
  induction vs generalizing p with
  | nil => simp [Pipe.puts]
  | cons v rest ih =>
    rw [Pipe.puts, ih, Pipe.put_eng, List.length_cons, Nat.add_comm, BitVec.ofNat_add, ← BitVec.add_assoc]
    rfl

/-- Where the addresses exist, a run of writes is a run of bytes in memory. -/
theorem Pipe.puts_mem (vs : List Byte) {p : Pipe} (hfits : p.eng.dstAddr.toNat + p.eng.o.toNat + vs.length ≤ 4294967296)
    (hcounts : p.eng.o.toNat + vs.length < 4294967296) :
    (p.puts vs).mem = p.mem.writeBytes (p.eng.dstAddr.toNat + p.eng.o.toNat) vs := by
  induction vs generalizing p with
  | nil => rfl
  | cons v rest ih =>
    rw [List.length_cons] at hfits hcounts
    have ho : (p.put v).eng.o.toNat = p.eng.o.toNat + 1 := Word.succ_toNat (by omega)
    have hdst : (p.put v).eng.dstAddr = p.eng.dstAddr := rfl
    rw [Pipe.puts, ih (by rw [ho, hdst]; omega) (by omega), ho, hdst, Pipe.put_mem, Word.add_toNat_of_le _ _ (by omega)]
    rfl

/-- Two pipelines that have written the same: their operands, output index and memory agree. -/
structure Pipe.SameOutput (p q : Pipe) : Prop where
  operands : p.eng.sameOperands q.eng
  index : p.eng.o = q.eng.o
  mem : p.mem = q.mem

theorem Pipe.SameOutput.put {p q : Pipe} (h : p.SameOutput q) (v : Byte) : (p.put v).SameOutput (q.put v) := by
  obtain ⟨hops, ho, hmem⟩ := h
  obtain ⟨-, -, -, hdst, -⟩ := id hops
  exact ⟨hops, by rw [Pipe.put_eng, Pipe.put_eng, ho], by rw [Pipe.put_mem, Pipe.put_mem, ho, hmem, hdst]⟩

theorem Pipe.SameOutput.puts {p q : Pipe} (h : p.SameOutput q) (vs : List Byte) : (p.puts vs).SameOutput (q.puts vs) := by
  induction vs generalizing p q with
  | nil => exact h
  | cons v rest ih => exact ih (h.put v)

/-! ### The accumulator's bits -/

theorem topGroup_getMsbD (acc : Acc) (cnt : Count) {i : Nat} (hi : i < 5) :
    (topGroup acc cnt).getMsbD i = acc.getLsbD (cnt.toNat + (4 - i)) := by
  have hlow : 4 - i < 5 := by omega
  simp [topGroup, BitVec.getMsbD_eq_getLsbD, hi, hlow]

/-- The held bits, and zeros after them (R163). -/
theorem leftoverGroup_getMsbD (acc : Acc) {cnt : Count} (hcnt : cnt.toNat < 5) {i : Nat} (hi : i < 5) :
    (leftoverGroup acc cnt).getMsbD i = (decide (i < cnt.toNat) && acc.getLsbD (cnt.toNat - 1 - i)) := by
  have hlow : 4 - i < 5 := by omega
  have hacc : 4 - i < 12 := by omega
  have hheld : 4 - i < 5 - cnt.toNat ↔ cnt.toNat ≤ i := by omega
  have hat : 4 - i - (5 - cnt.toNat) = cnt.toNat - 1 - i := by omega
  simp [leftoverGroup, BitVec.getMsbD_eq_getLsbD, hi, hlow, hacc, hheld, hat, ← decide_not,
    BitVec.getLsbD_eq_getElem (show cnt.toNat - 1 - i < 12 by omega)]

/-- A byte read moves the held bits up; the 12 bits have room for 4 of them. -/
theorem Pipe.loadByte_acc_high (p : Pipe) {j : Nat} (hj : j < 4) :
    p.loadByte.eng.acc.getLsbD (8 + j) = p.eng.acc.getLsbD j := by
  simp [Pipe.loadByte, show 8 + j < 12 by omega, BitVec.getLsbD_eq_getElem (show j < 12 by omega)]

/-- The byte itself stands in the low bits. -/
theorem Pipe.loadByte_acc_low (p : Pipe) {i : Nat} (hi : i < 8) :
    p.loadByte.eng.acc.getLsbD (7 - i) = p.sourceByte.getMsbD i := by
  have hlow : 7 - i < 8 := by omega
  have hacc : 7 - i < 12 := by omega
  simp [Pipe.loadByte, BitVec.getMsbD_eq_getLsbD, hi, hlow, hacc]

/-! ### The pipeline's invariant -/

/-- ENCODE's pipeline, started as `p₀`, has read `bytes` and written their first `m` symbols; `acc` holds the other bits
read, in its low `cnt` bits (R162). -/
structure Pipe.Packed (A : Alphabet) (p₀ : Pipe) (bytes : List Byte) (m : Nat) (p : Pipe) : Prop where
  output : p.SameOutput (p₀.puts (firstSymbols A bytes m))
  count : 5 * m + p.eng.cnt.toNat = 8 * bytes.length
  held (i : Nat) (hi : i < p.eng.cnt.toNat) :
    p.eng.acc.getLsbD (p.eng.cnt.toNat - 1 - i) = (bitString bytes).getD (5 * m + i) false

section Packed
variable {A : Alphabet} {p₀ p : Pipe} {bytes : List Byte} {m : Nat}

theorem Pipe.Packed.start (hfresh : p.eng.fresh) : Pipe.Packed A p [] 0 p := by
  obtain ⟨-, hcnt, -⟩ := hfresh
  have hcnt : p.eng.cnt.toNat = 0 := by rw [hcnt]; rfl
  exact ⟨⟨p.eng.sameOperands_refl, rfl, rfl⟩, by simp [hcnt], fun i hi => by omega⟩

/-- The next symbol written. -/
theorem Pipe.SameOutput.putSymbol (h : p.SameOutput (p₀.puts (firstSymbols A bytes m))) {x : Index}
    (hx : x = group (bitString bytes) m) :
    (p.put (A.get x.toFin)).SameOutput (p₀.puts (firstSymbols A bytes (m + 1))) := by
  rw [firstSymbols_succ, Pipe.puts_append, hx]
  exact h.put _

/-- With 5 bits or more held, the top 5 are the next group. -/
theorem Pipe.Packed.topGroup_eq (h : Pipe.Packed A p₀ bytes m p) (hcnt : 5 ≤ p.eng.cnt.toNat) :
    topGroup p.eng.acc (p.eng.cnt - 5) = group (bitString bytes) m := by
  have hsub : (p.eng.cnt - 5).toNat = p.eng.cnt.toNat - 5 := BitVec.toNat_sub_of_le hcnt
  refine eq_group_of_getMsbD fun i hi => ?_
  rw [topGroup_getMsbD _ _ hi, hsub, ← h.held i (by omega)]
  congr 1
  omega

/-- With 1 to 4 bits held, they and zeros after them are the last group (R163). -/
theorem Pipe.Packed.leftoverGroup_eq (h : Pipe.Packed A p₀ bytes m p) (hcnt : p.eng.cnt.toNat < 5) :
    leftoverGroup p.eng.acc p.eng.cnt = group (bitString bytes) m := by
  have hcount := h.count
  refine eq_group_of_getMsbD fun i hi => ?_
  rw [leftoverGroup_getMsbD _ hcnt hi]
  by_cases hheld : i < p.eng.cnt.toNat
  · rw [decide_eq_true hheld, Bool.true_and, h.held i hheld]
  · rw [decide_eq_false hheld, Bool.false_and, bitString_getD_beyond (by omega)]

theorem Pipe.Packed.takeGroup (h : Pipe.Packed A p₀ bytes m p) (hcnt : 5 ≤ p.eng.cnt.toNat) :
    Pipe.Packed A p₀ bytes (m + 1) (p.takeGroup A) := by
  have hsub : (p.takeGroup A).eng.cnt.toNat = p.eng.cnt.toNat - 5 := BitVec.toNat_sub_of_le hcnt
  have hcount := h.count
  have hout : (p.withCnt (p.eng.cnt - 5)).SameOutput (p₀.puts (firstSymbols A bytes m)) :=
    ⟨h.output.operands, h.output.index, h.output.mem⟩
  refine ⟨hout.putSymbol (h.topGroup_eq hcnt), by omega, fun i hi => ?_⟩
  have hheld := h.held (i + 5) (by omega)
  rw [hsub, show p.eng.cnt.toNat - 5 - 1 - i = p.eng.cnt.toNat - 1 - (i + 5) by omega,
    show 5 * (m + 1) + i = 5 * m + (i + 5) by omega]
  exact hheld

/-- Enough rounds write every whole group. -/
theorem Pipe.Packed.emitGroups (k : Nat) (h : Pipe.Packed A p₀ bytes m p) (hcnt : p.eng.cnt.toNat < 5 * (k + 1)) :
    Pipe.Packed A p₀ bytes (8 * bytes.length / 5) (p.emitGroups A k) := by
  have hdone : p.eng.cnt.toNat < 5 → 8 * bytes.length / 5 = m := by have := h.count; omega
  induction k generalizing p m with
  | zero => rw [hdone hcnt]; exact h
  | succ k ih =>
    rw [Pipe.emitGroups_succ]
    split
    case isTrue hmore =>
      have htake := h.takeGroup hmore
      have hsub : (p.takeGroup A).eng.cnt.toNat = p.eng.cnt.toNat - 5 := BitVec.toNat_sub_of_le hmore
      exact ih htake (by omega) (by have := htake.count; omega)
    case isFalse hfew => rw [hdone (by omega)]; exact h

/-- A byte read puts its bits behind those held, which are at most 4. -/
theorem Pipe.Packed.loadByte (h : Pipe.Packed A p₀ bytes m p) (hcnt : p.eng.cnt.toNat < 5) :
    Pipe.Packed A p₀ (bytes ++ [p.sourceByte]) m p.loadByte := by
  have hadd : p.loadByte.eng.cnt.toNat = p.eng.cnt.toNat + 8 := by simp only [Pipe.loadByte]; bv_omega
  have hcount := h.count
  refine ⟨?_, by rw [hadd, List.length_append, List.length_singleton]; omega, fun i hi => ?_⟩
  · rw [firstSymbols_append A _ (by omega)]
    exact ⟨h.output.operands, h.output.index, h.output.mem⟩
  · rw [hadd] at hi ⊢
    by_cases hheld : i < p.eng.cnt.toNat
    · rw [bitString_getD_append (by omega), ← h.held i hheld,
        show p.eng.cnt.toNat + 8 - 1 - i = 8 + (p.eng.cnt.toNat - 1 - i) by omega, p.loadByte_acc_high (by omega)]
    · rw [show 5 * m + i = 8 * bytes.length + (i - p.eng.cnt.toNat) by omega, bitString_getD_last _ _ (by omega),
        show p.eng.cnt.toNat + 8 - 1 - i = 7 - (i - p.eng.cnt.toNat) by omega, p.loadByte_acc_low (by omega)]

/-- Between two source bytes every whole group is written. -/
theorem Pipe.Packed.encodeByte (h : Pipe.Packed A p₀ bytes (8 * bytes.length / 5) p) :
    Pipe.Packed A p₀ (bytes ++ [p.sourceByte]) (8 * (bytes ++ [p.sourceByte]).length / 5) (p.encodeByte A) := by
  have hcnt : p.eng.cnt.toNat < 5 := by have := h.count; omega
  have hload := h.loadByte hcnt
  exact hload.emitGroups 3 (by have := p.loadByte.eng.cnt.isLt; omega)

/-- The bytes that `k` rounds of ENCODE's loop read. -/
def Pipe.bytesRead (A : Alphabet) : Nat → Pipe → List Byte
  | 0, _ => []
  | k + 1, p => p.sourceByte :: Pipe.bytesRead A k (p.encodeByte A)

@[simp] theorem Pipe.bytesRead_length (A : Alphabet) (k : Nat) (p : Pipe) : (p.bytesRead A k).length = k := by
  induction k generalizing p with
  | zero => rfl
  | succ k ih => rw [Pipe.bytesRead, List.length_cons, ih]

theorem Pipe.Packed.encodeBytes (k : Nat) (h : Pipe.Packed A p₀ bytes (8 * bytes.length / 5) p) :
    Pipe.Packed A p₀ (bytes ++ p.bytesRead A k) (8 * (bytes ++ p.bytesRead A k).length / 5) (p.encodeBytes A k) := by
  induction k generalizing p bytes with
  | zero => rw [Pipe.bytesRead, List.append_nil]; exact h
  | succ k ih =>
    have hrest := ih h.encodeByte
    rwa [List.append_assoc] at hrest

/-- With the leftover group, all symbols of the bytes read are written (R163, R167). -/
theorem Pipe.Packed.encodeLeftover (h : Pipe.Packed A p₀ bytes (8 * bytes.length / 5) p) :
    (p.encodeLeftover A).SameOutput (p₀.puts (symbolsOf A bytes)) := by
  have hcount := h.count
  rw [symbolsOf_eq_firstSymbols, Pipe.encodeLeftover]
  split
  case isTrue hzero =>
    have hcnt : p.eng.cnt.toNat = 0 := by rw [hzero]; rfl
    rw [show (8 * bytes.length + 4) / 5 = 8 * bytes.length / 5 by omega]
    exact h.output
  case isFalse hpos =>
    have hcnt : 0 < p.eng.cnt.toNat := by bv_omega
    rw [show (8 * bytes.length + 4) / 5 = 8 * bytes.length / 5 + 1 by omega]
    exact h.output.putSymbol (h.leftoverGroup_eq (by omega))

end Packed

/-! ### The length law -/

section Fresh
variable {p : Pipe}

/-- From a fresh engine the loop and the leftover group write the symbols of the bytes read, whatever these are (R162, R163). -/
theorem Pipe.encodeSymbols_output (hfresh : p.eng.fresh) (A : Alphabet) (k : Nat) :
    ((p.encodeBytes A k).encodeLeftover A).SameOutput (p.puts (symbolsOf A (p.bytesRead A k))) :=
  ((Pipe.Packed.start hfresh).encodeBytes k).encodeLeftover

/-- A fresh engine's output index is the number of bytes written, as long as a register holds it. -/
theorem Pipe.SameOutput.index_eq_length {q : Pipe} {vs : List Byte} (h : q.SameOutput (p.puts vs)) (hfresh : p.eng.fresh)
    (hlen : vs.length ≤ 4294967295) : q.eng.o.toNat = vs.length := by
  obtain ⟨-, -, -, ho, -⟩ := hfresh
  rw [h.index, Pipe.puts_o, ho]
  simp
  omega

/-- ENCODE's whole pipeline writes the encoding of the bytes it reads (R166). -/
theorem Pipe.encodeRest_output (hfresh : p.eng.fresh) (A : Alphabet) (padEn : Bool) (pad : Byte)
    (hfits : encSize p.eng.srcLen.toNat padEn ≤ 4294967295) :
    (p.encodeRest A padEn pad (encSize p.eng.srcLen.toNat padEn)).SameOutput
      (p.puts (encodingOf A padEn pad (p.bytesRead A p.eng.srcLen.toNat))) := by
  have hsymbols := Pipe.encodeSymbols_output hfresh A p.eng.srcLen.toNat
  obtain ⟨-, -, hi, -⟩ := id hfresh
  have hi : p.eng.srcLen.toNat - p.eng.i.toNat = p.eng.srcLen.toNat := by rw [hi]; rfl
  rw [Pipe.encodeRest, hi]
  cases padEn with
  | false => exact hsymbols
  | true =>
    have hle := encSize_false_le_true p.eng.srcLen.toNat
    have ho := hsymbols.index_eq_length hfresh (by rw [symbolsOf_length, Pipe.bytesRead_length]; omega)
    rw [symbolsOf_length, Pipe.bytesRead_length] at ho
    rw [encodingOf_padded, Pipe.bytesRead_length, Pipe.puts_append, if_pos rfl, ho, Pipe.padFill_eq_puts]
    exact hsymbols.puts _

end Fresh

/-- Settles O15: the output index counts the symbols, and with the pads the whole encoding. -/
theorem encodeLengthLaw : Obligations.EncodeLengthLaw := by
  intro p A padEn pad hfresh hfits
  have hunpadded : encSize p.eng.srcLen.toNat false ≤ 4294967295 := by
    cases padEn with
    | false => exact hfits
    | true => exact (encSize_false_le_true _).trans hfits
  have hsymbols := (Pipe.encodeSymbols_output hfresh A p.eng.srcLen.toNat).index_eq_length hfresh (by simpa using hunpadded)
  have hall := (Pipe.encodeRest_output hfresh A padEn pad hfits).index_eq_length hfresh (by simpa using hfits)
  refine ⟨hsymbols.trans ?_, hall.trans (by simp)⟩
  rw [symbolsOf_length, Pipe.bytesRead_length, encSize_unpadded, Nat.mul_comm]

/-! ### ENCODE writes the encoding -/

/-- Writes to a destination that shares no address with the source leave the bytes still to be read (20_memory.md R77). -/
theorem Pipe.Packing.bytesRead_eq {p₀ : Pipe} (hbuf : p₀.eng.buffersOk)
    (hholds : 8 * p₀.eng.srcLen.toNat ≤ 5 * p₀.eng.dstLen.toNat) (A : Alphabet) (k : Nat) {p : Pipe}
    (h : Pipe.Packing p₀.eng.dstLen.toNat p₀ p) (hk : p.eng.i.toNat + k ≤ p₀.eng.srcLen.toNat) :
    p.bytesRead A k = p₀.mem.bytes (p₀.eng.srcAddr.toNat + p.eng.i.toNat) k := by
  have hsrc := p₀.eng.srcLen.isLt
  have hroom : p₀.eng.room p₀.eng.dstLen.toNat := ⟨hbuf.2.1, p₀.eng.dstLen.isLt⟩
  induction k generalizing p with
  | zero => rfl
  | succ k ih =>
    have hnext : (p.encodeByte A).eng.i.toNat = p.eng.i.toNat + 1 := by rw [Pipe.encodeByte_i, Word.succ_toNat (by omega)]
    rw [Pipe.bytesRead, Memory.bytes, h.confined.sourceByte_eq hbuf (by omega),
      ih (h.encodeByte hroom (by omega) (by omega) A) (by omega), hnext, Nat.add_assoc]

/-- On a fresh engine with sound buffers the bytes read are the source's. -/
theorem Pipe.bytesRead_fresh {p : Pipe} (hfresh : p.eng.fresh) (hbuf : p.eng.buffersOk)
    (hholds : 8 * p.eng.srcLen.toNat ≤ 5 * p.eng.dstLen.toNat) (A : Alphabet) :
    p.bytesRead A p.eng.srcLen.toNat = p.mem.bytes p.eng.srcAddr.toNat p.eng.srcLen.toNat := by
  obtain ⟨-, hcnt, hi, ho, -⟩ := hfresh
  have hstart : Pipe.Packing p.eng.dstLen.toNat p p := ⟨.refl _ p, by simp [hcnt, hi, ho], by simp [hcnt]⟩
  have h := hstart.bytesRead_eq hbuf hholds A p.eng.srcLen.toNat (by simp [hi])
  rwa [hi] at h

/-- ENCODE's checks pass. -/
theorem State.encodeChecks_of_ok {s : State} {e : Engine} (hv : s.encValid = true) (hbuf : e.buffersOk)
    (hfits : encSize e.srcLen.toNat s.encPadEn ≤ 4294967295) (hdst : encSize e.srcLen.toNat s.encPadEn ≤ e.dstLen.toNat) :
    s.encodeChecks e = .ok (encSize e.srcLen.toNat s.encPadEn) := by
  simp [State.encodeChecks, hv, (Engine.regionsOk_iff e).2 hbuf, not_lt.2 hfits, not_lt.2 hdst]

/-- ENCODE's pipeline writes the encoding of the source bytes at DST_ADDR on, and nothing else (R166, R168). -/
theorem Pipe.encodeRest_mem {p : Pipe} (hfresh : p.eng.fresh) (hbuf : p.eng.buffersOk) {padEn : Bool}
    (hfits : encSize p.eng.srcLen.toNat padEn ≤ 4294967295) (hdst : encSize p.eng.srcLen.toNat padEn ≤ p.eng.dstLen.toNat)
    (A : Alphabet) (pad : Byte) :
    (p.encodeRest A padEn pad (encSize p.eng.srcLen.toNat padEn)).mem
      = p.mem.writeBytes p.eng.dstAddr.toNat
        (encodingOf A padEn pad (p.mem.bytes p.eng.srcAddr.toNat p.eng.srcLen.toNat)) := by
  have hholds := encSize_holds_bits p.eng.srcLen.toNat padEn
  have hread := Pipe.bytesRead_fresh hfresh hbuf (hholds.trans (by omega)) A
  have hout := Pipe.encodeRest_output hfresh A padEn pad hfits
  obtain ⟨-, hend, -⟩ := hbuf
  obtain ⟨-, -, -, ho, -⟩ := hfresh
  have ho : p.eng.o.toNat = 0 := by rw [ho]; rfl
  rw [hout.mem, hread, Pipe.puts_mem, ho, Nat.add_zero] <;> rw [encodingOf_length, Memory.bytes_length] <;> omega

/-- Settles O13: the checks pass, and the pipeline writes the encoding. -/
theorem encodeWritesTheEncoding : Obligations.EncodeWritesTheEncoding := by
  intro s e he hfresh hord hv hbuf hfits hdst
  have hexec := execEncode_of_ok he ((State.regionsOrdinary_iff he .encode).2 hord)
    (State.encodeChecks_of_ok hv hbuf hfits hdst)
  rw [Pipe.encodeRest_mem (p := ⟨e, s.mem⟩) hfresh hbuf hfits hdst] at hexec
  exact hexec

end Sys2Proof.Machine
end

section
/-! The decoder's sizes (42_decoder.md R190, R192, R196, R197) and DECODE's checks before it decodes (R198,
60_exceptions.md R245). -/
namespace Sys2Proof.Machine

/-! ### The upper bound -/

/-- The lengths that no encoding has (R190, R203). -/
theorem decUb_of_rejected {n : Nat} {padEn : Bool}
    (h : padEn = true ∧ n % 8 ≠ 0 ∨ padEn = false ∧ n % 8 ∈ [1, 3, 6]) : decUb n padEn = .error .invalidPadding := by
  obtain ⟨rfl, hn⟩ | ⟨rfl, hn⟩ := h
  · simp [decUb, hn]
  · simp only [List.mem_cons, List.not_mem_nil, or_false] at hn
    obtain hn | hn | hn := hn <;> simp [decUb, hn]

theorem decUb_of_blocks {n : Nat} (h : n % 8 = 0) : decUb n true = .ok (5 * (n / 8)) := by simp [decUb, h]

/-- The remainders of the unpadded variant, row by row of R190. -/
theorem decUb_of_row {n extra : Nat} (h : (n % 8, extra) ∈ [(0, 0), (2, 1), (4, 2), (5, 3), (7, 4)]) :
    decUb n false = .ok (5 * (n / 8) + extra) := by
  simp only [List.mem_cons, Prod.mk.injEq, List.not_mem_nil, or_false] at h
  obtain ⟨hn, rfl⟩ | ⟨hn, rfl⟩ | ⟨hn, rfl⟩ | ⟨hn, rfl⟩ | ⟨hn, rfl⟩ := h <;> simp [decUb, hn]

theorem decUb_le {n u : Nat} {padEn : Bool} (h : decUb n padEn = .ok u) : u ≤ n := by
  cases padEn with
  | false => have := decUb_unpadded h; omega
  | true => have := decUb_padded h; omega

/-! ### The trailing pads -/

/-- Word addresses of a region that does not wrap are natural numbers (00_scope.md R15). -/
theorem Word.offset_toNat {a : Word} {n k : Nat} (hfits : a.toNat + n ≤ 4294967296) (hk : k < n) :
    (a + BitVec.ofNat 32 k).toNat = a.toNat + k := by
  have hofNat : (BitVec.ofNat 32 k).toNat = k := Nat.mod_eq_of_lt (by omega)
  rw [Word.add_toNat_of_le _ _ (by omega), hofNat]

/-- A run of pads at the end of the source, with no pad before it, is what DEC_SIZE_SLICE counts (R192). -/
theorem Memory.trailingPads_eq {m : Memory} {a : Word} {pad : Byte} :
    ∀ {n k : Nat}, a.toNat + n ≤ 4294967296 → k ≤ n → (∀ j < k, m.read (a.toNat + (n - 1 - j)) = pad) →
      (k < n → m.read (a.toNat + (n - 1 - k)) ≠ pad) → m.trailingPads a pad n = k
  | 0, k, _, hk, _, _ => (Nat.le_zero.1 hk).symm
  | n + 1, 0, hfits, _, _, hstop => by
    have hlast : m.read (a.toNat + n) ≠ pad := hstop (Nat.succ_pos n)
    rw [Memory.trailingPads, Word.offset_toNat hfits (Nat.lt_succ_self n), if_neg hlast]
  | n + 1, k + 1, hfits, hk, hpads, hstop => by
    have hlast : m.read (a.toNat + n) = pad := hpads 0 (Nat.succ_pos k)
    have hrest : m.trailingPads a pad n = k :=
      Memory.trailingPads_eq (by omega) (Nat.le_of_succ_le_succ hk)
        (fun j hj => by rw [show n - 1 - j = n + 1 - 1 - (j + 1) by omega]; exact hpads (j + 1) (by omega))
        (fun hlt => by rw [show n - 1 - k = n + 1 - 1 - (k + 1) by omega]; exact hstop (by omega))
    rw [Memory.trailingPads, Word.offset_toNat hfits (Nat.lt_succ_self n), if_pos hlast, hrest]

/-! ### The exact size -/

section Slice
variable {m : Memory} {a : Word} {n : Nat} {pad : Byte}

theorem Memory.decSlice_of_decUb_error {padEn : Bool} {k : Err} (h : decUb n padEn = .error k) :
    m.decSlice a n padEn pad = .error k := by simp [Memory.decSlice, h]

theorem Memory.decSlice_unpadded : m.decSlice a n false pad = decUb n false := by
  cases h : decUb n false <;> simp [Memory.decSlice, h]

theorem Memory.decSlice_of_reduction {d : Nat} (hn : n % 8 = 0) (hd : padReduction (m.trailingPads a pad n) = some d) :
    m.decSlice a n true pad = .ok (5 * (n / 8) - d) := by
  simp [Memory.decSlice, decUb_of_blocks hn, hd]

theorem Memory.decSlice_of_no_reduction (hn : n % 8 = 0) (hd : padReduction (m.trailingPads a pad n) = none) :
    m.decSlice a n true pad = .error .invalidPadding := by
  simp [Memory.decSlice, decUb_of_blocks hn, hd]

/-- Sizing the source of `n` bytes succeeds only where the upper bound exists, and never goes above it. -/
theorem Memory.decSlice_ok {padEn : Bool} {size : Nat} (h : m.decSlice a n padEn pad = .ok size) :
    ∃ u, decUb n padEn = .ok u ∧ size ≤ u := by
  unfold Memory.decSlice at h
  split at h
  case h_1 => exact nomatch h
  case h_2 u hu =>
    refine ⟨u, hu, ?_⟩
    split at h
    · split at h
      · obtain rfl := Except.ok.inj h
        exact Nat.sub_le _ _
      · exact nomatch h
    · exact (Except.ok.inj h).ge

theorem Memory.decSlice_le {padEn : Bool} {size : Nat} (h : m.decSlice a n padEn pad = .ok size) : size ≤ n := by
  obtain ⟨u, hu, hle⟩ := Memory.decSlice_ok h
  exact hle.trans (decUb_le hu)

/-- A padded source that is sized is whole blocks. -/
theorem Memory.decSlice_blocks {padEn : Bool} {size : Nat} (h : m.decSlice a n padEn pad = .ok size) (hpe : padEn = true) :
    n % 8 = 0 := by
  obtain ⟨u, hu, -⟩ := Memory.decSlice_ok h
  subst hpe
  exact (decUb_padded hu).1

end Slice

/-- The reductions of R192, row by row. -/
theorem padReduction_of_row {k d : Nat} (h : (k, d) ∈ [(0, 0), (1, 1), (3, 2), (4, 3), (6, 4)]) : padReduction k = some d := by
  simp only [List.mem_cons, Prod.mk.injEq, List.not_mem_nil, or_false] at h
  obtain ⟨rfl, rfl⟩ | ⟨rfl, rfl⟩ | ⟨rfl, rfl⟩ | ⟨rfl, rfl⟩ | ⟨rfl, rfl⟩ := h <;> rfl

theorem padReduction_eq_none {k : Nat} (h : k ∉ [0, 1, 3, 4, 6]) : padReduction k = none := by
  cases hd : padReduction k with
  | none => rfl
  | some d =>
    have hrow := padReduction_cases hd
    simp only [List.mem_cons, Prod.mk.injEq, List.not_mem_nil, or_false, not_or] at hrow h
    omega

/-! ### The two size commands -/

section Commands
variable {s : State} {e : Engine} (he : s.engine = some e)
include he

omit he in
theorem exec_decSizeUb_of_unconfigured (hv : s.decValid = false) : exec .decSizeUb s = .next (s.raise .notConfigured) := by
  simp [exec, execDecSizeUb, hv]

theorem exec_decSizeUb_of_error (hv : s.decValid = true) {k : Err} (h : decUb e.srcLen.toNat s.decPadEn = .error k) :
    exec .decSizeUb s = .next (s.raise k) := by
  simp [exec, execDecSizeUb, State.running_of_engine he, hv, h]

theorem exec_decSizeUb_of_ok (hv : s.decValid = true) {u : Nat} (h : decUb e.srcLen.toNat s.decPadEn = .ok u) :
    ∃ v : Word, v.toNat = u ∧ exec .decSizeUb s = .next (s.complete v) :=
  ⟨BitVec.ofNat 32 u, Nat.mod_eq_of_lt ((decUb_le h).trans_lt e.srcLen.isLt),
    by simp [exec, execDecSizeUb, State.running_of_engine he, hv, h]⟩

variable (hord : s.platform.ordinaryOn e.source)
include hord

/-- DEC_SIZE_SLICE reads its source only, so that alone must be ordinary memory (20_memory.md R75). -/
theorem State.regionsOrdinary_decSizeSlice : s.regionsOrdinary .decSizeSlice = true :=
  (State.regionsOrdinary_iff he .decSizeSlice).2 ⟨hord, s.platform.ordinaryOn_empty⟩

theorem exec_decSizeSlice_of_unconfigured (hv : s.decValid = false) :
    exec .decSizeSlice s = .next (s.raise .notConfigured) := by
  simp [exec, execDecSizeSlice, State.regionsOrdinary_decSizeSlice he hord, hv]

theorem exec_decSizeSlice_of_wrapping (hv : s.decValid = true) (hwrap : 4294967296 < e.srcAddr.toNat + e.srcLen.toNat) :
    exec .decSizeSlice s = .next (s.raise .contract) := by
  have hsource : e.source.wellformed = false := by rw [← Bool.not_eq_true, Region.wellformed_iff]; exact not_le.2 hwrap
  simp [exec, execDecSizeSlice, State.regionsOrdinary_decSizeSlice he hord, State.running_of_engine he, hv, hsource]

variable (hv : s.decValid = true) (hfits : e.srcAddr.toNat + e.srcLen.toNat ≤ 4294967296)
include hv hfits

theorem exec_decSizeSlice_of_error {k : Err} (h : s.mem.decSlice e.srcAddr e.srcLen.toNat s.decPadEn s.decPad = .error k) :
    exec .decSizeSlice s = .next (s.raise k) := by
  have hsource : e.source.wellformed = true := (Region.wellformed_iff _).2 hfits
  simp [exec, execDecSizeSlice, State.regionsOrdinary_decSizeSlice he hord, State.running_of_engine he, hv, hsource, h]

theorem exec_decSizeSlice_of_ok {m : Nat} (h : s.mem.decSlice e.srcAddr e.srcLen.toNat s.decPadEn s.decPad = .ok m) :
    ∃ v : Word, v.toNat = m ∧ exec .decSizeSlice s = .next (s.complete v) := by
  have hsource : e.source.wellformed = true := (Region.wellformed_iff _).2 hfits
  exact ⟨BitVec.ofNat 32 m, Nat.mod_eq_of_lt ((Memory.decSlice_le h).trans_lt e.srcLen.isLt),
    by simp [exec, execDecSizeSlice, State.regionsOrdinary_decSizeSlice he hord, State.running_of_engine he, hv, hsource, h]⟩

omit hv in
/-- Without a pad both size commands end alike (R202). -/
theorem exec_decSizeSlice_eq_decSizeUb (hpe : s.decPadEn = false) : exec .decSizeSlice s = exec .decSizeUb s := by
  have hslice : s.mem.decSlice e.srcAddr e.srcLen.toNat s.decPadEn s.decPad = decUb e.srcLen.toNat s.decPadEn := by
    rw [hpe, Memory.decSlice_unpadded]
  by_cases hv : s.decValid = true
  · cases hub : decUb e.srcLen.toNat s.decPadEn with
    | error k => rw [exec_decSizeSlice_of_error he hord hv hfits (hslice.trans hub), exec_decSizeUb_of_error he hv hub]
    | ok u =>
      obtain ⟨v, hvu, hexecSlice⟩ := exec_decSizeSlice_of_ok he hord hv hfits (hslice.trans hub)
      obtain ⟨w, hwu, hexecUb⟩ := exec_decSizeUb_of_ok he hv hub
      rw [hexecSlice, hexecUb, BitVec.eq_of_toNat_eq (hvu.trans hwu.symm)]
  · have hv := Bool.eq_false_iff.2 hv
    rw [exec_decSizeSlice_of_unconfigured he hord hv, exec_decSizeUb_of_unconfigured hv]

end Commands

/-- Settles O17: the upper bound, row by row of R190. -/
theorem decSizeUbResult : Obligations.DecSizeUbResult := by
  intro s e he
  refine ⟨exec_decSizeUb_of_unconfigured, fun hv hpe hn => ?_, fun hv hpe extra hrow => ?_, fun hv hbad => ?_⟩
  · exact exec_decSizeUb_of_ok he hv (by rw [hpe, decUb_of_blocks hn])
  · exact exec_decSizeUb_of_ok he hv (by rw [hpe, decUb_of_row hrow])
  · exact exec_decSizeUb_of_error he hv (decUb_of_rejected hbad)

/-- Settles O18: padded, the `k` pads are those counted; unpadded, the exact size is the upper bound. -/
theorem decSizeSliceResult : Obligations.DecSizeSliceResult := by
  intro s e he hord
  refine ⟨exec_decSizeSlice_of_unconfigured he hord, exec_decSizeSlice_of_wrapping he hord,
    fun hv hfits hpe => ⟨fun hn => ?_, fun hn k hk hpads hstop => ⟨fun d hrow => ?_, fun hbad => ?_⟩⟩,
    fun hv hfits hpe => ⟨fun extra hrow => ?_, fun hn => ?_⟩⟩
  · exact exec_decSizeSlice_of_error he hord hv hfits (Memory.decSlice_of_decUb_error (decUb_of_rejected (.inl ⟨hpe, hn⟩)))
  · have hcount := Memory.trailingPads_eq hfits hk hpads hstop
    have hslice := Memory.decSlice_of_reduction hn (by rw [hcount]; exact padReduction_of_row hrow)
    obtain ⟨v, hv, hexec⟩ := exec_decSizeSlice_of_ok he hord hv hfits (by rw [hpe]; exact hslice)
    refine ⟨v, ?_, hexec⟩
    simp only [List.mem_cons, Prod.mk.injEq, List.not_mem_nil, or_false] at hrow
    omega
  · have hcount := Memory.trailingPads_eq hfits hk hpads hstop
    have hslice := Memory.decSlice_of_no_reduction hn (by rw [hcount]; exact padReduction_eq_none hbad)
    exact exec_decSizeSlice_of_error he hord hv hfits (by rw [hpe]; exact hslice)
  · exact exec_decSizeSlice_of_ok he hord hv hfits (by rw [hpe, Memory.decSlice_unpadded, decUb_of_row hrow])
  · exact exec_decSizeSlice_of_error he hord hv hfits (Memory.decSlice_of_decUb_error (decUb_of_rejected (.inr ⟨hpe, hn⟩)))

/-- Settles O19: without a pad the exact size is the upper bound, so both commands end alike. -/
theorem unpaddedSizesAgree : Obligations.UnpaddedSizesAgree := fun s _ m he hord hfits hpe =>
  exec_decSizeSlice_eq_decSizeUb (s := { s with mem := m }) he hord hfits hpe

/-! ### DECODE's checks -/

section Checks
variable {s : State} {e : Engine}

theorem State.decodeChecks_of_unconfigured (hv : s.decValid = false) : s.decodeChecks e = .error .notConfigured := by
  simp [State.decodeChecks, hv]

theorem State.decodeChecks_of_buffers (hv : s.decValid = true) (hbuf : ¬e.buffersOk) : s.decodeChecks e = .error .contract := by
  have hok : e.regionsOk = false := by rw [← Bool.not_eq_true, Engine.regionsOk_iff]; exact hbuf
  simp [State.decodeChecks, hv, hok]

variable (hv : s.decValid = true) (hbuf : e.buffersOk)
include hv hbuf

theorem State.decodeChecks_of_size_error {k : Err}
    (h : s.mem.decSlice e.srcAddr e.srcLen.toNat s.decPadEn s.decPad = .error k) :
    s.decodeChecks e = .error .invalidPadding := by
  obtain rfl := Memory.decSlice_error h
  simp [State.decodeChecks, hv, (Engine.regionsOk_iff e).2 hbuf, h]

theorem State.decodeChecks_of_size {m : Nat}
    (h : s.mem.decSlice e.srcAddr e.srcLen.toNat s.decPadEn s.decPad = .ok m) :
    s.decodeChecks e = if e.dstLen.toNat ≠ m then .error .contract else .ok m := by
  have hblocks : (s.decPadEn && e.srcLen.toNat % 8 != 0) = false := by
    cases hpe : s.decPadEn with
    | false => rfl
    | true => simp [Memory.decSlice_blocks h hpe]
  simp [State.decodeChecks, hv, (Engine.regionsOk_iff e).2 hbuf, h, hblocks]

theorem State.decodeChecks_of_ok (h : s.mem.decSlice e.srcAddr e.srcLen.toNat s.decPadEn s.decPad = .ok e.dstLen.toNat) :
    s.decodeChecks e = .ok e.dstLen.toNat := by
  rw [State.decodeChecks_of_size hv hbuf h, if_neg (not_not.2 rfl)]

end Checks

theorem execDecode_of_check {s : State} {e : Engine} {k : Err} (he : s.engine = some e) (hord : s.buffersOrdinary e)
    (hk : s.decodeChecks e = .error k) : exec .decode s = .next (s.raise k) := by
  simp [exec, execDecode, (State.regionsOrdinary_iff he .decode).2 hord, State.running_of_engine he, hk]

/-- Settles O20: sizing rejects the remainder, before DECODE looks at DST_LEN. -/
theorem rejectedRemainders : Obligations.RejectedRemainders := by
  intro s e he hord hv hbuf hbad i hi
  have hub := decUb_of_rejected hbad
  have hslice := Memory.decSlice_of_decUb_error (m := s.mem) (a := e.srcAddr) (pad := s.decPad) hub
  simp only [List.mem_cons, List.not_mem_nil, or_false] at hi
  obtain rfl | rfl | rfl := hi
  · exact exec_decSizeUb_of_error he hv hub
  · exact exec_decSizeSlice_of_error he hord.1 hv hbuf.1 hslice
  · exact execDecode_of_check he hord (State.decodeChecks_of_size_error hv hbuf hslice)

/-- Settles O24: each check, where those before it pass. -/
theorem decodeChecksInOrder : Obligations.DecodeChecksInOrder := by
  intro s e he hord
  refine ⟨fun hv => ?_, fun hv hbuf => ?_, fun hv hbuf => ⟨fun k hslice => ?_, fun m hslice hdst => ?_⟩⟩
  · exact execDecode_of_check he hord (State.decodeChecks_of_unconfigured hv)
  · exact execDecode_of_check he hord (State.decodeChecks_of_buffers hv hbuf)
  · exact execDecode_of_check he hord (State.decodeChecks_of_size_error hv hbuf hslice)
  · exact execDecode_of_check he hord (by rw [State.decodeChecks_of_size hv hbuf hslice, if_pos hdst])

/-- Settles O30: an error after the checks is one inside `unpack`, which scrambles the destination. -/
theorem destinationAfterADecodeError : Obligations.DestinationAfterADecodeError := by
  intro s t e hs he h herr
  obtain ⟨k, hk, rfl⟩ | ⟨m, k, hm, -, rfl⟩ | ⟨m, p, -, -, rfl⟩ := execDecode_cases h
  · rw [State.running_of_engine he] at hk
    exact ⟨fun hok => (nomatch hok.symm.trans hk), fun _ => State.raise_mem k s⟩
  · rw [State.running_of_engine he] at hm ⊢
    obtain hk | hk | hk | ⟨hok, -, hregions, -⟩ := s.decodeChecks_cases e
    iterate 3 · exact nomatch hm.symm.trans hk
    obtain ⟨-, hfits, -⟩ := (Engine.regionsOk_iff e).1 hregions
    have hclip : e.destination.clippedLen = e.dstLen.toNat :=
      Region.clippedLen_of_wellformed ((Region.wellformed_iff e.destination).2 hfits)
    refine ⟨fun _ => ⟨fun a ha => ?_, fun j hj => ?_⟩, fun hno => absurd hok hno⟩
    · rw [State.raise_mem]
      exact s.scramble_read_outside ha
    · rw [State.raise_mem]
      exact Memory.read_scramble_inside hs _ _ _ (by rw [hclip]; exact hfits) j (by rwa [hclip])
  · exact absurd (State.complete_err _ _) herr

end Sys2Proof.Machine
end

section
/-! Symbols as one bit string (20_memory.md R73): the whole bytes they hold and the bits these leave over (42_decoder.md R194),
against the symbols of a byte sequence (41_encoder.md R168). -/
namespace Sys2Proof.Machine

/-! ### The bits of symbols -/

@[simp] theorem indexBits_length (xs : List Index) : (indexBits xs).length = 5 * xs.length := by
  simp [indexBits, Nat.mul_comm]

/-- The bits read before a symbol stay where they are. -/
theorem indexBits_getD_append {xs more : List Index} {n : Nat} (hn : n < 5 * xs.length) :
    (indexBits (xs ++ more)).getD n false = (indexBits xs).getD n false := by
  rw [indexBits, List.flatMap_append]
  exact List.getD_append _ _ _ _ (by rwa [← indexBits, indexBits_length])

/-- The last symbol's bits, the most significant first. -/
theorem indexBits_getD_last (xs : List Index) (x : Index) {i : Nat} (hi : i < 5) :
    (indexBits (xs ++ [x])).getD (5 * xs.length + i) false = x.getMsbD i := by
  rw [indexBits, List.flatMap_append, ← indexBits, List.getD_append_right _ _ _ _ (by simp), indexBits_length]
  simp [hi]

theorem indexBits_getD_beyond {xs : List Index} {n : Nat} (hn : 5 * xs.length ≤ n) : (indexBits xs).getD n false = false :=
  List.getD_eq_default _ _ (by rwa [indexBits_length])

/-- Symbol `k` holds the bits from `5k` on. -/
theorem indexBits_getD (xs : List Index) {k i : Nat} (hk : k < xs.length) (hi : i < 5) :
    (indexBits xs).getD (5 * k + i) false = xs[k].getMsbD i := by
  induction xs using List.reverseRecOn with
  | nil => exact absurd hk (Nat.not_lt_zero k)
  | append_singleton xs x ih =>
    rw [List.length_append, List.length_singleton] at hk
    obtain hlt | rfl := Nat.lt_succ_iff_lt_or_eq.1 hk
    · rw [indexBits_getD_append (by omega), ih hlt, List.getElem_append_left hlt]
    · rw [indexBits_getD_last _ _ hi, List.getElem_concat_length rfl]

/-! ### Whole bytes -/

/-- Byte `k` of a bit string, read most significant bit first. -/
def byteAt (bits : List Bool) (k : Nat) : Byte :=
  BitVec.ofBoolListBE [bits.getD (8 * k) false, bits.getD (8 * k + 1) false, bits.getD (8 * k + 2) false,
    bits.getD (8 * k + 3) false, bits.getD (8 * k + 4) false, bits.getD (8 * k + 5) false, bits.getD (8 * k + 6) false,
    bits.getD (8 * k + 7) false]

theorem byteAt_getMsbD (bits : List Bool) (k : Nat) {i : Nat} (hi : i < 8) :
    (byteAt bits k).getMsbD i = bits.getD (8 * k + i) false := by
  rw [byteAt]
  refine BitVec.getMsbD_ofBoolListBE.trans ?_
  interval_cases i <;> rfl

/-- A byte is known by its eight bits. -/
theorem eq_byteAt_of_getMsbD {b : Byte} {bits : List Bool} {k : Nat}
    (h : ∀ i < 8, b.getMsbD i = bits.getD (8 * k + i) false) : b = byteAt bits k :=
  BitVec.eq_of_getMsbD_eq fun i hi => (h i hi).trans (byteAt_getMsbD bits k hi).symm

/-- The first `m` bytes of a symbol sequence. -/
def firstBytes (xs : List Index) (m : Nat) : List Byte := (List.range m).map (byteAt (indexBits xs))

@[simp] theorem firstBytes_length (xs : List Index) (m : Nat) : (firstBytes xs m).length = m := by simp [firstBytes]

theorem firstBytes_succ (xs : List Index) (m : Nat) :
    firstBytes xs (m + 1) = firstBytes xs m ++ [byteAt (indexBits xs) m] := by
  simp [firstBytes, List.range_succ]

/-- Bytes of bits already read do not depend on the symbols to come. -/
theorem firstBytes_append {xs : List Index} (more : List Index) {m : Nat} (hm : 8 * m ≤ 5 * xs.length) :
    firstBytes (xs ++ more) m = firstBytes xs m := by
  refine List.map_congr_left fun k hk => ?_
  have hkm := List.mem_range.1 hk
  exact eq_byteAt_of_getMsbD fun i hi => by rw [byteAt_getMsbD _ _ hi, indexBits_getD_append (by omega)]

/-- The whole bytes of a symbol sequence (R193). -/
def wholeBytes (xs : List Index) : List Byte := firstBytes xs (5 * xs.length / 8)

@[simp] theorem wholeBytes_length (xs : List Index) : (wholeBytes xs).length = 5 * xs.length / 8 := firstBytes_length _ _

/-- Byte `k` of a byte sequence holds the bits from `8k` on. -/
theorem bitString_getD (bytes : List Byte) {k i : Nat} (hk : k < bytes.length) (hi : i < 8) :
    (bitString bytes).getD (8 * k + i) false = bytes[k].getMsbD i := by
  induction bytes using List.reverseRecOn with
  | nil => exact absurd hk (Nat.not_lt_zero k)
  | append_singleton bytes b ih =>
    rw [List.length_append, List.length_singleton] at hk
    obtain hlt | rfl := Nat.lt_succ_iff_lt_or_eq.1 hk
    · rw [bitString_getD_append (by omega), ih hlt, List.getElem_append_left hlt]
    · rw [bitString_getD_last _ _ hi, List.getElem_concat_length rfl]

/-- The bits of the whole bytes are the symbols' bits. -/
theorem bitString_wholeBytes_getD {xs : List Index} {n : Nat} (hn : n < 8 * (5 * xs.length / 8)) :
    (bitString (wholeBytes xs)).getD n false = (indexBits xs).getD n false := by
  have hk : n / 8 < (wholeBytes xs).length := by rw [wholeBytes_length]; omega
  have hbit : n % 8 < 8 := Nat.mod_lt n (by decide)
  have hbyte : (wholeBytes xs)[n / 8] = byteAt (indexBits xs) (n / 8) := by simp [wholeBytes, firstBytes]
  rw [← Nat.div_add_mod n 8, bitString_getD _ hk hbit, hbyte, byteAt_getMsbD _ _ hbit]

/-! ### The leftover -/

theorem leftoverBits_length (xs : List Index) : (leftoverBits xs).length = 5 * xs.length % 8 := by
  rw [leftoverBits, List.length_drop, indexBits_length]
  omega

/-- The leftover bits are those past the whole bytes. -/
theorem true_not_mem_leftoverBits_iff (xs : List Index) :
    true ∉ leftoverBits xs ↔ ∀ i < 5 * xs.length % 8, (indexBits xs).getD (8 * (5 * xs.length / 8) + i) false = false := by
  have hlen := leftoverBits_length xs
  have hget (i : Nat) (hi : i < (leftoverBits xs).length) :
      (leftoverBits xs)[i] = (indexBits xs).getD (8 * (5 * xs.length / 8) + i) false := by
    simp only [leftoverBits, List.getElem_drop]
    rw [List.getD_eq_getElem]
  constructor
  · intro h i hi
    rw [← hget i (by omega)]
    exact Bool.eq_false_iff.2 fun htrue => h (htrue ▸ List.getElem_mem _)
  · intro h hmem
    obtain ⟨i, hi, htrue⟩ := List.getElem_of_mem hmem
    rw [hget i hi, h i (by omega)] at htrue
    exact nomatch htrue

/-- What R194 asks of the leftover bits: at most 4, all of them zero. -/
def ZeroLeftover (xs : List Index) : Prop := (leftoverBits xs).length ≤ 4 ∧ true ∉ leftoverBits xs

/-- Past the whole bytes there are only zeros then. -/
theorem ZeroLeftover.getD_beyond {xs : List Index} (h : ZeroLeftover xs) {n : Nat} (hn : 8 * (5 * xs.length / 8) ≤ n) :
    (indexBits xs).getD n false = false := by
  by_cases hend : n < 5 * xs.length
  · have hzero := (true_not_mem_leftoverBits_iff xs).1 h.2 (n - 8 * (5 * xs.length / 8)) (by omega)
    rwa [Nat.add_sub_cancel' hn] at hzero
  · exact indexBits_getD_beyond (not_lt.1 hend)

/-! ### The symbols of a byte sequence, before the alphabet -/

/-- The 5-bit groups of a byte sequence (41_encoder.md R168). -/
def groupsOf (bytes : List Byte) : List Index := (List.range (encSize bytes.length false)).map (group (bitString bytes))

@[simp] theorem groupsOf_length (bytes : List Byte) : (groupsOf bytes).length = encSize bytes.length false := by simp [groupsOf]

theorem symbolsOf_eq_map (A : Alphabet) (bytes : List Byte) :
    symbolsOf A bytes = (groupsOf bytes).map fun x => A.get x.toFin := by
  rw [groupsOf, List.map_map, encSize_unpadded, Nat.mul_comm]
  rfl

/-- The groups have the bits of the byte sequence, and zeros after them. -/
theorem indexBits_groupsOf_getD (bytes : List Byte) (n : Nat) :
    (indexBits (groupsOf bytes)).getD n false = (bitString bytes).getD n false := by
  by_cases hn : n < 5 * (groupsOf bytes).length
  · have hk : n / 5 < (groupsOf bytes).length := by omega
    have hbit : n % 5 < 5 := Nat.mod_lt n (by decide)
    have hgroup : (groupsOf bytes)[n / 5] = group (bitString bytes) (n / 5) := by simp [groupsOf]
    rw [← Nat.div_add_mod n 5, indexBits_getD _ hk hbit, hgroup, group_getMsbD _ _ hbit]
  · rw [indexBits_getD_beyond (not_lt.1 hn), bitString_getD_beyond]
    rw [groupsOf_length, encSize_unpadded] at hn
    omega

/-- Whole bytes and leftover of the symbols of `n` bytes: there are `n` bytes and at most 4 bits more. -/
theorem encSize_bits (n : Nat) : 5 * encSize n false / 8 = n ∧ 5 * encSize n false % 8 ≤ 4 := by
  have hbytes : 5 * encSize n false / 8 = n := by rw [encSize_unpadded]; omega
  refine ⟨hbytes, ?_⟩
  rw [encSize_unpadded] at hbytes ⊢
  omega

/-- A byte sequence is the whole bytes of its groups (42_decoder.md R201). -/
theorem wholeBytes_groupsOf (bytes : List Byte) : wholeBytes (groupsOf bytes) = bytes := by
  have hlen : (wholeBytes (groupsOf bytes)).length = bytes.length := by
    rw [wholeBytes_length, groupsOf_length, (encSize_bits _).1]
  refine List.ext_getElem hlen fun k hk hk' => BitVec.eq_of_getMsbD_eq fun i hi => ?_
  rw [← bitString_getD _ hk hi, ← bitString_getD _ hk' hi, bitString_wholeBytes_getD, indexBits_groupsOf_getD]
  rw [wholeBytes_length] at hk
  omega

theorem zeroLeftover_groupsOf (bytes : List Byte) : ZeroLeftover (groupsOf bytes) := by
  refine ⟨?_, (true_not_mem_leftoverBits_iff _).2 fun i _ => ?_⟩
  · rw [leftoverBits_length, groupsOf_length]
    exact (encSize_bits _).2
  · rw [indexBits_groupsOf_getD, bitString_getD_beyond]
    rw [groupsOf_length, (encSize_bits _).1]
    exact Nat.le_add_right _ _

/-- Symbols whose leftover R194 accepts are the groups of their whole bytes. -/
theorem groupsOf_wholeBytes {xs : List Index} (h : ZeroLeftover xs) : groupsOf (wholeBytes xs) = xs := by
  have hfew := h.1
  rw [leftoverBits_length] at hfew
  have hlen : (groupsOf (wholeBytes xs)).length = xs.length := by
    rw [groupsOf_length, wholeBytes_length, encSize_unpadded]
    omega
  refine List.ext_getElem hlen fun k hk hk' => BitVec.eq_of_getMsbD_eq fun i hi => ?_
  rw [← indexBits_getD _ hk hi, ← indexBits_getD _ hk' hi, indexBits_groupsOf_getD]
  by_cases hwhole : 5 * k + i < 8 * (5 * xs.length / 8)
  · exact bitString_wholeBytes_getD hwhole
  · rw [h.getD_beyond (not_lt.1 hwhole), bitString_getD_beyond]
    rw [wholeBytes_length]
    omega

/-! ### The pads of an encoding -/

/-- A byte count is whole 5-byte blocks and a part block (41_encoder.md R161). -/
theorem exists_blocks (n : Nat) : ∃ q r, r < 5 ∧ n = 5 * q + r :=
  ⟨n / 5, n % 5, Nat.mod_lt n (by decide), (Nat.div_add_mod n 5).symm⟩

/-- The pads that follow `n` bytes' symbols are those R192 takes off. -/
theorem padReduction_pads (n : Nat) :
    ∃ d, padReduction (encSize n true - encSize n false) = some d ∧ 5 * (encSize n true / 8) - d = n := by
  obtain ⟨q, r, hr, rfl⟩ := exists_blocks n
  rw [encSize_blocks, encSize_blocks, Nat.add_sub_add_left]
  interval_cases r <;> simp [encSize, padReduction] <;> omega

/-- The sizing of R190 undoes the unpadded size. -/
theorem decUb_encSize (n : Nat) : decUb (encSize n false) false = .ok n := by
  obtain ⟨q, r, hr, rfl⟩ := exists_blocks n
  rw [encSize_blocks]
  have hrow : ((8 * q + encSize r false) % 8, r) ∈ [(0, 0), (2, 1), (4, 2), (5, 3), (7, 4)] := by
    interval_cases r <;> simp [encSize]
  rw [decUb_of_row hrow]
  congr 2
  interval_cases r <;> simp [encSize] <;> omega

end Sys2Proof.Machine
end

section
/-! `unpack`'s pipeline against the symbols it reads (42_decoder.md R193 to R195): where it stands after them, and what it
answers by what follows them. -/
namespace Sys2Proof.Machine

/-! ### The accumulator's bits -/

theorem topByte_getMsbD (acc : Acc) (cnt : Count) {i : Nat} (hi : i < 8) :
    (topByte acc cnt).getMsbD i = acc.getLsbD (cnt.toNat + (7 - i)) := by
  have hlow : 7 - i < 8 := by omega
  simp [topByte, BitVec.getMsbD_eq_getLsbD, hi, hlow]

/-- A symbol read moves the held bits up; the 12 bits have room for 7 of them. -/
theorem Pipe.loadSymbol_acc_high (x : Index) (p : Pipe) {j : Nat} (hj : j < 7) :
    (p.loadSymbol x).eng.acc.getLsbD (5 + j) = p.eng.acc.getLsbD j := by
  simp [Pipe.loadSymbol, show 5 + j < 12 by omega, BitVec.getLsbD_eq_getElem (show j < 12 by omega)]

/-- The symbol itself stands in the low bits. -/
theorem Pipe.loadSymbol_acc_low (x : Index) (p : Pipe) {i : Nat} (hi : i < 5) :
    (p.loadSymbol x).eng.acc.getLsbD (4 - i) = x.getMsbD i := by
  have hlow : 4 - i < 5 := by omega
  have hacc : 4 - i < 12 := by omega
  simp [Pipe.loadSymbol, BitVec.getMsbD_eq_getLsbD, hi, hlow, hacc]

/-- The mask of R194 has the low `c` bits. -/
theorem lowMask_getLsbD {c : Nat} (hc : c ≤ 4) (j : Nat) : (((1 : Acc) <<< c) - 1).getLsbD j = decide (j < c) := by
  have hmask : ((1 : Acc) <<< c) - 1 = (BitVec.allOnes c).setWidth 12 := by interval_cases c <;> rfl
  rw [hmask, BitVec.getLsbD_setWidth, BitVec.getLsbD_allOnes]
  by_cases hj : j < c
  · simp [hj, show j < 12 by omega]
  · simp [hj]

theorem lowBits_eq_zero_iff (acc : Acc) {c : Nat} (hc : c ≤ 4) :
    acc &&& (((1 : Acc) <<< c) - 1) = 0 ↔ ∀ j < c, acc.getLsbD j = false := by
  constructor
  · intro h j hj
    have hbit : (acc &&& (((1 : Acc) <<< c) - 1)).getLsbD j = (0 : Acc).getLsbD j := by rw [h]
    rw [BitVec.getLsbD_and, lowMask_getLsbD hc, decide_eq_true hj, Bool.and_true] at hbit
    exact hbit.trans BitVec.getLsbD_zero
  · intro h
    refine BitVec.eq_of_getLsbD_eq fun j _ => ?_
    rw [BitVec.getLsbD_and, lowMask_getLsbD hc]
    by_cases hj : j < c <;> simp [hj, h]

/-! ### Symbols read -/

/-- `unpack`'s pipeline, started as `p₀`, has read the symbols `xs` and written their first `m` bytes; `acc` holds the other
bits read, in its low `cnt` bits (R193). -/
structure Pipe.Unpacked (p₀ : Pipe) (xs : List Index) (m : Nat) (p : Pipe) : Prop where
  output : p.SameOutput (p₀.puts (firstBytes xs m))
  count : 8 * m + p.eng.cnt.toNat = 5 * xs.length
  held (i : Nat) (hi : i < p.eng.cnt.toNat) :
    p.eng.acc.getLsbD (p.eng.cnt.toNat - 1 - i) = (indexBits xs).getD (8 * m + i) false

section Unpacked
variable {p₀ p : Pipe} {xs : List Index} {m : Nat}

theorem Pipe.Unpacked.start (hfresh : p.eng.fresh) : Pipe.Unpacked p [] 0 p := by
  obtain ⟨-, hcnt, -⟩ := hfresh
  have hcnt : p.eng.cnt.toNat = 0 := by rw [hcnt]; rfl
  exact ⟨⟨p.eng.sameOperands_refl, rfl, rfl⟩, by simp [hcnt], fun i hi => by omega⟩

/-- A symbol read puts its bits behind those held, which are at most 7. -/
theorem Pipe.Unpacked.loadSymbol (h : Pipe.Unpacked p₀ xs m p) (hcnt : p.eng.cnt.toNat < 8) (x : Index) :
    Pipe.Unpacked p₀ (xs ++ [x]) m (p.loadSymbol x) := by
  have hadd : (p.loadSymbol x).eng.cnt.toNat = p.eng.cnt.toNat + 5 := by simp only [Pipe.loadSymbol]; bv_omega
  have hcount := h.count
  refine ⟨?_, by rw [hadd, List.length_append, List.length_singleton]; omega, fun i hi => ?_⟩
  · rw [firstBytes_append _ (by omega)]
    exact ⟨h.output.operands, h.output.index, h.output.mem⟩
  · rw [hadd] at hi ⊢
    by_cases hheld : i < p.eng.cnt.toNat
    · rw [indexBits_getD_append (by omega), ← h.held i hheld,
        show p.eng.cnt.toNat + 5 - 1 - i = 5 + (p.eng.cnt.toNat - 1 - i) by omega, p.loadSymbol_acc_high x (by omega)]
    · rw [show 8 * m + i = 5 * xs.length + (i - p.eng.cnt.toNat) by omega, indexBits_getD_last _ _ (by omega),
        show p.eng.cnt.toNat + 5 - 1 - i = 4 - (i - p.eng.cnt.toNat) by omega, p.loadSymbol_acc_low x (by omega)]

/-- With 8 bits or more held, the top 8 are the next byte. -/
theorem Pipe.Unpacked.topByte_eq (h : Pipe.Unpacked p₀ xs m p) (hcnt : 8 ≤ p.eng.cnt.toNat) :
    topByte p.eng.acc (p.eng.cnt - 8) = byteAt (indexBits xs) m := by
  have hsub : (p.eng.cnt - 8).toNat = p.eng.cnt.toNat - 8 := BitVec.toNat_sub_of_le hcnt
  refine eq_byteAt_of_getMsbD fun i hi => ?_
  rw [topByte_getMsbD _ _ hi, hsub, ← h.held i (by omega)]
  congr 1
  omega

theorem Pipe.Unpacked.takeByte (h : Pipe.Unpacked p₀ xs m p) (hcnt : 8 ≤ p.eng.cnt.toNat) :
    Pipe.Unpacked p₀ xs (m + 1) p.takeByte := by
  have hsub : p.takeByte.eng.cnt.toNat = p.eng.cnt.toNat - 8 := BitVec.toNat_sub_of_le hcnt
  have hcount := h.count
  have hout : (p.withCnt (p.eng.cnt - 8)).SameOutput (p₀.puts (firstBytes xs m)) :=
    ⟨h.output.operands, h.output.index, h.output.mem⟩
  refine ⟨?_, by omega, fun i hi => ?_⟩
  · rw [firstBytes_succ, Pipe.puts_append, ← h.topByte_eq hcnt]
    exact hout.put _
  · have hheld := h.held (i + 8) (by omega)
    rw [hsub, show p.eng.cnt.toNat - 8 - 1 - i = p.eng.cnt.toNat - 1 - (i + 8) by omega,
      show 8 * (m + 1) + i = 8 * m + (i + 8) by omega]
    exact hheld

/-- Between two symbols every whole byte is written. -/
theorem Pipe.Unpacked.foldSymbol (h : Pipe.Unpacked p₀ xs (5 * xs.length / 8) p) (x : Index) :
    Pipe.Unpacked p₀ (xs ++ [x]) (5 * (xs ++ [x]).length / 8) (p.foldSymbol x) := by
  have hload := h.loadSymbol (by have := h.count; omega) x
  have hcount := h.count
  have hcount' := hload.count
  rw [List.length_append, List.length_singleton] at hcount' ⊢
  rw [Pipe.foldSymbol_eq]
  split
  case isTrue hmore =>
    rw [show 5 * (xs.length + 1) / 8 = 5 * xs.length / 8 + 1 by omega]
    exact hload.takeByte hmore
  case isFalse hfew =>
    rw [show 5 * (xs.length + 1) / 8 = 5 * xs.length / 8 by omega]
    exact hload

theorem Pipe.Unpacked.cnt_eq (h : Pipe.Unpacked p₀ xs (5 * xs.length / 8) p) : p.eng.cnt.toNat = 5 * xs.length % 8 := by
  have := h.count
  omega

/-- The leftover check is R194's, on the bits the symbols leave over. -/
theorem Pipe.Unpacked.leftoverOk_iff (h : Pipe.Unpacked p₀ xs (5 * xs.length / 8) p) :
    p.eng.leftoverOk = true ↔ ZeroLeftover xs := by
  have hcnt := h.cnt_eq
  rw [Engine.leftoverOk, Bool.and_eq_true, decide_eq_true_eq, beq_iff_eq, ZeroLeftover, leftoverBits_length,
    true_not_mem_leftoverBits_iff, hcnt]
  refine and_congr_right fun hfew => (lowBits_eq_zero_iff _ hfew).trans ⟨fun hzero i hi => ?_, fun hzero j hj => ?_⟩
  · rw [← h.held i (by omega)]
    exact hzero _ (by omega)
  · have hheld := h.held (5 * xs.length % 8 - 1 - j) (by omega)
    rw [hzero _ (by omega), show p.eng.cnt.toNat - 1 - (5 * xs.length % 8 - 1 - j) = j by omega] at hheld
    exact hheld

end Unpacked

/-! ### The source, and `unpack` after its symbols -/

/-- The source of `p` starts with the symbols of `xs`. -/
structure Pipe.Reads (inv : Inverse) (p : Pipe) (xs : List Index) : Prop where
  le : xs.length ≤ p.eng.srcLen.toNat
  symbol (k : Nat) (hk : k < xs.length) : inv.get (p.mem.read (p.eng.srcAddr.toNat + k)).toFin = some xs[k]

/-- Every source has a longest run of symbols at its start. -/
theorem Pipe.exists_reads (inv : Inverse) (p : Pipe) :
    ∃ xs, p.Reads inv xs
      ∧ (xs.length < p.eng.srcLen.toNat → inv.get (p.mem.read (p.eng.srcAddr.toNat + xs.length)).toFin = none) := by
  suffices hrun : ∀ n ≤ p.eng.srcLen.toNat, ∃ xs, p.Reads inv xs ∧ xs.length ≤ n
      ∧ (xs.length < n → inv.get (p.mem.read (p.eng.srcAddr.toNat + xs.length)).toFin = none) by
    obtain ⟨xs, hreads, -, hstop⟩ := hrun _ le_rfl
    exact ⟨xs, hreads, hstop⟩
  intro n
  induction n with
  | zero =>
    exact fun _ => ⟨[], ⟨Nat.zero_le _, fun k hk => absurd hk (Nat.not_lt_zero k)⟩, le_rfl, fun h => absurd h (Nat.lt_irrefl 0)⟩
  | succ n ih =>
    intro hn
    obtain ⟨xs, hreads, hle, hstop⟩ := ih (by omega)
    obtain hlt | heq := hle.lt_or_eq
    · exact ⟨xs, hreads, by omega, fun _ => hstop hlt⟩
    · cases hx : inv.get (p.mem.read (p.eng.srcAddr.toNat + xs.length)).toFin with
      | none => exact ⟨xs, hreads, by omega, fun _ => hx⟩
      | some x =>
        refine ⟨xs ++ [x], ⟨by simp; omega, fun k hk => ?_⟩, by simp; omega, by simp; omega⟩
        rw [List.length_append, List.length_singleton] at hk
        obtain hlt | rfl := Nat.lt_succ_iff_lt_or_eq.1 hk
        · rw [hreads.symbol k hlt, List.getElem_append_left hlt]
        · rw [hx, List.getElem_concat_length rfl]

/-- `unpack`, started as `p₀`, stands behind the symbols `xs` of its source. -/
structure Pipe.AfterSymbols (inv : Inverse) (limit : Nat) (p₀ : Pipe) (xs : List Index) (p : Pipe) : Prop where
  unpacking : Pipe.Unpacking limit p₀ p
  unpacked : Pipe.Unpacked p₀ xs (5 * xs.length / 8) p
  index : p.eng.i.toNat = xs.length
  phase : p.eng.phase = .reading5BitSymbols
  padAt : p.eng.padAt = none
  rest (padEn : Bool) (pad : Byte) : p.unpackRest inv padEn pad = p₀.unpackRest inv padEn pad

theorem Pipe.foldSymbol_padAt (x : Index) (p : Pipe) : (p.foldSymbol x).eng.padAt = p.eng.padAt := by
  rw [Pipe.foldSymbol_eq]
  split <;> rfl

/-- A symbol read is the first thing `unpack` does with it. -/
theorem Pipe.unpackRest_foldSymbol {inv : Inverse} {p : Pipe} (hphase : p.eng.phase = .reading5BitSymbols)
    (hi : p.eng.i.toNat < p.eng.srcLen.toNat) {x : Index} (hx : inv.get p.sourceByte.toFin = some x)
    (padEn : Bool) (pad : Byte) : (p.foldSymbol x).unpackRest inv padEn pad = p.unpackRest inv padEn pad := by
  obtain ⟨-, -, hlen, -⟩ := (p.keeps_foldSymbol x).1
  obtain ⟨hnext, hphase'⟩ := p.foldSymbol_index_phase x
  rw [Pipe.unpackRest_of_reading (hphase'.trans hphase), Pipe.unpackRest_of_reading hphase, Word.remaining_succ hi, hnext, hlen,
    Pipe.readSymbols, hx]

section AfterSymbols
variable {inv : Inverse} {limit : Nat} {p₀ p : Pipe} {xs : List Index}

theorem Pipe.AfterSymbols.sourceByte_eq (h : Pipe.AfterSymbols inv limit p₀ xs p) (hbuf : p₀.eng.buffersOk)
    (hmore : xs.length < p₀.eng.srcLen.toNat) : p.sourceByte = p₀.mem.read (p₀.eng.srcAddr.toNat + xs.length) := by
  rw [h.unpacking.confined.sourceByte_eq hbuf (by rwa [h.index]), h.index]

theorem Pipe.AfterSymbols.srcLen_eq (h : Pipe.AfterSymbols inv limit p₀ xs p) : p.eng.srcLen = p₀.eng.srcLen := by
  obtain ⟨-, -, hlen, -⟩ := h.unpacking.confined.operands
  exact hlen

theorem Pipe.AfterSymbols.foldSymbol (hlim : p₀.SymbolLimit inv limit) (hbuf : p₀.eng.buffersOk)
    (h : Pipe.AfterSymbols inv limit p₀ xs p) (hmore : xs.length < p₀.eng.srcLen.toNat) {x : Index}
    (hx : inv.get (p₀.mem.read (p₀.eng.srcAddr.toNat + xs.length)).toFin = some x) :
    Pipe.AfterSymbols inv limit p₀ (xs ++ [x]) (p.foldSymbol x) := by
  have hi : p.eng.i.toNat < p₀.eng.srcLen.toNat := by rwa [h.index]
  obtain ⟨hnext, hphase⟩ := p.foldSymbol_index_phase x
  rw [← h.sourceByte_eq hbuf hmore] at hx
  refine ⟨h.unpacking.foldSymbol hlim hbuf hi hx, h.unpacked.foldSymbol x, ?_, hphase.trans h.phase,
    (p.foldSymbol_padAt x).trans h.padAt, fun padEn pad => ?_⟩
  · rw [hnext, Word.succ_toNat (by have := p₀.eng.srcLen.isLt; omega), h.index, List.length_append, List.length_singleton]
  · rw [Pipe.unpackRest_foldSymbol h.phase (by rwa [h.srcLen_eq]) hx, h.rest]

/-- A just issued `unpack` reads the symbols its source starts with. -/
theorem Pipe.Reads.exists_afterSymbols (hlim : p₀.SymbolLimit inv limit) (hbuf : p₀.eng.buffersOk) (hfresh : p₀.eng.fresh)
    (h : p₀.Reads inv xs) : ∃ p, Pipe.AfterSymbols inv limit p₀ xs p := by
  induction xs using List.reverseRecOn with
  | nil =>
    have hstart := Pipe.Unpacking.start hfresh limit
    have hunpacked := Pipe.Unpacked.start hfresh
    obtain ⟨-, -, hi, -, hat, hphase⟩ := hfresh
    exact ⟨p₀, hstart, hunpacked, by rw [hi]; rfl, hphase, hat, fun _ _ => rfl⟩
  | append_singleton xs x ih =>
    obtain ⟨hle, hsymbol⟩ := h
    rw [List.length_append, List.length_singleton] at hle
    obtain ⟨p, hp⟩ := ih ⟨by omega, fun k hk => by rw [hsymbol k (by simp; omega), List.getElem_append_left hk]⟩
    exact ⟨_, hp.foldSymbol hlim hbuf hle (by rw [hsymbol _ (by simp), List.getElem_concat_length rfl])⟩

/-- At the end of the source the checks come next (R194). -/
theorem Pipe.AfterSymbols.unpackRest_atEnd (h : Pipe.AfterSymbols inv limit p₀ xs p) (hend : xs.length = p₀.eng.srcLen.toNat)
    (padEn : Bool) (pad : Byte) : p₀.unpackRest inv padEn pad = p.checkTail inv pad := by
  have hdone : p.eng.srcLen.toNat - p.eng.i.toNat = 0 := by rw [h.srcLen_eq, h.index, hend, Nat.sub_self]
  rw [← h.rest, Pipe.unpackRest_of_reading h.phase, hdone]
  rfl

/-- The loop's answer at a byte that is no symbol (R193). -/
theorem Pipe.AfterSymbols.unpackRest_atStop (h : Pipe.AfterSymbols inv limit p₀ xs p) (hbuf : p₀.eng.buffersOk)
    (hmore : xs.length < p₀.eng.srcLen.toNat)
    (hstop : inv.get (p₀.mem.read (p₀.eng.srcAddr.toNat + xs.length)).toFin = none) (padEn : Bool) (pad : Byte) :
    p₀.unpackRest inv padEn pad
      = if padEn && p₀.mem.read (p₀.eng.srcAddr.toNat + xs.length) == pad then p.enterTail.checkTail inv pad
        else .error .invalidCharacter := by
  have hi : p.eng.i.toNat < p.eng.srcLen.toNat := by rwa [h.srcLen_eq, h.index]
  rw [← h.sourceByte_eq hbuf hmore] at hstop ⊢
  rw [← h.rest, Pipe.unpackRest_of_reading h.phase, Word.remaining_succ hi, Pipe.readSymbols, hstop]
  dsimp only
  split <;> rfl

/-! ### The checks after the loop -/

theorem Pipe.checkTail_of_leftover {pad : Byte} (h : p.eng.leftoverOk = false) :
    p.checkTail inv pad = .error .invalidPadding := by
  simp [Pipe.checkTail, h]

theorem Pipe.leftoverOk_of_checkTail {pad : Byte} {q : Pipe} (h : p.checkTail inv pad = .ok q) : p.eng.leftoverOk = true := by
  by_contra hno
  exact nomatch h.symm.trans (Pipe.checkTail_of_leftover (Bool.eq_false_iff.2 hno))

/-- At the start of a block no pad may stand (R195). -/
theorem Pipe.checkTail_enterTail_of_no_need {pad : Byte} (h : padNeed p.eng.cnt = none) :
    p.enterTail.checkTail inv pad = .error .invalidPadding := by
  have hneed : padNeed p.enterTail.eng.cnt = none := h
  simp only [Pipe.checkTail, hneed]
  split <;> rfl

/-- Behind whole symbols the tail's bytes are checked, then their number (R195). -/
theorem Pipe.checkTail_enterTail {pad : Byte} {need : Nat} (hleft : p.eng.leftoverOk = true)
    (hneed : padNeed p.eng.cnt = some need) :
    p.enterTail.checkTail inv pad
      = (p.mem.tailCheck p.eng.srcAddr inv pad (p.eng.srcLen.toNat - p.eng.i.toNat) p.eng.i).bind fun _ =>
        if p.eng.srcLen.toNat - p.eng.i.toNat = need then .ok p.enterTail else .error .invalidPadding := by
  have hleft' : p.enterTail.eng.leftoverOk = true := hleft
  have hneed' : padNeed p.enterTail.eng.cnt = some need := hneed
  have hat : p.enterTail.eng.padAt = some p.eng.i := rfl
  simp only [Pipe.checkTail, hleft', hneed', hat, Bool.not_true, Bool.false_eq_true, if_false]
  cases htail : p.mem.tailCheck p.eng.srcAddr inv pad (p.eng.srcLen.toNat - p.eng.i.toNat) p.eng.i with
  | error k => simp [Pipe.enterTail, htail, Except.bind]
  | ok u =>
    obtain rfl | hcount := eq_or_ne (p.eng.srcLen.toNat - p.eng.i.toNat) need
    · simp [Pipe.enterTail, htail, Except.bind]
    · simp [Pipe.enterTail, htail, Except.bind, hcount]

/-- All the checks a tail has passed (R194, R195). -/
theorem Pipe.checkTail_enterTail_ok {pad : Byte} {q : Pipe} (h : p.enterTail.checkTail inv pad = .ok q) :
    p.eng.leftoverOk = true ∧ ∃ need, padNeed p.eng.cnt = some need
      ∧ p.mem.tailCheck p.eng.srcAddr inv pad (p.eng.srcLen.toNat - p.eng.i.toNat) p.eng.i = .ok ()
      ∧ p.eng.srcLen.toNat - p.eng.i.toNat = need ∧ q = p.enterTail := by
  have hleft : p.eng.leftoverOk = true := Pipe.leftoverOk_of_checkTail (p := p.enterTail) h
  cases hneed : padNeed p.eng.cnt with
  | none => exact nomatch h.symm.trans (Pipe.checkTail_enterTail_of_no_need hneed)
  | some need =>
    have hsame := Pipe.checkTail_ok h
    rw [Pipe.checkTail_enterTail hleft hneed] at h
    cases htail : p.mem.tailCheck p.eng.srcAddr inv pad (p.eng.srcLen.toNat - p.eng.i.toNat) p.eng.i with
    | error k =>
      rw [htail] at h
      exact nomatch h
    | ok u =>
      rw [htail] at h
      refine ⟨hleft, need, rfl, rfl, ?_, hsame⟩
      by_contra hcount
      exact nomatch h.symm.trans (if_neg hcount)

/-- The pad bytes a leftover needs, row by row of R195. -/
theorem padNeed_eq_some_iff {cnt : Count} {need : Nat} :
    padNeed cnt = some need ↔ (cnt.toNat, need) ∈ [(2, 6), (4, 4), (1, 3), (3, 1)] := by
  simp only [List.mem_cons, Prod.mk.injEq, List.not_mem_nil, or_false]
  unfold padNeed
  split <;> simp_all <;> omega

theorem padNeed_eq_none {cnt : Count} (h : cnt.toNat = 0) : padNeed cnt = none := by
  simp [padNeed, h]

/-- A tail of pads only passes (R195). -/
theorem Memory.tailCheck_of_pads {m : Memory} {a : Word} {pad : Byte} :
    ∀ {k : Nat} {j : Word}, a.toNat + j.toNat + k ≤ 4294967296 → j.toNat + k < 4294967296 →
      (∀ i < k, m.read (a.toNat + j.toNat + i) = pad) → m.tailCheck a inv pad k j = .ok ()
  | 0, _, _, _, _ => rfl
  | k + 1, j, hfits, hcounts, hpads => by
    have hnext : (j + 1).toNat = j.toNat + 1 := Word.succ_toNat (by omega)
    have hread : m.read (a + j).toNat = pad := by
      rw [Word.add_toNat_of_le _ _ (by omega)]
      exact hpads 0 (Nat.succ_pos k)
    rw [Memory.tailCheck]
    simp only [hread, if_true]
    refine Memory.tailCheck_of_pads (by omega) (by omega) fun i hi => ?_
    rw [hnext, show a.toNat + (j.toNat + 1) + i = a.toNat + j.toNat + (i + 1) by omega]
    exact hpads (i + 1) (by omega)

/-- The first byte of a tail that is not the pad decides (R195, 90_conflicts.md C1). -/
theorem Memory.tailCheck_of_first {m : Memory} {a : Word} {pad : Byte} :
    ∀ {d k : Nat} {j : Word}, d < k → a.toNat + j.toNat + k ≤ 4294967296 → j.toNat + k < 4294967296 →
      (∀ i < d, m.read (a.toNat + j.toNat + i) = pad) → m.read (a.toNat + j.toNat + d) ≠ pad →
      m.tailCheck a inv pad k j = .error (tailError inv (m.read (a.toNat + j.toNat + d)))
  | 0, k + 1, j, _, hfits, _, _, hbad => by
    have haddr : (a + j).toNat = a.toNat + j.toNat + 0 := Word.add_toNat_of_le _ _ (by omega)
    rw [Memory.tailCheck]
    simp only [haddr, if_neg hbad]
  | d + 1, k + 1, j, hd, hfits, hcounts, hpads, hbad => by
    have hnext : (j + 1).toNat = j.toNat + 1 := Word.succ_toNat (by omega)
    have hshift (i : Nat) : a.toNat + (j + 1).toNat + i = a.toNat + j.toNat + (i + 1) := by omega
    have hread : m.read (a + j).toNat = pad := by
      rw [Word.add_toNat_of_le _ _ (by omega)]
      exact hpads 0 (Nat.succ_pos d)
    rw [Memory.tailCheck]
    simp only [hread, if_true]
    rw [Memory.tailCheck_of_first (d := d) (by omega) (by omega) (by omega)
      (fun i hi => by rw [hshift]; exact hpads (i + 1) (by omega)) (by rwa [hshift]), hshift]

/-! ### What follows the symbols -/

/-- Of the bytes a tail check reads, none has been written. -/
theorem Pipe.AfterSymbols.read_tail (h : Pipe.AfterSymbols inv limit p₀ xs p) (hbuf : p₀.eng.buffersOk) {i : Nat}
    (hi : xs.length + i < p₀.eng.srcLen.toNat) :
    p.mem.read (p.eng.srcAddr.toNat + p.eng.i.toNat + i) = p₀.mem.read (p₀.eng.srcAddr.toNat + (xs.length + i)) := by
  obtain ⟨-, hsrc, -⟩ := h.unpacking.confined.operands
  rw [hsrc, h.index, Nat.add_assoc, h.unpacking.confined.read_source hbuf hi]

/-- A tail check's addresses do not wrap. -/
theorem Pipe.AfterSymbols.tail_fits (h : Pipe.AfterSymbols inv limit p₀ xs p) (hbuf : p₀.eng.buffersOk)
    (hle : xs.length ≤ p₀.eng.srcLen.toNat) :
    p.eng.srcAddr.toNat + p.eng.i.toNat + (p.eng.srcLen.toNat - p.eng.i.toNat) ≤ 4294967296
      ∧ p.eng.i.toNat + (p.eng.srcLen.toNat - p.eng.i.toNat) < 4294967296 := by
  obtain ⟨-, hsrc, hlen, -⟩ := h.unpacking.confined.operands
  have hfits := hbuf.1
  have hbound := p₀.eng.srcLen.isLt
  rw [hsrc, hlen, h.index]
  omega

/-- The tail is checked on the bytes of the source as it was issued. -/
theorem Pipe.AfterSymbols.tailCheck_of_pads (h : Pipe.AfterSymbols inv limit p₀ xs p) (hbuf : p₀.eng.buffersOk)
    (hle : xs.length ≤ p₀.eng.srcLen.toNat) {pad : Byte}
    (hpads : ∀ k, xs.length ≤ k → k < p₀.eng.srcLen.toNat → p₀.mem.read (p₀.eng.srcAddr.toNat + k) = pad) :
    p.mem.tailCheck p.eng.srcAddr inv pad (p.eng.srcLen.toNat - p.eng.i.toNat) p.eng.i = .ok () := by
  obtain ⟨hfits, hcounts⟩ := h.tail_fits hbuf hle
  refine Memory.tailCheck_of_pads hfits hcounts fun i hi => ?_
  rw [h.srcLen_eq, h.index] at hi
  rw [h.read_tail hbuf (by omega), hpads _ (Nat.le_add_right _ i) (by omega)]

theorem Pipe.AfterSymbols.tailCheck_of_first (h : Pipe.AfterSymbols inv limit p₀ xs p) (hbuf : p₀.eng.buffersOk) {pad : Byte}
    {j : Nat} (hle : xs.length ≤ j) (hj : j < p₀.eng.srcLen.toNat)
    (hpads : ∀ k, xs.length ≤ k → k < j → p₀.mem.read (p₀.eng.srcAddr.toNat + k) = pad)
    (hbad : p₀.mem.read (p₀.eng.srcAddr.toNat + j) ≠ pad) :
    p.mem.tailCheck p.eng.srcAddr inv pad (p.eng.srcLen.toNat - p.eng.i.toNat) p.eng.i
      = .error (tailError inv (p₀.mem.read (p₀.eng.srcAddr.toNat + j))) := by
  obtain ⟨hfits, hcounts⟩ := h.tail_fits hbuf (by omega)
  have hread := h.read_tail hbuf (i := j - xs.length) (by omega)
  rw [Nat.add_sub_cancel' hle] at hread
  rw [← hread] at hbad ⊢
  refine Memory.tailCheck_of_first (by rw [h.srcLen_eq, h.index]; omega) hfits hcounts (fun i hi => ?_) hbad
  rw [h.read_tail hbuf (by omega), hpads _ (Nat.le_add_right _ i) (by omega)]

/-- A tail that passes is pads only. -/
theorem Pipe.AfterSymbols.pads_of_tailCheck (h : Pipe.AfterSymbols inv limit p₀ xs p) (hbuf : p₀.eng.buffersOk) {pad : Byte}
    (hok : p.mem.tailCheck p.eng.srcAddr inv pad (p.eng.srcLen.toNat - p.eng.i.toNat) p.eng.i = .ok ()) :
    ∀ k, xs.length ≤ k → k < p₀.eng.srcLen.toNat → p₀.mem.read (p₀.eng.srcAddr.toNat + k) = pad := by
  intro k
  induction k using Nat.strong_induction_on with
  | _ k ih =>
    intro hle hk
    by_contra hbad
    have herr := h.tailCheck_of_first hbuf hle hk (fun i hi hik => ih i hik hi (hik.trans hk)) hbad
    exact nomatch hok.symm.trans herr

end AfterSymbols

end Sys2Proof.Machine
end

section
/-! DECODE against encodings (42_decoder.md R201), and the errors inside `unpack` (R193 to R195, R204). -/
namespace Sys2Proof.Machine

/-! ### The table of an alphabet -/

/-- The inverse table and the pad are those of a bundle on `A` (40_configuration.md R136), as `State.decodesAlphabet` says of a
state's own. -/
def Decodes (inv : Inverse) (A : Alphabet) (padEn : Bool) (pad : Byte) : Prop :=
  (∀ (b : Byte) (i : Index), inv.get b.toFin = some i ↔ A.get i.toFin = b)
    ∧ (padEn = true → ∀ i : Index, A.get i.toFin ≠ pad)

theorem State.decodesAlphabet_iff (s : State) (A : Alphabet) :
    s.decodesAlphabet A ↔ Decodes s.decInv A s.decPadEn s.decPad := Iff.rfl

/-- A configured pad is no symbol (10_state.md R42). -/
theorem Decodes.pad_none {inv : Inverse} {A : Alphabet} {padEn : Bool} {pad : Byte} (h : Decodes inv A padEn pad)
    (hpe : padEn = true) : inv.get pad.toFin = none := by
  cases hx : inv.get pad.toFin with
  | none => rfl
  | some i => exact absurd ((h.1 pad i).1 hx) (h.2 hpe i)

/-- The configuration invariant gives the alphabet back (10_state.md R41, R42). -/
theorem State.decoderInv.exists_decodesAlphabet {s : State} (h : s.decoderInv) (hv : s.decValid = true) :
    ∃ A, s.decodesAlphabet A := by
  obtain ⟨hentry, -, hpad⟩ := h.1 hv
  choose f hf huniq using hentry
  have hget (i : Index) : (Vector.ofFn fun k : Fin 32 => f (BitVec.ofFin k)).get i.toFin = f i := Vector.get_ofFn _ _
  refine ⟨Vector.ofFn fun k : Fin 32 => f (BitVec.ofFin k), fun b i => ?_, fun hpe i hi => ?_⟩
  · rw [hget]
    exact ⟨fun hb => (huniq i b hb).symm, fun hb => hb ▸ hf i⟩
  · rw [hget] at hi
    have hsymbol := hf i
    rw [hi, hpad hpe] at hsymbol
    exact nomatch hsymbol

/-! ### Encodings in memory -/

theorem Memory.bytes_append (m : Memory) (a n k : Nat) : m.bytes a (n + k) = m.bytes a n ++ m.bytes (a + n) k := by
  induction n generalizing a with
  | zero => simp [Memory.bytes]
  | succ n ih => simp [Memory.bytes, Nat.succ_add, ih, Nat.add_assoc]

theorem Memory.bytes_eq_replicate_iff (m : Memory) (a n : Nat) (v : Byte) :
    m.bytes a n = List.replicate n v ↔ ∀ k < n, m.read (a + k) = v := by
  constructor
  · intro h k hk
    rw [← m.bytes_getElem a n k (by simpa using hk), List.getElem_of_eq h, List.getElem_replicate]
  · intro h
    refine List.ext_getElem (by simp) fun k hk _ => ?_
    rw [Memory.bytes_getElem, List.getElem_replicate, h k (by simpa using hk)]

/-- A run of bytes written reads back as that run. -/
theorem Memory.bytes_writeBytes {m : Memory} (hm : m.wf = true) {a : Nat} {bytes : List Byte}
    (hfits : a + bytes.length ≤ Config.addrSpace) : (m.writeBytes a bytes).bytes a bytes.length = bytes := by
  refine List.ext_getElem (by simp) fun k _ hk => ?_
  rw [Memory.bytes_getElem, Memory.read_writeBytes_inside bytes hfits hm k hk]

/-- An encoding is the symbols, then the pads up to its size. -/
theorem encodingOf_eq_append (A : Alphabet) (padEn : Bool) (pad : Byte) (bytes : List Byte) :
    encodingOf A padEn pad bytes
      = symbolsOf A bytes ++ List.replicate (encSize bytes.length padEn - encSize bytes.length false) pad := by
  cases padEn with
  | false => rw [encodingOf_unpadded, Nat.sub_self, List.replicate_zero, List.append_nil]
  | true => exact encodingOf_padded A pad bytes

theorem encSize_false_le (n : Nat) (padEn : Bool) : encSize n false ≤ encSize n padEn := by
  cases padEn with
  | false => exact le_rfl
  | true => exact encSize_false_le_true n

/-- The bytes from `a` on are an encoding: first its symbols, then pads only (R164, R168). -/
theorem Memory.bytes_eq_encodingOf_iff {m : Memory} {a n : Nat} {A : Alphabet} {padEn : Bool} {pad : Byte} {bytes : List Byte} :
    m.bytes a n = encodingOf A padEn pad bytes ↔
      n = encSize bytes.length padEn ∧ m.bytes a (groupsOf bytes).length = (groupsOf bytes).map (fun x => A.get x.toFin)
        ∧ ∀ k, (groupsOf bytes).length ≤ k → k < n → m.read (a + k) = pad := by
  have hle : (groupsOf bytes).length ≤ encSize bytes.length padEn := by
    rw [groupsOf_length]
    exact encSize_false_le _ _
  have hsplit : m.bytes a (encSize bytes.length padEn) = encodingOf A padEn pad bytes ↔
      m.bytes a (groupsOf bytes).length = (groupsOf bytes).map (fun x => A.get x.toFin)
        ∧ ∀ k < encSize bytes.length padEn - (groupsOf bytes).length, m.read (a + (groupsOf bytes).length + k) = pad := by
    rw [← Memory.bytes_eq_replicate_iff, encodingOf_eq_append, symbolsOf_eq_map, ← groupsOf_length bytes]
    conv_lhs => lhs; rw [← Nat.add_sub_cancel' hle, Memory.bytes_append]
    exact ⟨fun h => List.append_inj h (by simp), fun h => by rw [h.1, h.2]⟩
  constructor
  · intro h
    obtain rfl : n = encSize bytes.length padEn := by simpa using congrArg List.length h
    obtain ⟨hsymbols, hpads⟩ := hsplit.1 h
    refine ⟨rfl, hsymbols, fun k hk hn => ?_⟩
    have hpad := hpads (k - (groupsOf bytes).length) (by omega)
    rwa [Nat.add_assoc, Nat.add_sub_cancel' hk] at hpad
  · rintro ⟨rfl, hsymbols, hpads⟩
    refine hsplit.2 ⟨hsymbols, fun k hk => ?_⟩
    rw [Nat.add_assoc]
    exact hpads _ (Nat.le_add_right _ k) (by omega)

/-- The pads after `n` bytes' symbols are as many as the leftover bits need (R195). -/
theorem padNeed_encSize {cnt : Count} {n need : Nat} (hcnt : cnt.toNat = 5 * encSize n false % 8) :
    padNeed cnt = some need ↔ encSize n true - encSize n false = need ∧ need ≠ 0 := by
  rw [padNeed_eq_some_iff, hcnt]
  obtain ⟨q, r, hr, rfl⟩ := exists_blocks n
  rw [encSize_blocks, encSize_blocks, Nat.add_sub_add_left, Nat.mul_add, ← Nat.mul_assoc, Nat.mul_comm 5 8, Nat.mul_assoc,
    Nat.mul_add_mod]
  simp only [List.mem_cons, Prod.mk.injEq, List.not_mem_nil, or_false]
  interval_cases r <;> simp [encSize] <;> omega

section Table
variable {inv : Inverse} {A : Alphabet} {padEn : Bool} {pad : Byte} (hA : Decodes inv A padEn pad)
include hA

/-- Symbols of the alphabet are what `unpack` reads. -/
theorem Pipe.reads_of_bytes {p : Pipe} {xs : List Index} (hle : xs.length ≤ p.eng.srcLen.toNat)
    (h : p.mem.bytes p.eng.srcAddr.toNat xs.length = xs.map (fun x => A.get x.toFin)) : p.Reads inv xs := by
  refine ⟨hle, fun k hk => (hA.1 _ _).2 ?_⟩
  rw [← p.mem.bytes_getElem _ xs.length k (by simpa using hk), List.getElem_of_eq h, List.getElem_map]

theorem Pipe.Reads.bytes_eq {p : Pipe} {xs : List Index} (h : p.Reads inv xs) :
    p.mem.bytes p.eng.srcAddr.toNat xs.length = xs.map (fun x => A.get x.toFin) := by
  refine List.ext_getElem (by simp) fun k hk _ => ?_
  rw [Memory.bytes_getElem, List.getElem_map, (hA.1 _ _).1 (h.symbol k (by simpa using hk))]

/-- Sizing an encoding answers the number of bytes encoded (R192, R201). -/
theorem Memory.decSlice_of_encoding {m : Memory} {a : Word} {n : Nat} {bytes : List Byte} (hfits : a.toNat + n ≤ 4294967296)
    (h : m.bytes a.toNat n = encodingOf A padEn pad bytes) : m.decSlice a n padEn pad = .ok bytes.length := by
  obtain ⟨rfl, hsymbols, hpads⟩ := Memory.bytes_eq_encodingOf_iff.1 h
  cases hpe : padEn with
  | false => rw [Memory.decSlice_unpadded, decUb_encSize]
  | true =>
    subst hpe
    have hle := encSize_false_le_true bytes.length
    have hcount : m.trailingPads a pad (encSize bytes.length true)
        = encSize bytes.length true - encSize bytes.length false := by
      refine Memory.trailingPads_eq hfits (Nat.sub_le _ _) (fun j hj => ?_) (fun hlt => ?_)
      · exact hpads _ (by rw [groupsOf_length]; omega) (by omega)
      · have hlast : encSize bytes.length true - 1 - (encSize bytes.length true - encSize bytes.length false)
            < (groupsOf bytes).length := by rw [groupsOf_length]; omega
        rw [← m.bytes_getElem _ (groupsOf bytes).length _ (by simpa using hlast), List.getElem_of_eq hsymbols, List.getElem_map]
        exact hA.2 rfl _
    obtain ⟨d, hd, hsize⟩ := padReduction_pads bytes.length
    rw [Memory.decSlice_of_reduction (by rw [encSize_padded]; omega) (by rw [hcount]; exact hd), hsize]

/-- Where DST_LEN is the exact size, the symbols of the source complete at most DST_LEN bytes (R200). -/
theorem Pipe.symbolLimit_of_decSlice {p : Pipe} (hbuf : p.eng.buffersOk)
    (h : p.mem.decSlice p.eng.srcAddr p.eng.srcLen.toNat padEn pad = .ok p.eng.dstLen.toNat) :
    ∃ limit, p.SymbolLimit inv limit := by
  obtain ⟨limit, hle, hbytes, hpads⟩ := Memory.decSlice_limit h
  refine ⟨limit, hle, hbytes, fun j hj hn => ?_⟩
  obtain ⟨hpe, hpad⟩ := hpads j hj hn
  rw [Word.offset_toNat hbuf.1 hn] at hpad
  rw [hpad, hA.pad_none hpe]

section Source
variable {limit : Nat} {p₀ p : Pipe} {xs : List Index}

/-- At a first pad byte the checks of the tail come next (R193). -/
theorem Pipe.AfterSymbols.unpackRest_atPad (h : Pipe.AfterSymbols inv limit p₀ xs p) (hbuf : p₀.eng.buffersOk)
    (hpe : padEn = true) (hmore : xs.length < p₀.eng.srcLen.toNat)
    (hpad : p₀.mem.read (p₀.eng.srcAddr.toNat + xs.length) = pad) :
    p₀.unpackRest inv padEn pad = p.enterTail.checkTail inv pad := by
  have hstop := h.unpackRest_atStop hbuf hmore (by rw [hpad]; exact hA.pad_none hpe) padEn pad
  rwa [if_pos (by simp [hpe, hpad])] at hstop

variable (hlim : p₀.SymbolLimit inv limit) (hbuf : p₀.eng.buffersOk) (hfresh : p₀.eng.fresh)
include hlim hbuf hfresh

/-- `unpack` accepts an encoding and writes the bytes encoded (R201). -/
theorem Pipe.unpackRest_of_encoding {bytes : List Byte}
    (h : p₀.mem.bytes p₀.eng.srcAddr.toNat p₀.eng.srcLen.toNat = encodingOf A padEn pad bytes) :
    ∃ r, p₀.unpackRest inv padEn pad = .ok r ∧ r.SameOutput (p₀.puts bytes) := by
  obtain ⟨hlen, hsymbols, hpads⟩ := Memory.bytes_eq_encodingOf_iff.1 h
  have hle : (groupsOf bytes).length ≤ p₀.eng.srcLen.toNat := by
    rw [hlen, groupsOf_length]
    exact encSize_false_le _ _
  obtain ⟨q, hq⟩ := (Pipe.reads_of_bytes hA hle hsymbols).exists_afterSymbols hlim hbuf hfresh
  have hleft := hq.unpacked.leftoverOk_iff.2 (zeroLeftover_groupsOf bytes)
  have hout : q.SameOutput (p₀.puts bytes) := by
    have hwhole := hq.unpacked.output
    rwa [← wholeBytes, wholeBytes_groupsOf] at hwhole
  obtain hend | hmore := hle.eq_or_lt
  · exact ⟨q, by rw [hq.unpackRest_atEnd hend, Pipe.checkTail_of_noPad hleft hq.padAt], hout⟩
  · obtain rfl : padEn = true := by
      by_contra hpe
      rw [hlen, groupsOf_length, Bool.eq_false_iff.2 hpe] at hmore
      exact Nat.lt_irrefl _ hmore
    have hneed : padNeed q.eng.cnt = some (p₀.eng.srcLen.toNat - (groupsOf bytes).length) := by
      rw [hlen, groupsOf_length] at hmore ⊢
      exact (padNeed_encSize (by rw [hq.unpacked.cnt_eq, groupsOf_length])).2 ⟨rfl, by omega⟩
    refine ⟨q.enterTail, ?_, hout.operands, hout.index, hout.mem⟩
    rw [hq.unpackRest_atPad hA hbuf rfl hmore (hpads _ le_rfl hmore), Pipe.checkTail_enterTail hleft hneed,
      hq.tailCheck_of_pads hbuf hle hpads, hq.srcLen_eq, hq.index]
    exact if_pos rfl

/-- `unpack` accepts nothing else: where it answers `Ok` the source is an encoding of the bytes written (R201). -/
theorem Pipe.encoding_of_unpackRest {r : Pipe} (hblocks : padEn = true → p₀.eng.srcLen.toNat % 8 = 0)
    (h : p₀.unpackRest inv padEn pad = .ok r) :
    ∃ bytes, p₀.mem.bytes p₀.eng.srcAddr.toNat p₀.eng.srcLen.toNat = encodingOf A padEn pad bytes
      ∧ r.SameOutput (p₀.puts bytes) := by
  obtain ⟨xs, hreads, hstop⟩ := p₀.exists_reads inv
  obtain ⟨q, hq⟩ := hreads.exists_afterSymbols hlim hbuf hfresh
  have hsymbols := hreads.bytes_eq hA
  have hwhole (hleft : q.eng.leftoverOk = true) : ∃ bytes, xs = groupsOf bytes ∧ q.SameOutput (p₀.puts bytes) :=
    ⟨wholeBytes xs, (groupsOf_wholeBytes (hq.unpacked.leftoverOk_iff.1 hleft)).symm, hq.unpacked.output⟩
  obtain hend | hmore := hreads.le.eq_or_lt
  · rw [hq.unpackRest_atEnd hend] at h
    obtain ⟨bytes, rfl, hout⟩ := hwhole (Pipe.leftoverOk_of_checkTail h)
    obtain rfl := Pipe.checkTail_ok h
    rw [groupsOf_length] at hend
    have hno_tail (k : Nat) (hk : (groupsOf bytes).length ≤ k) : ¬k < p₀.eng.srcLen.toNat := by
      rw [groupsOf_length] at hk
      omega
    refine ⟨bytes, Memory.bytes_eq_encodingOf_iff.2 ⟨?_, hsymbols, fun k hk hn => absurd hn (hno_tail k hk)⟩, hout⟩
    cases hpe : padEn with
    | false => exact hend.symm
    | true =>
      have hpads := padFill_length bytes.length
      have hle := encSize_false_le_true bytes.length
      have := hblocks hpe
      omega
  · rw [hq.unpackRest_atStop hbuf hmore (hstop hmore)] at h
    split at h
    case isFalse => exact nomatch h
    case isTrue hpe =>
      obtain ⟨hleft, need, hneed, htail, hcount, rfl⟩ := Pipe.checkTail_enterTail_ok h
      obtain ⟨bytes, rfl, hout⟩ := hwhole hleft
      have hsize := (padNeed_encSize (by rw [hq.unpacked.cnt_eq, groupsOf_length])).1 hneed
      have hpads := hq.pads_of_tailCheck hbuf htail
      rw [hq.srcLen_eq, hq.index, groupsOf_length] at hcount
      rw [groupsOf_length] at hmore
      obtain rfl : padEn = true := (Bool.and_eq_true_iff.1 hpe).1
      exact ⟨bytes, Memory.bytes_eq_encodingOf_iff.2 ⟨by omega, hsymbols, hpads⟩, hout.operands, hout.index, hout.mem⟩

end Source

end Table

end Sys2Proof.Machine
end

section
/-! What DECODE answers (42_decoder.md R193 to R201, R204): the statements, from what `unpack` answers. -/
namespace Sys2Proof.Machine

/-! ### DECODE of encodings -/

/-- The bytes a fresh pipeline has written stand in the destination. -/
theorem Pipe.SameOutput.mem_eq_writeBytes {p q : Pipe} {vs : List Byte} (h : q.SameOutput (p.puts vs)) (hfresh : p.eng.fresh)
    (hbuf : p.eng.buffersOk) (hlen : p.eng.dstLen.toNat = vs.length) : q.mem = p.mem.writeBytes p.eng.dstAddr.toNat vs := by
  obtain ⟨-, -, -, ho, -⟩ := hfresh
  obtain ⟨-, hfits, -⟩ := hbuf
  have hdst := p.eng.dstLen.isLt
  have ho : p.eng.o.toNat = 0 := by rw [ho]; rfl
  rw [h.mem, Pipe.puts_mem vs (by omega) (by omega), ho, Nat.add_zero]

/-- Settles O21: the checks pass, and `unpack` writes the bytes encoded. -/
theorem decodeOfAnEncoding : Obligations.DecodeOfAnEncoding := by
  intro s e A bytes he hfresh hord hv hbuf hA hsource hdst
  rw [State.decodesAlphabet_iff] at hA
  have hslice := Memory.decSlice_of_encoding hA hbuf.1 hsource
  rw [← hdst] at hslice
  obtain ⟨limit, hlim⟩ := Pipe.symbolLimit_of_decSlice (p := ⟨e, s.mem⟩) hA hbuf hslice
  obtain ⟨r, hr, hout⟩ := Pipe.unpackRest_of_encoding (p₀ := ⟨e, s.mem⟩) hA hlim hbuf hfresh hsource
  have hexec := execDecode_of_ok he ((State.regionsOrdinary_iff he .decode).2 hord)
    (State.decodeChecks_of_ok hv hbuf hslice) hr
  rw [hout.mem_eq_writeBytes hfresh hbuf hdst, BitVec.ofNat_toNat, BitVec.setWidth_eq] at hexec
  exact hexec

/-- Settles O22: a DECODE that ends in NONE has passed its checks and `unpack`. -/
theorem decodeAcceptsOnlyEncodings : Obligations.DecodeAcceptsOnlyEncodings := by
  intro s t e A he hfresh hA h herr
  obtain ⟨k, hk, rfl⟩ | ⟨m, k, -, hk, rfl⟩ | ⟨m, r, hm, hr, rfl⟩ := execDecode_cases h
  · rw [State.raise_err] at herr
    subst herr
    obtain hk' | hk' | hk' | ⟨hk', -⟩ := s.decodeChecks_cases s.running <;> exact nomatch hk.symm.trans hk'
  · rw [State.raise_err] at herr
    subst herr
    obtain hk' | hk' := Pipe.unpackRest_error hk <;> exact nomatch hk'
  · rw [State.running_of_engine he] at hm hr
    obtain hk | hk | hk | ⟨hok, hv, hregions, hslice⟩ := s.decodeChecks_cases e
    iterate 3 · exact nomatch hm.symm.trans hk
    obtain rfl := Except.ok.inj (hm.symm.trans hok)
    have hbuf := (Engine.regionsOk_iff e).1 hregions
    obtain ⟨limit, hlim⟩ := Pipe.symbolLimit_of_decSlice (p := ⟨e, s.mem⟩) hA hbuf hslice
    obtain ⟨bytes, hsource, hout⟩ := Pipe.encoding_of_unpackRest (p₀ := ⟨e, s.mem⟩) hA hlim hbuf hfresh
      (Memory.decSlice_blocks hslice) hr
    have hlen := Except.ok.inj ((Memory.decSlice_of_encoding hA hbuf.1 hsource).symm.trans hslice)
    refine ⟨bytes, hlen, hsource, ?_⟩
    rw [hout.mem_eq_writeBytes hfresh hbuf hlen.symm, BitVec.ofNat_toNat, BitVec.setWidth_eq]
    rfl

/-- What a successful ENCODE has done (41_encoder.md R166, R168). -/
theorem execEncode_succeeds {s t : State} {e : Engine} (he : s.engine = some e) (hfresh : e.fresh)
    (h : exec .encode s = .next t) (herr : t.err = .none) :
    e.buffersOk ∧ encSize e.srcLen.toNat s.encPadEn ≤ 4294967295 ∧ encSize e.srcLen.toNat s.encPadEn ≤ e.dstLen.toNat
      ∧ t.result = BitVec.ofNat 32 (encSize e.srcLen.toNat s.encPadEn)
      ∧ t.mem = s.mem.writeBytes e.dstAddr.toNat
        (encodingOf s.encAlpha s.encPadEn s.encPad (s.mem.bytes e.srcAddr.toNat e.srcLen.toNat)) := by
  obtain ⟨k, hk, rfl⟩ | ⟨len, hlen, rfl⟩ := execEncode_cases h
  · rw [State.raise_err] at herr
    subst herr
    obtain hk' | hk' | hk' | ⟨hk', -⟩ := s.encodeChecks_cases s.running <;> exact nomatch hk.symm.trans hk'
  · rw [State.running_of_engine he] at hlen ⊢
    obtain hk | hk | hk | ⟨hok, -, hfits, hregions, hdst⟩ := s.encodeChecks_cases e
    iterate 3 · exact nomatch hlen.symm.trans hk
    obtain rfl := Except.ok.inj (hlen.symm.trans hok)
    have hbuf := (Engine.regionsOk_iff e).1 hregions
    exact ⟨hbuf, hfits, hdst, rfl, Pipe.encodeRest_mem (p := ⟨e, s.mem⟩) hfresh hbuf hfits hdst s.encAlpha s.encPad⟩

/-- Settles O23: what ENCODE wrote is an encoding, which DECODE undoes. -/
theorem roundTrip : Obligations.RoundTrip := by
  intro s t e f hwf he hfresh hv hpadEn hpad hA henc herr hf hsrc hsrcLen hdstLen hbuf hord
  have htwf := exec_mem_wf hwf henc
  obtain ⟨⟨-, hefits, -⟩, hfits, hdst, hresult, hmem⟩ := execEncode_succeeds he hfresh henc herr
  obtain ⟨hinv', hpadEn', hpad', hv'⟩ := (exec_ends henc).decoder_eq fun _ _ => nofun
  have hsize : f.srcLen.toNat = encSize e.srcLen.toNat s.encPadEn := by
    rw [hsrcLen, hresult, BitVec.toNat_ofNat]
    exact Nat.mod_eq_of_lt (Nat.lt_succ_of_le hfits)
  have hA' : Decodes t.decInv s.encAlpha t.decPadEn t.decPad := by
    rw [hinv', hpadEn', hpad']
    exact hA
  have hsource : t.mem.bytes f.srcAddr.toNat f.srcLen.toNat
      = encodingOf s.encAlpha t.decPadEn t.decPad (s.mem.bytes e.srcAddr.toNat e.srcLen.toNat) := by
    have hlen : f.srcLen.toNat
        = (encodingOf s.encAlpha s.encPadEn s.encPad (s.mem.bytes e.srcAddr.toNat e.srcLen.toNat)).length := by
      rw [encodingOf_length, Memory.bytes_length, hsize]
    rw [hpadEn', hpad', hpadEn, hpad, hmem, hsrc, hlen]
    exact Memory.bytes_writeBytes hwf (by rw [← hlen, hsize, Config.addrSpace]; omega)
  have hback : f.dstLen.toNat = (s.mem.bytes e.srcAddr.toNat e.srcLen.toNat).length := by rw [hdstLen, Memory.bytes_length]
  have hdecode := decodeOfAnEncoding { t with engine := some f, done := false } f s.encAlpha
    (s.mem.bytes e.srcAddr.toNat e.srcLen.toNat) rfl hf hord (hv'.trans hv) hbuf hA' hsource hback
  refine ⟨_, hdecode, rfl, hdstLen, ?_⟩
  have hread := Memory.bytes_writeBytes htwf (a := f.dstAddr.toNat)
    (bytes := s.mem.bytes e.srcAddr.toNat e.srcLen.toNat) (by rw [← hback]; exact hbuf.2.1)
  rwa [Memory.bytes_length] at hread

/-! ### The errors inside `unpack` -/

/-- The source's symbols, behind which `unpack` stands once it has read them. -/
theorem State.exists_afterSymbols {s : State} {e : Engine} {A : Alphabet} {xs : List Index} (hfresh : e.fresh)
    (hbuf : e.buffersOk) (hA : s.decodesAlphabet A)
    (hslice : s.mem.decSlice e.srcAddr e.srcLen.toNat s.decPadEn s.decPad = .ok e.dstLen.toNat)
    (hreads : (Pipe.mk e s.mem).Reads s.decInv xs) :
    ∃ limit q, Pipe.AfterSymbols s.decInv limit ⟨e, s.mem⟩ xs q := by
  obtain ⟨limit, hlim⟩ := Pipe.symbolLimit_of_decSlice (p := ⟨e, s.mem⟩) ((s.decodesAlphabet_iff A).1 hA) hbuf hslice
  obtain ⟨q, hq⟩ := hreads.exists_afterSymbols hlim hbuf hfresh
  exact ⟨limit, q, hq⟩

/-- An error inside `unpack` ends DECODE with its code, and of memory only the destination changes (R199). -/
theorem exec_decode_of_unpack_error {s : State} {e : Engine} {k : Err} (he : s.engine = some e) (hord : s.buffersOrdinary e)
    (hv : s.decValid = true) (hbuf : e.buffersOk)
    (hslice : s.mem.decSlice e.srcAddr e.srcLen.toNat s.decPadEn s.decPad = .ok e.dstLen.toNat)
    (hk : Pipe.unpackRest s.decInv s.decPadEn s.decPad ⟨e, s.mem⟩ = .error k) :
    ∃ (m : Memory) (d : Nat),
      exec .decode s = .next { s with mem := m, drawn := d, engine := none, done := true, err := k, result := 0 }
        ∧ ∀ a : Nat, (a < e.dstAddr.toNat ∨ e.dstAddr.toNat + e.dstLen.toNat ≤ a) → m.read a = s.mem.read a := by
  have hexec := execDecode_of_error he ((State.regionsOrdinary_iff he .decode).2 hord)
    (State.decodeChecks_of_ok hv hbuf hslice) hk
  have htyped : (s.scramble e.destination).raise k = (s.scramble e.destination).raiseError k := by
    obtain rfl | rfl := Pipe.unpackRest_error hk <;> rfl
  rw [htyped] at hexec
  exact ⟨_, _, hexec, fun a ha => s.scramble_read_outside ha⟩

/-- Settles O25: the byte is the first that is no symbol, and no pad. -/
theorem badByteBeforeAnyPad : Obligations.BadByteBeforeAnyPad := by
  intro s e j he hfresh hord hv hinv hbuf hslice hj hsymbols hnone hpad
  obtain ⟨A, hA⟩ := hinv.exists_decodesAlphabet hv
  obtain ⟨xs, hreads, hstop⟩ := Pipe.exists_reads s.decInv ⟨e, s.mem⟩
  obtain rfl : xs.length = j := by
    obtain hlt | heq | hgt := Nat.lt_trichotomy xs.length j
    · have hsymbol := hsymbols _ hlt
      rw [hstop (hlt.trans hj)] at hsymbol
      exact nomatch hsymbol
    · exact heq
    · exact nomatch hnone.symm.trans (hreads.symbol j hgt)
  obtain ⟨limit, q, hq⟩ := State.exists_afterSymbols hfresh hbuf hA hslice hreads
  have hunpack := hq.unpackRest_atStop hbuf hj hnone s.decPadEn s.decPad
  rw [if_neg (by obtain hoff | hbyte := hpad <;> simp [*])] at hunpack
  exact exec_decode_of_unpack_error he hord hv hbuf hslice hunpack

theorem tailError_eq (inv : Inverse) (c : Byte) :
    tailError inv c = if (inv.get c.toFin).isSome then .invalidPadding else .invalidCharacter := by
  unfold tailError
  split <;> rename_i h <;> simp [h]

/-- Settles O26: behind the symbols of whole bytes the tail's first other byte decides. -/
theorem firstBadByteOfTheTail : Obligations.FirstBadByteOfTheTail := by
  intro s e A bytes p j he hfresh hord hv hpe hbuf hA hslice hpj hj hp hsymbols hpads hbad
  rw [symbolsOf_eq_map] at hsymbols
  obtain rfl : p = (groupsOf bytes).length := by simpa using congrArg List.length hsymbols
  have hmore := hpj.trans hj
  obtain ⟨limit, q, hq⟩ := State.exists_afterSymbols hfresh hbuf hA hslice
    (Pipe.reads_of_bytes (p := ⟨e, s.mem⟩) hA hmore.le hsymbols)
  have hneed : ∃ need, padNeed q.eng.cnt = some need := by
    have hpads := padFill_length bytes.length
    rw [groupsOf_length] at hp
    exact ⟨_, (padNeed_encSize (by rw [hq.unpacked.cnt_eq, groupsOf_length])).2 ⟨rfl, by omega⟩⟩
  obtain ⟨need, hneed⟩ := hneed
  have hunpack := hq.unpackRest_atPad hA hbuf hpe hmore (hpads _ le_rfl hpj)
  rw [Pipe.checkTail_enterTail (hq.unpacked.leftoverOk_iff.2 (zeroLeftover_groupsOf bytes)) hneed,
    hq.tailCheck_of_first hbuf hpj.le hj hpads hbad, tailError_eq] at hunpack
  exact exec_decode_of_unpack_error he hord hv hbuf hslice hunpack

/-- Settles O27: the leftover check comes before those of the tail. -/
theorem leftoverBitsAreRejected : Obligations.LeftoverBitsAreRejected := by
  intro s e A xs he hfresh hord hv hbuf hA hslice hle hsymbols hnext hbad
  obtain ⟨limit, q, hq⟩ := State.exists_afterSymbols hfresh hbuf hA hslice
    (Pipe.reads_of_bytes (p := ⟨e, s.mem⟩) hA hle hsymbols)
  have hleft : q.eng.leftoverOk = false := by
    rw [← Bool.not_eq_true, hq.unpacked.leftoverOk_iff]
    rintro ⟨hfew, hzero⟩
    exact hbad.elim (not_lt.2 hfew) hzero
  refine exec_decode_of_unpack_error he hord hv hbuf hslice ?_
  obtain hend | hmore := hle.eq_or_lt
  · rw [hq.unpackRest_atEnd hend, Pipe.checkTail_of_leftover hleft]
  · obtain ⟨hpe, hpad⟩ := hnext hmore
    rw [hq.unpackRest_atPad hA hbuf hpe hmore hpad, Pipe.checkTail_of_leftover (p := q.enterTail) hleft]

/-- Settles O28: whole blocks leave no bits, and no count of pads fits that. -/
theorem padByteAtABlockStart : Obligations.PadByteAtABlockStart := by
  intro s e A xs he hfresh hord hv hpe hbuf hA hslice hmore hblock hsymbols hpad
  obtain ⟨limit, q, hq⟩ := State.exists_afterSymbols hfresh hbuf hA hslice
    (Pipe.reads_of_bytes (p := ⟨e, s.mem⟩) hA hmore.le hsymbols)
  refine exec_decode_of_unpack_error he hord hv hbuf hslice ?_
  rw [hq.unpackRest_atPad hA hbuf hpe hmore hpad,
    Pipe.checkTail_enterTail_of_no_need (padNeed_eq_none (by rw [hq.unpacked.cnt_eq]; omega))]

/-- Settles O29: the tail is pads only, so its length alone decides. -/
theorem unpackChecksTheTailCount : Obligations.UnpackChecksTheTailCount := by
  intro e mem inv pad A xs need hfresh hbuf hinv hpadA hmore hbytes hsymbols hrow hzero hpads
  have hA : Decodes inv A true pad := ⟨hinv, fun _ => hpadA⟩
  have hlim : (Pipe.mk e mem).SymbolLimit inv xs.length :=
    ⟨hmore.le, hbytes, fun j hj hn => by rw [hpads j hj hn]; exact hA.pad_none rfl⟩
  obtain ⟨q, hq⟩ := (Pipe.reads_of_bytes (p := ⟨e, mem⟩) hA hmore.le hsymbols).exists_afterSymbols hlim hbuf hfresh
  have hfew : 5 * xs.length % 8 ≤ 4 := by
    simp only [List.mem_cons, Prod.mk.injEq, List.not_mem_nil, or_false] at hrow
    omega
  have hleft := hq.unpacked.leftoverOk_iff.2 ⟨by rwa [leftoverBits_length], hzero⟩
  have hneed : padNeed q.eng.cnt = some need := padNeed_eq_some_iff.2 (by rwa [hq.unpacked.cnt_eq])
  have hunpack := hq.unpackRest_atPad hA hbuf rfl hmore (hpads _ le_rfl hmore)
  rw [Pipe.checkTail_enterTail hleft hneed, hq.tailCheck_of_pads hbuf hmore.le hpads, hq.srcLen_eq, hq.index] at hunpack
  refine ⟨fun hcount => ⟨q.enterTail, hunpack.trans (if_pos hcount), ?_⟩, fun hcount => hunpack.trans (if_neg hcount)⟩
  have hbits := hq.unpacking.bits
  rw [hq.index] at hbits
  have hfew := hq.unpacking.few
  show q.eng.o.toNat = _
  omega

/-! ### The output index -/

/-- `unpack`, started as `p₀`, has its output index inside the destination, whatever its phase. -/
structure Pipe.UnpackBounded (limit : Nat) (p₀ p : Pipe) : Prop where
  confined : p₀.Confined p₀.eng.dstLen.toNat p
  unpacking : p.eng.phase = .reading5BitSymbols → Pipe.Unpacking limit p₀ p
  index : p.eng.o.toNat ≤ p₀.eng.dstLen.toNat

/-- While symbols are read, the bytes written are those of at most `limit` symbols. -/
theorem Pipe.Unpacking.bounded {inv : Inverse} {limit : Nat} {p₀ p : Pipe} (hlim : p₀.SymbolLimit inv limit)
    (h : Pipe.Unpacking limit p₀ p) : Pipe.UnpackBounded limit p₀ p := by
  obtain ⟨-, hbytes, -⟩ := hlim
  have ⟨hconf, hbits, _, hindex⟩ := h
  exact ⟨hconf, fun _ => h, by omega⟩

/-- Only a symbol moves the output index. -/
theorem Pipe.UnpackStep.bounded {inv : Inverse} {padEn : Bool} {pad : Byte} {limit : Nat} {p₀ p q : Pipe}
    (hlim : p₀.SymbolLimit inv limit) (hbuf : p₀.eng.buffersOk) (hp : Pipe.UnpackBounded limit p₀ p)
    (h : p.UnpackStep inv padEn pad q) : Pipe.UnpackBounded limit p₀ q := by
  obtain ⟨hconf, hread, hindex⟩ := hp
  have hkeep (f : Engine) (hf : f.sameOperands p.eng) : p₀.Confined p₀.eng.dstLen.toNat ⟨f, p.mem⟩ :=
    hconf.trans (.of_mem_eq hf rfl)
  cases h with
  | @symbol x hphase hi hx =>
    obtain ⟨-, -, hlen, -⟩ := hconf.operands
    exact ((hread hphase).foldSymbol hlim hbuf (by rwa [hlen] at hi) hx).bounded hlim
  | padMet hphase hi hx hpad => exact ⟨hkeep _ ⟨rfl, rfl, rfl, rfl, rfl⟩, nofun, hindex⟩
  | tailByte hphase hi hpad =>
    exact ⟨hkeep _ ⟨rfl, rfl, rfl, rfl, rfl⟩, fun h => (nomatch hphase.symm.trans h), hindex⟩
  | finished hphase hi hok => exact ⟨hkeep _ ⟨rfl, rfl, rfl, rfl, rfl⟩, nofun, hindex⟩

/-- What an iteration keeps, any number of them keeps. -/
theorem State.advances_keeps {i : Instr} {P : State → Prop}
    (hstep : ∀ {s t : State} {e : Engine}, P s → s.engine = some e → s.advance i e = some t → P t) :
    ∀ (k : Nat) {s : State}, P s → P (State.advances i k s)
  | 0, _, hs => hs
  | k + 1, s, hs => by
    unfold State.advances
    split
    · exact hs
    · rename_i e he
      split
      · exact hs
      · rename_i t ht
        exact State.advances_keeps hstep k (hstep hs he ht)

theorem State.advanceDecode_step {s t : State} {e : Engine} (h : s.advanceDecode e = some t) :
    ∃ q, (Pipe.mk e s.mem).UnpackStep s.decInv s.decPadEn s.decPad q ∧ t = s.withPipe q := by
  unfold State.advanceDecode at h
  split at h
  · exact nomatch h
  · split at h
    · exact State.advanceUnpack_step h
    · exact nomatch h

/-- Settles O31: each iteration keeps the bound, and what `unpack` accepts encodes exactly `m` bytes. -/
theorem unpackWritesAreBounded : Obligations.UnpackWritesAreBounded := by
  intro s e m he hfresh hbuf hv hinv hslice hdst
  subst hdst
  obtain ⟨A, hA⟩ := hinv.exists_decodesAlphabet hv
  obtain ⟨limit, hlim⟩ := Pipe.symbolLimit_of_decSlice (p := ⟨e, s.mem⟩) hA hbuf hslice
  refine ⟨fun k f hf => ?_, fun q hq => ?_⟩
  · have hself : s.withPipe ⟨e, s.mem⟩ = s := by simp [State.withPipe, ← he]
    obtain ⟨p, hp, hbound⟩ := State.advances_keeps (i := .decode)
      (P := fun t => ∃ p, t = s.withPipe p ∧ Pipe.UnpackBounded limit ⟨e, s.mem⟩ p)
      (fun {t u g} ht hg hu => by
        obtain ⟨p, rfl, hp⟩ := ht
        obtain rfl := Option.some.inj hg
        obtain ⟨q, hstep, rfl⟩ := State.advanceDecode_step hu
        exact ⟨q, s.withPipe_withPipe p q, hstep.bounded hlim hbuf hp⟩)
      k ⟨_, hself.symm, (Pipe.Unpacking.start hfresh limit).bounded hlim⟩
    rw [hp] at hf
    obtain rfl := Option.some.inj hf
    exact hbound.index
  · obtain ⟨bytes, hsource, hout⟩ := Pipe.encoding_of_unpackRest (p₀ := ⟨e, s.mem⟩) hA hlim hbuf hfresh
      (Memory.decSlice_blocks hslice) hq
    have hlen := Except.ok.inj ((Memory.decSlice_of_encoding hA hbuf.1 hsource).symm.trans hslice)
    rw [hout.index_eq_length hfresh (by have := e.dstLen.isLt; omega), hlen]

end Sys2Proof.Machine
end

section
/-! The faults that a unit's configuration, the sizes and the buffers raise before any memory access (40_configuration.md R135,
60_exceptions.md R245). -/
namespace Sys2Proof.Machine

/-! ### ENCODE's checks -/

section Checks
variable {s : State} {e : Engine}

theorem State.encodeChecks_of_unconfigured (hv : s.encValid = false) : s.encodeChecks e = .error .notConfigured := by
  simp [State.encodeChecks, hv]

theorem State.encodeChecks_of_overflow (hv : s.encValid = true) (hlong : 4294967295 < encSize e.srcLen.toNat s.encPadEn) :
    s.encodeChecks e = .error .sizeOverflow := by
  simp [State.encodeChecks, hv, hlong]

/-- Buffers that wrap or overlap, or a destination shorter than the encoding, break the contract (41_encoder.md R166). -/
theorem State.encodeChecks_of_contract (hv : s.encValid = true) (hfits : encSize e.srcLen.toNat s.encPadEn ≤ 4294967295)
    (hbad : ¬e.buffersOk ∨ e.dstLen.toNat < encSize e.srcLen.toNat s.encPadEn) : s.encodeChecks e = .error .contract := by
  by_cases hbuf : e.buffersOk
  · have hshort : e.dstLen.toNat < encSize e.srcLen.toNat s.encPadEn := hbad.resolve_left (not_not.2 hbuf)
    simp [State.encodeChecks, hv, not_lt.2 hfits, (Engine.regionsOk_iff e).2 hbuf, hshort]
  · have hregions : e.regionsOk = false := by rw [← Bool.not_eq_true, Engine.regionsOk_iff]; exact hbuf
    simp [State.encodeChecks, hv, not_lt.2 hfits, hregions]

/-- A check that fails ends ENCODE with its code. -/
theorem execEncode_of_check {k : Err} (he : s.engine = some e) (hord : s.buffersOrdinary e)
    (hk : s.encodeChecks e = .error k) : exec .encode s = .next (s.raise k) := by
  simp [exec, execEncode, (State.regionsOrdinary_iff he .encode).2 hord, State.running_of_engine he, hk]

end Checks

/-- Settles O14: each check, where those before it pass. -/
theorem encodeFaultsInOrder : Obligations.EncodeFaultsInOrder := by
  intro s e he hord
  refine ⟨fun hv => ?_, fun hv hlong => ?_, fun hv hfits hbad => ?_⟩
  · exact execEncode_of_check he hord (State.encodeChecks_of_unconfigured hv)
  · exact execEncode_of_check he hord (State.encodeChecks_of_overflow hv hlong)
  · exact execEncode_of_check he hord (State.encodeChecks_of_contract hv hfits hbad)

/-- Settles O11: in each command of a unit the first check is that it is configured. -/
theorem unconfiguredUnitsFault : Obligations.UnconfiguredUnitsFault := by
  intro s e he
  refine ⟨fun hv i hi hsrc hdst => ?_, fun hv i hi hsrc hdst => ?_⟩
  · simp only [List.mem_cons, List.not_mem_nil, or_false] at hi
    obtain rfl | rfl := hi
    · exact exec_encSize_of_unconfigured hv
    · exact execEncode_of_check he ⟨hsrc, hdst⟩ (State.encodeChecks_of_unconfigured hv)
  · simp only [List.mem_cons, List.not_mem_nil, or_false] at hi
    obtain rfl | rfl | rfl := hi
    · exact exec_decSizeUb_of_unconfigured hv
    · exact exec_decSizeSlice_of_unconfigured he hsrc hv
    · exact execDecode_of_check he ⟨hsrc, hdst⟩ (State.decodeChecks_of_unconfigured hv)

end Sys2Proof.Machine
end

section
/-! How a command that does not succeed ends (60_exceptions.md R240 to R245): one relation for the failing ends, with the code and
what it changes, and the completion of every command. -/
namespace Sys2Proof.Machine

/-! ### The failing ends -/

/-- The codes that a command's checks raise before it touches its unit or the memory (R245). -/
def checkCodes : Instr → List Err
  | .encCfg _ _ => [.contract]
  | .decCfg _ _ => [.contract]
  | .encSize => [.notConfigured, .sizeOverflow]
  | .encode => [.notConfigured, .sizeOverflow, .contract]
  | .decSizeUb => [.notConfigured, .invalidPadding]
  | .decSizeSlice => [.notConfigured, .contract, .invalidPadding]
  | .decode => [.notConfigured, .contract, .invalidPadding]

/-- Every way the command `i` run from `s` can end without success: a check fails, a CFG command rejects its alphabet, or `unpack`
meets an error after DECODE's checks (R243, R244, 42_decoder.md R199). -/
inductive State.Fails (s : State) : Instr → State → Prop
  | rejected {i : Instr} {k : Err} (hk : k ∈ checkCodes i) : s.Fails i (s.raise k)
  | encoderCleared (padEn : Bool) (pad : Byte) : s.Fails (.encCfg padEn pad) (s.clearEncoder.raise .configInvalid)
  | decoderCleared (padEn : Bool) (pad : Byte) : s.Fails (.decCfg padEn pad) (s.clearDecoder.raise .configInvalid)
  | decodeAborted {k : Err} (hk : k = .invalidCharacter ∨ k = .invalidPadding)
      (hchecks : s.decodeChecks s.running = .ok s.running.dstLen.toNat) :
      s.Fails .decode ((s.scramble s.running.destination).raise k)

theorem State.encodeChecks_error {s : State} {e : Engine} {k : Err} (h : s.encodeChecks e = .error k) :
    k ∈ checkCodes .encode := by
  obtain h' | h' | h' | ⟨h', -⟩ := s.encodeChecks_cases e <;> cases h.symm.trans h' <;> decide

theorem State.decodeChecks_error {s : State} {e : Engine} {k : Err} (h : s.decodeChecks e = .error k) :
    k ∈ checkCodes .decode := by
  obtain h' | h' | h' | ⟨h', -⟩ := s.decodeChecks_cases e <;> cases h.symm.trans h' <;> decide

/-- The size that DECODE's checks answer is DST_LEN (R198). -/
theorem State.decodeChecks_ok {s : State} {e : Engine} {m : Nat} (h : s.decodeChecks e = .ok m) : m = e.dstLen.toNat := by
  obtain h' | h' | h' | ⟨h', -⟩ := s.decodeChecks_cases e <;> cases h.symm.trans h'
  rfl

/-- A command that answers a next state has succeeded or failed in one of these ways. -/
theorem exec_succeeds_or_fails {i : Instr} {s t : State} (h : exec i s = .next t) : t.err = .none ∨ s.Fails i t := by
  cases i with
  | encCfg padEn pad =>
    obtain rfl | rfl | ⟨-, rfl⟩ := execEncCfg_cases h
    · exact .inr (.rejected (List.mem_singleton_self _))
    · exact .inr (.encoderCleared padEn pad)
    · exact .inl rfl
  | decCfg padEn pad =>
    obtain rfl | rfl | ⟨-, rfl⟩ := execDecCfg_cases h
    · exact .inr (.rejected (List.mem_singleton_self _))
    · exact .inr (.decoderCleared padEn pad)
    · exact .inl rfl
  | encSize =>
    obtain rfl | rfl | ⟨-, -, rfl⟩ := execEncSize_cases h
    · exact .inr (.rejected (by decide))
    · exact .inr (.rejected (by decide))
    · exact .inl rfl
  | encode =>
    obtain ⟨k, hk, rfl⟩ | ⟨len, -, rfl⟩ := execEncode_cases h
    · exact .inr (.rejected (State.encodeChecks_error hk))
    · exact .inl rfl
  | decSizeUb =>
    obtain rfl | rfl | ⟨u, -, rfl⟩ := execDecSizeUb_cases h
    · exact .inr (.rejected (by decide))
    · exact .inr (.rejected (by decide))
    · exact .inl rfl
  | decSizeSlice =>
    obtain rfl | rfl | rfl | ⟨m, -, rfl⟩ := execDecSizeSlice_cases h
    · exact .inr (.rejected (by decide))
    · exact .inr (.rejected (by decide))
    · exact .inr (.rejected (by decide))
    · exact .inl rfl
  | decode =>
    obtain ⟨k, hk, rfl⟩ | ⟨m, k, hm, hk, rfl⟩ | ⟨m, p, -, -, rfl⟩ := execDecode_cases h
    · exact .inr (.rejected (State.decodeChecks_error hk))
    · obtain rfl := State.decodeChecks_ok hm
      exact .inr (.decodeAborted (Pipe.unpackRest_error hk) hm)
    · exact .inl rfl

theorem State.Fails.result_eq {i : Instr} {s t : State} (h : s.Fails i t) : t.result = 0 := by
  cases h <;> exact State.raise_result _ _

/-! ### The codes -/

/-- Settles O33: a command that fails does so by one of its checks, by its alphabet, or inside `unpack`. -/
theorem completionCodes : Obligations.CompletionCodes := by
  refine ⟨fun k => by cases k <;> decide, fun k => by cases k <;> decide, fun i s t h => ?_⟩
  obtain hnone | hfails := exec_succeeds_or_fails h
  · cases i <;> simp [hnone]
  · cases hfails with
    | @rejected _ k hk =>
      have hcode : (s.raise k).err ∈ checkCodes i := by rwa [State.raise_err]
      cases i with
      | encCfg => exact List.mem_cons_of_mem _ (List.mem_append_left [Err.configInvalid] hcode)
      | decCfg => exact List.mem_cons_of_mem _ (List.mem_append_left [Err.configInvalid] hcode)
      | decode => exact List.mem_cons_of_mem _ (List.mem_append_left [Err.invalidCharacter] hcode)
      | _ => exact List.mem_cons_of_mem _ hcode
    | encoderCleared => simp
    | decoderCleared => simp
    | decodeAborted hk =>
      rw [State.raise_err]
      obtain rfl | rfl := hk <;> decide

/-! ### What a failing command changes -/

/-- No check raises CONFIG_INVALID: a CFG command that ends in it has cleared its unit (40_configuration.md R133, R134). -/
theorem ne_configInvalid_of_mem_checkCodes {i : Instr} {k : Err} (h : k ∈ checkCodes i) : k ≠ .configInvalid := by
  rintro rfl
  cases i <;> simp [checkCodes] at h

/-- Settles O34: a failed check changes STATUS and RESULT only, a rejected alphabet its unit besides, and an error inside `unpack`
the destination. -/
theorem errorsAndFaultsChangeLittle : Obligations.ErrorsAndFaultsChangeLittle := by
  intro i s t h herr
  cases (exec_succeeds_or_fails h).resolve_left herr with
  | @rejected _ k hk =>
    simp only [State.raise_err]
    refine ⟨fun hf _ => State.raise_of_fault hf s, fun hc => absurd hc (ne_configInvalid_of_mem_checkCodes hk),
      fun hf => ?_⟩
    have heq := State.raise_of_error hf s
    exact ⟨fun _ => heq, s.mem, s.drawn, heq, fun _ _ => rfl⟩
  | encoderCleared padEn pad =>
    simp only [State.raise_err]
    exact ⟨fun _ hne => absurd rfl hne, fun _ => ⟨freeAlphabet s.drawn, s.decInv, s.drawn + 32, .inl rfl⟩, fun hf => nomatch hf⟩
  | decoderCleared padEn pad =>
    simp only [State.raise_err]
    exact ⟨fun _ hne => absurd rfl hne, fun _ => ⟨s.encAlpha, freeInverse s.drawn, s.drawn + 256, .inr rfl⟩, fun hf => nomatch hf⟩
  | @decodeAborted k hk hchecks =>
    have hf : k.isFault = false := by obtain rfl | rfl := hk <;> rfl
    have hc : k ≠ .configInvalid := by rintro rfl; exact nomatch hf
    simp only [State.raise_err]
    refine ⟨fun hf' => absurd (hf'.symm.trans hf) (by decide), fun hc' => absurd hc' hc, fun _ => ⟨fun hno => ?_, ?_⟩⟩
    · exact absurd hchecks (hno.resolve_left (not_not.2 rfl))
    · exact ⟨_, _, State.raise_of_error hf _, fun a ha => s.scramble_read_outside ha⟩

/-! ### Every command completes -/

/-- On ordinary regions a command answers a next state: it stops over nothing else (70_reset_and_hazards.md R277 case 3). -/
theorem exec_answers_of_ordinary {i : Instr} {s : State} (hord : s.regionsOrdinary i = true) : ∃ t, exec i s = .next t := by
  cases i with
  | encCfg padEn pad =>
    simp only [exec, execEncCfg, hord, Bool.not_true, Bool.false_eq_true, if_false]
    split_ifs <;> exact ⟨_, rfl⟩
  | decCfg padEn pad =>
    simp only [exec, execDecCfg, hord, Bool.not_true, Bool.false_eq_true, if_false]
    split_ifs <;> exact ⟨_, rfl⟩
  | encSize =>
    simp only [exec, execEncSize]
    split_ifs <;> exact ⟨_, rfl⟩
  | encode =>
    simp only [exec, execEncode, hord, Bool.not_true, Bool.false_eq_true, if_false]
    cases s.encodeChecks s.running <;> exact ⟨_, rfl⟩
  | decSizeUb =>
    simp only [exec, execDecSizeUb]
    cases decUb s.running.srcLen.toNat s.decPadEn <;> split_ifs <;> exact ⟨_, rfl⟩
  | decSizeSlice =>
    simp only [exec, execDecSizeSlice, hord, Bool.not_true, Bool.false_eq_true, if_false]
    cases s.mem.decSlice s.running.srcAddr s.running.srcLen.toNat s.decPadEn s.decPad <;> split_ifs <;> exact ⟨_, rfl⟩
  | decode =>
    simp only [exec, execDecode, hord, Bool.not_true, Bool.false_eq_true, if_false]
    cases s.decodeChecks s.running with
    | error k => exact ⟨_, rfl⟩
    | ok m => cases Pipe.unpackRest s.decInv s.decPadEn s.decPad ⟨s.running, s.mem⟩ <;> exact ⟨_, rfl⟩

/-- Settles O32: an illegal word ends in ILLEGAL_COMMAND, and a legal one in one of its command's ends. -/
theorem everyCommandCompletes : Obligations.EveryCommandCompletes := by
  intro s e he hin hord
  rw [step_of_nil hin]
  cases hdec : decodeWord e.cmd with
  | error r =>
    rw [State.completeTurn_of_error he hdec]
    exact ⟨_, rfl, rfl, rfl, by simp, rfl, fun _ => rfl⟩
  | ok i =>
    obtain ⟨t, ht⟩ := exec_answers_of_ordinary ((State.regionsOrdinary_iff he i).2 (hord i hdec))
    rw [State.completeTurn_of_ok he hdec]
    obtain ⟨hengine, hdone⟩ := (exec_ends ht).idle
    obtain ⟨-, -, -, -, hovr, -⟩ := frameOfEveryCommand i s t ht
    exact ⟨t, ht, t.not_busy_iff.2 hengine, hdone, (exec_ends ht).fault_eq, hovr,
      fun herr => ((exec_succeeds_or_fails ht).resolve_left herr).result_eq⟩

end Sys2Proof.Machine
end

section
/-! While a command is in progress (70_reset_and_hazards.md R276 to R279): the host's registers, RESULT and ERR, and how many
iterations are left. -/
namespace Sys2Proof.Machine

/-! ### The registers of a busy block -/

/-- A write to CMD or an operand register is dropped and sets OVR (R276). -/
theorem State.writeReg_of_busy {s : State} (hrst : s.inReset = false) (he : s.engine ≠ none) {r : Reg}
    (hr : r ∈ [Reg.cmd, Reg.srcAddr, Reg.srcLen, Reg.dstAddr, Reg.dstLen]) (v : Word) :
    s.writeReg r v = { s with ovr := true } := by
  have hbusy : s.busy = true := Option.isSome_iff_ne_none.2 he
  cases r <;> simp [State.writeReg, hrst, State.unlessBusy, hbusy] at hr ⊢

/-- Out of reset each register is read as it stands (10_state.md R31 to R39). -/
theorem State.readReg_of_mem {s : State} (hrst : s.inReset = false) {r : Reg} {x : Word}
    (hx : (r, x) ∈ [(Reg.cmd, 0), (.status, s.statusWord), (.result, s.result), (.srcAddr, s.srcAddr), (.srcLen, s.srcLen),
      (.dstAddr, s.dstAddr), (.dstLen, s.dstLen), (.cfgstat, s.cfgstatWord), (.reserved, 0)]) : s.readReg r = x := by
  cases r <;> simp at hx <;> simp [State.readReg, hrst, hx]

/-- Settles O42: no access of a busy block stops the machine, so each does what its register answers. -/
theorem writesWhileBusyAreDropped : Obligations.WritesWhileBusyAreDropped := by
  intro s r v rest hw hrst he
  refine ⟨fun hin hr => ?_, fun hin hr => ?_, fun x hin hx => ?_⟩
  · rw [step_of_wr_next hw hin (State.issuesNotOrdinary_of_busy he r v)]
    exact congrArg _ (State.writeReg_of_busy (s := { s with inputs := rest }) hrst he hr v)
  · rw [step_of_wr_next hw hin (State.issuesNotOrdinary_of_busy he r v), State.writeReg_readOnly hr]
  · rw [step_of_rd hw hin, State.readReg_of_mem hrst hx]
    rfl

/-! ### RESULT and ERR -/

/-- No write of the host reaches RESULT (10_state.md R32). -/
theorem State.writeReg_result (r : Reg) (v : Word) (s : State) : (s.writeReg r v).result = s.result := by
  obtain heq | ⟨-, heq⟩ | ⟨-, -, heq | heq | heq | heq | heq⟩ := State.writeReg_cases r v s <;> simp [heq]

/-- RESULT is written only where a command ends or reset is released, and after both no command is in progress. -/
theorem State.Moves.result_eq {s t : State} (h : s.Moves t) (ht : t.engine ≠ none) : t.result = s.result := by
  cases h with
  | ends ins he hi hexec => exact absurd (exec_ends hexec).idle.1 ht
  | illegal ins he hr => exact absurd (State.raise_engine _ _) ht
  | iterates ins he hi hq => rfl
  | observes ins seen => rfl
  | stores ins v ha => rfl
  | writes ins hr => exact State.writeReg_result _ _ _
  | asserts ins => rfl
  | releases hin hr => exact absurd rfl ht

/-- Settles O44: RESULT by cases on what the step does, ERR because STATUS stays consistent. -/
theorem resultIsStaleWhileBusy : Obligations.ResultIsStaleWhileBusy := by
  intro s t h ht hs
  obtain ⟨hbusy, -⟩ := statusStaysConsistent s t hs h
  exact ⟨(step_moves h).result_eq ht, (hbusy (Option.isSome_iff_ne_none.2 ht)).2⟩

/-! ### The iterations left -/

theorem State.advances_succ {i : Instr} {s t : State} {e : Engine} (he : s.engine = some e) (ht : s.advance i e = some t)
    (k : Nat) : State.advances i (k + 1) s = State.advances i k t := by
  simp only [State.advances, he, ht]

/-- If every iteration lowers a measure of the engine's record, at most that many are made before none is left. -/
theorem State.advances_end {i : Instr} {left : Engine → Nat}
    (hstep : ∀ {s t : State} {e : Engine}, s.engine = some e → s.advance i e = some t →
      ∃ f, t.engine = some f ∧ left f < left e)
    {s : State} {e : Engine} (he : s.engine = some e) :
    ∃ k ≤ left e, ∃ f, (State.advances i k s).engine = some f ∧ (State.advances i k s).advance i f = none := by
  induction hn : left e using Nat.strong_induction_on generalizing s e with
  | _ n ih =>
    cases ht : s.advance i e with
    | none => exact ⟨0, Nat.zero_le n, e, he, ht⟩
    | some t =>
      obtain ⟨f, hf, hlt⟩ := hstep he ht
      obtain ⟨k, hk, g, hg, hnone⟩ := ih (left f) (hn ▸ hlt) hf rfl
      rw [← State.advances_succ he ht k] at hg hnone
      exact ⟨k + 1, by omega, g, hg, hnone⟩

/-- The source bytes that the command in progress has not read. -/
def Engine.unread (e : Engine) : Nat := e.srcLen.toNat - e.i.toNat

theorem Engine.unread_lt {e f : Engine} (hi : e.i.toNat < e.srcLen.toNat) (hnext : f.i = e.i + 1) (hlen : f.srcLen = e.srcLen) :
    f.unread < e.unread := by
  have h := Word.remaining_succ hi
  simp only [Engine.unread, hnext, hlen]
  omega

/-- An iteration of ENCODE reads a byte of the source. -/
theorem State.advanceEncode_unread {s t : State} {e : Engine} (h : s.advanceEncode e = some t) :
    ∃ f, t.engine = some f ∧ f.unread < e.unread := by
  unfold State.advanceEncode at h
  split at h
  case h_1 => exact nomatch h
  case h_2 =>
    split at h
    case isFalse => exact nomatch h
    case isTrue hmore =>
      obtain ⟨-, hi⟩ := Bool.and_eq_true_iff.1 hmore
      obtain rfl := Option.some.inj h
      obtain ⟨-, -, hlen, -⟩ := ((Pipe.mk e s.mem).keeps_encodeByte s.encAlpha).1
      exact ⟨_, rfl, Engine.unread_lt (of_decide_eq_true hi) (Pipe.encodeByte_i _ _) hlen⟩

/-- The phases of a DECODE still to come (10_state.md R45). -/
def Phase.left : Phase → Nat
  | .reading5BitSymbols => 2
  | .validatingPaddingTail => 1
  | .done => 0

/-- What an iteration of DECODE has before it: source bytes to read and phases to enter. -/
def Engine.unpackLeft (e : Engine) : Nat := e.unread + e.phase.left

theorem Phase.left_pos {p : Phase} (h : p ≠ .done) : 0 < p.left := by
  cases p with
  | reading5BitSymbols | validatingPaddingTail => decide
  | done => exact absurd rfl h

/-- An iteration of DECODE reads a byte of the source or enters a later phase. -/
theorem Pipe.UnpackStep.unpackLeft_lt {inv : Inverse} {padEn : Bool} {pad : Byte} {p q : Pipe}
    (h : p.UnpackStep inv padEn pad q) : q.eng.unpackLeft < p.eng.unpackLeft := by
  cases h with
  | @symbol x hphase hi hx =>
    obtain ⟨hnext, hsame⟩ := p.foldSymbol_index_phase x
    obtain ⟨-, -, hlen, -⟩ := (p.keeps_foldSymbol x).1
    rw [Engine.unpackLeft, Engine.unpackLeft, hsame]
    exact Nat.add_lt_add_right (Engine.unread_lt hi hnext hlen) _
  | padMet hphase hi hx hpad =>
    rw [Engine.unpackLeft, Engine.unpackLeft, hphase]
    exact Nat.add_lt_add_left (by decide : Phase.validatingPaddingTail.left < Phase.reading5BitSymbols.left) _
  | tailByte hphase hi hpad =>
    exact Nat.add_lt_add_right (Engine.unread_lt (f := { p.eng with i := p.eng.i + 1 }) hi rfl rfl) _
  | finished hphase hi hok => exact Nat.add_lt_add_left (Phase.left_pos hphase) _

theorem State.advanceDecode_unpackLeft {s t : State} {e : Engine} (h : s.advanceDecode e = some t) :
    ∃ f, t.engine = some f ∧ f.unpackLeft < e.unpackLeft := by
  obtain ⟨q, hq, rfl⟩ := State.advanceDecode_step h
  exact ⟨q.eng, rfl, hq.unpackLeft_lt⟩

/-- Settles O39: ENCODE's iterations read the source, DECODE's go through its phases besides, and the other commands have none. -/
theorem iterationsEnd : Obligations.IterationsEnd := by
  intro i s e he hfresh
  obtain ⟨-, -, hi, -, -, hphase⟩ := hfresh
  have hunread : e.unread = e.srcLen.toNat := by simp [Engine.unread, hi]
  cases i with
  | encode =>
    obtain ⟨k, hk, hend⟩ := State.advances_end (i := .encode) (fun _ ht => State.advanceEncode_unread ht) he
    exact ⟨k, by omega, hend⟩
  | decode =>
    have hleft : e.unpackLeft = e.srcLen.toNat + 2 := by rw [Engine.unpackLeft, hunread, hphase, Phase.left]
    rw [← hleft]
    exact State.advances_end (i := .decode) (fun _ ht => State.advanceDecode_unpackLeft ht) he
  | _ => exact ⟨0, Nat.zero_le _, e, he, rfl⟩

end Sys2Proof.Machine
end

section
/-! The host's actions outside the contract (70_reset_and_hazards.md R277), and the reset input (R270, R272). -/
namespace Sys2Proof.Machine

/-! ### Actions outside the contract -/

/-- An access from outside to the regions of the command in progress stops the machine (R277 cases 1 and 4). -/
theorem step_of_closed_access {s : State} {who : Master} {a : Word} {write : Option Byte} {rest : List Input}
    (hreg : s.inCommandRegion a.toNat = true) (hin : s.inputs = .memory who a write :: rest) :
    step s = .fault who.regionFault := by
  have hreg' : State.inCommandRegion { s with inputs := rest } a.toNat = true := hreg
  simp [step, hin, State.inputTurn, State.memoryAccess, hreg']

/-- The source region of a legal command in progress is closed, and `region(DST_ADDR, DST_LEN)` whichever word it is (log 10). -/
theorem State.inCommandRegion_of_has {s : State} {e : Engine} {a : Nat} (he : s.engine = some e)
    (h : (∃ i, decodeWord e.cmd = .ok i ∧ (e.sourceOf i).has a = true) ∨ e.destination.has a = true) :
    s.inCommandRegion a = true := by
  refine (s.inCommandRegion_iff a).2 ⟨e, he, h.imp_left ?_⟩
  rintro ⟨i, hi, hsrc⟩
  rwa [Engine.sourceRegion_of_ok hi]

/-- An access that touches the window but is not an aligned word of it stops the machine (R277 case 2). -/
theorem step_of_bad_access {s : State} {a : BusAccess} {rest : List Input} (hin : s.inputs = .access a :: rest)
    (htouch : a.region.overlaps s.platform.window = true) (hbad : s.platform.allows a = false) :
    step s = .fault .registerAccess := by
  simp [step, hin, State.inputTurn, State.hostAccess, hbad, htouch]

/-- A command whose regions are not ordinary memory stops the machine before its other checks (R277 case 3, log 9). -/
theorem exec_of_not_ordinary {i : Instr} {s : State} (h : s.regionsOrdinary i = false) : exec i s = .fault .notOrdinary := by
  have hempty : s.platform.ordinary .empty = true := (Platform.ordinary_iff _ _).2 (Platform.ordinaryOn_empty _)
  cases i with
  | encCfg padEn pad => simp [exec, execEncCfg, h]
  | decCfg padEn pad => simp [exec, execDecCfg, h]
  | encode => simp [exec, execEncode, h]
  | decSizeSlice => simp [exec, execDecSizeSlice, h]
  | decode => simp [exec, execDecode, h]
  | encSize | decSizeUb => simp [State.regionsOrdinary, Engine.sourceOf, Engine.destinationOf, hempty] at h

/-- Settles O45: the accesses by the regions they touch, the issue by the CMD write's own statement, the run by its first check. -/
theorem outOfContractActionsFault : Obligations.OutOfContractActionsFault := by
  refine ⟨fun s e a w rest he ha => ?_, fun s a rest hin hpos hlow hhigh hbad => ?_,
    fun s i w rest hw hrst he hin hi hnot => ?_, fun s e i he hnot => ?_⟩
  · have hreg : s.inCommandRegion a.toNat = true := State.inCommandRegion_of_has he (by simpa [Engine.destination] using ha)
    exact ⟨step_of_closed_access hreg, step_of_closed_access hreg⟩
  · refine step_of_bad_access hin ?_ ?_
    · simp [Region.overlaps, BusAccess.region, Platform.window, Config.windowBytes, hpos, hlow, hhigh]
    · rw [← Bool.not_eq_true]
      simp only [Platform.allows, Config.windowBytes, Bool.and_eq_true, decide_eq_true_eq]
      omega
  · obtain ⟨-, hstop, -⟩ := cmdWriteIssues s w rest hw hrst
    exact hstop i hin he hi hnot
  · refine exec_of_not_ordinary ?_
    rw [← Bool.not_eq_true, State.regionsOrdinary_iff he]
    exact not_and_or.2 hnot

/-! ### Reset -/

theorem State.readReg_of_inReset {s : State} (hrst : s.inReset = true) (r : Reg) : s.readReg r = 0 := by
  simp [State.readReg, hrst]

theorem State.writeReg_of_inReset {s : State} (hrst : s.inReset = true) (r : Reg) (v : Word) : s.writeReg r v = s := by
  simp [State.writeReg, hrst]

/-- Under reset no CMD write issues, so none stops the machine. -/
theorem State.issuesNotOrdinary_of_inReset {s : State} (hrst : s.inReset = true) (r : Reg) (write : Option Word) :
    s.issuesNotOrdinary r write = false := by
  rw [← Bool.not_eq_true, State.issuesNotOrdinary_iff]
  rintro ⟨-, w, i, -, -, hout, -⟩
  exact nomatch hrst.symm.trans hout

theorem step_of_assertReset {s : State} {rest : List Input} (hin : s.inputs = .assertReset :: rest) :
    step s = .next (State.assertReset { s with inputs := rest }) := by
  simp only [step, hin, State.inputTurn]

theorem step_of_releaseReset {s : State} {rest : List Input} (hin : s.inputs = .releaseReset :: rest)
    (hrst : s.inReset = true) : step s = .next (State.releaseReset { s with inputs := rest }) := by
  simp only [step, hin, State.inputTurn, hrst, if_true]

/-- Settles O48: the accesses by what a register does under reset, the release field by field. -/
theorem resetMutesAndClears : Obligations.ResetMutesAndClears := by
  intro s r v rest hw hrst
  refine ⟨fun hin => ?_, fun hin => ?_, fun hin => ?_⟩
  · rw [step_of_rd hw hin, State.readReg_of_inReset hrst]
    rfl
  · rw [step_of_wr_next hw hin (State.issuesNotOrdinary_of_inReset hrst r _)]
    exact congrArg _ (State.writeReg_of_inReset (s := { s with inputs := rest }) hrst r v)
  · exact ⟨freeAlphabet s.drawn, freeInverse (s.drawn + 32), s.drawn + 288, step_of_releaseReset hin hrst⟩

theorem State.abandonedRegion_of_engine {s : State} {e : Engine} (he : s.engine = some e) :
    s.abandonedRegion = e.destination := by
  simp [State.abandonedRegion, he]

theorem State.abandonedRegion_of_idle {s : State} (he : s.engine = none) : s.abandonedRegion = .empty := by
  simp [State.abandonedRegion, he]

/-- Each existing byte of a region made unspecified is the free value drawn for it (log 3). -/
theorem State.scramble_read_inside {s : State} (hs : s.mem.wf = true) {r : Region} {k : Nat} (hk : k < r.len)
    (hfits : r.base + k < Config.addrSpace) : (s.scramble r).mem.read (r.base + k) = Config.freeByte (s.drawn + k) := by
  have hclip : k < r.clippedLen := lt_min hk (by omega)
  exact Memory.read_scramble_inside hs _ _ _ (r.clippedLen_le (by omega)) k hclip

theorem State.scramble_empty_mem (s : State) : (s.scramble .empty).mem = s.mem := rfl

/-- Settles O49: the memory is that of the state with the abandoned region made unspecified. -/
theorem resetAbandonsTheCommand : Obligations.ResetAbandonsTheCommand := by
  intro s rest hin
  refine ⟨(s.scramble s.abandonedRegion).mem, (s.scramble s.abandonedRegion).drawn, step_of_assertReset hin,
    fun e a he ha => ?_, fun e k hs he hk hfits => ?_, fun he => ?_⟩
  · rw [State.abandonedRegion_of_engine he]
    exact s.scramble_read_outside ha
  · rw [State.abandonedRegion_of_engine he]
    exact State.scramble_read_inside (r := e.destination) hs hk hfits
  · rw [State.abandonedRegion_of_idle he]
    exact s.scramble_empty_mem

end Sys2Proof.Machine
end
